-- ==== Sys2Proof/Word.lean ====
section
/-! DEFINITION. The word types of HUFFCORE: bytes, port words, weights, port addresses and bit sequences. -/

namespace Sys2Proof

/-- A byte: a Symbol, "a byte value in range 0-255" (R6). -/
abbrev Byte := BitVec 8

/-- A control register, a frequency count and a host data word are 32 bits (R8, R70). -/
abbrev Word := BitVec 32

/-- A node weight is 40 bits (R8, `W_WT = 40`). -/
abbrev Weight := BitVec 40

/-- A port address `{space[3:0], index[31:0]}` (R70). -/
abbrev PortAddr := BitVec 36

/-- A bit sequence, element 0 the first bit in stream order (R10). -/
abbrev Bits := List Bool

end Sys2Proof
end

