-- ==== Sys2Proof/Config.lean ====
section
/-! DEFINITION. What one HUFFCORE implementation fixes (the capacities, R7) and the free values: what the spec
calls "unspecified", which a model "must treat a read of it as a free draw" (R16). -/

namespace Sys2Proof.Config

/-- The five capacities a HUFFCORE implementation fixes: "the model takes the following named natural-number
parameters as arguments" (R7). -/
structure Capacities where
  /-- `IN_MAX`: bytes in the IN buffer. -/
  inMax : Nat
  /-- `OUT_MAX`: bytes in the OUT buffer. -/
  outMax : Nat
  /-- `NODE_MAX`: node records in the arena. -/
  nodeMax : Nat
  /-- `XBITS_MAX`: bits in the text bit buffer XBITS. -/
  xbitsMax : Nat
  /-- `SBITS_MAX`: bits in the stream bit buffer SBITS. -/
  sbitsMax : Nat
  deriving DecidableEq, Repr

/-- The suggested capacities of R7. The value "is this spec's own and no rule depends on it".
DESIGN CHOICE (log 1): `State.reset` is the reset state of the implementation with these capacities; every
statement about a state is for whatever capacities that state has. -/
def suggested : Capacities where
  inMax := 65536
  outMax := 65536
  nodeMax := 511
  xbitsMax := 524288
  sbitsMax := 526864

/-- `TBITS_MAX = 5*(NODE_MAX+1) - 1` (R7, derived constants). -/
def Capacities.tbitsMax (c : Capacities) : Nat := 5 * (c.nodeMax + 1) - 1

/-- `CODE_LEN_MAX = 255`, the longest code the code table stores (R7). -/
def codeLenMax : Nat := 255

/-- FREE VALUE (log 3). The byte IN holds at an index the host has not written since reset, which "is
unspecified" (R40), as the transaction with this draw number sees it at this index. -/
opaque freeInByte : Nat → Nat → Byte

/-- FREE VALUE (log 4). The word a host read returns where the spec says the value is unspecified (R73, R86), for
the transaction with this draw number; an element narrower than 32 bits takes its low bits. -/
opaque freeRead : Nat → Word

end Sys2Proof.Config
end

