-- ==== Sys2Proof/Syntax.lean ====
section
/-! DEFINITION. The sixteen commands (R101): one constructor per row of spec/opcode_table.json. -/

namespace Sys2Proof

/-- A command. "A command word has no register fields, no immediate and no mode bits. Every operand of every
command is implicit: it is the state named in the command's rule." (R100) -/
inductive Instr where
  /-- CLR, 0x01: soft reset (R230). -/
  | clr
  /-- COUNT, 0x10: frequency table of the input (R120). -/
  | count
  /-- SEED, 0x20: leaves and queue from the frequency table (R131). -/
  | seed
  /-- MERGE, 0x21: one merge of the two least nodes (R135). -/
  | merge
  /-- BUILD, 0x22: SEED, then MERGE until one node is queued (R140). -/
  | build
  /-- CODES, 0x30: code table from the tree (R150). -/
  | codes
  /-- SERTREE, 0x40: serialise the tree (R161). -/
  | sertree
  /-- DESTREE, 0x41: deserialise a tree (R165). -/
  | destree
  /-- PACK, 0x50: stream bits to OUT bytes (R180). -/
  | pack
  /-- UNPACK, 0x51: IN bytes to stream bits (R184). -/
  | unpack
  /-- ENCTEXT, 0x60: encode the input with the code table (R190). -/
  | enctext
  /-- ASSEMBLE, 0x61: pad count and stream assembly (R195). -/
  | assemble
  /-- COMPRESS, 0x62: the whole encode path (R200). -/
  | compress
  /-- RDPAD, 0x70: read the pad-count field (R210). -/
  | rdpad
  /-- DECTEXT, 0x71: tree-walk decode of the text (R214). -/
  | dectext
  /-- DECOMPRESS, 0x72: the whole decode path (R220). -/
  | decompress
  deriving DecidableEq, Repr

end Sys2Proof
end

