-- ==== Sys2Proof/WellFormed.lean ====
section
/-! DEFINITION. What is well formed: an instruction, a command word, a set of capacities. -/

namespace Sys2Proof

/-- Every instruction is well formed: a command has no operand fields (R100), so no operand can be out of range. -/
def Instr.wellFormed : Instr → Bool
  | .clr => true
  | .count => true
  | .seed => true
  | .merge => true
  | .build => true
  | .codes => true
  | .sertree => true
  | .destree => true
  | .pack => true
  | .unpack => true
  | .enctext => true
  | .assemble => true
  | .compress => true
  | .rdpad => true
  | .dectext => true
  | .decompress => true

/-- The op column of the opcode map (R101), as it stands there. -/
def implementedOps : List (BitVec 8) :=
  [0x01, 0x10, 0x20, 0x21, 0x22, 0x30, 0x40, 0x41, 0x50, 0x51, 0x60, 0x61, 0x62, 0x70, 0x71, 0x72]

/-- A command word is legal when its `rsv` bits 31:8 are 0 and its `op` bits 7:0 are one of the sixteen opcodes;
any other word is illegal (R102). -/
def commandWordWellFormed (w : Word) : Bool :=
  w.extractLsb' 8 24 == 0#24 && implementedOps.contains (w.extractLsb' 0 8)

/-- The constraints R7 puts on the five capacities. -/
abbrev Config.Capacities.WellFormed (c : Config.Capacities) : Prop :=
  (1 ≤ c.inMax ∧ c.inMax ≤ 2 ^ 29 - 1) ∧
  (1 ≤ c.outMax ∧ c.outMax ≤ 2 ^ 32 - 1) ∧
  (c.nodeMax % 2 = 1 ∧ 511 ≤ c.nodeMax ∧ c.nodeMax ≤ 2 ^ 24 - 1) ∧
  (1 ≤ c.xbitsMax ∧ c.xbitsMax ≤ 2 ^ 32 - 1) ∧
  (c.sbitsMax % 8 = 0 ∧ 8 * c.inMax ≤ c.sbitsMax ∧ c.sbitsMax ≤ 2 ^ 32 - 8)

end Sys2Proof
end

