-- ==== Sys2Proof/Decode.lean ====
section
/-! DEFINITION. The command word, format CMD32 (R100): its fields, the decoder (total, rejecting by name, R102) and
the encoder. -/

namespace Sys2Proof

/-- Field `op`, bits 7:0 (R100). -/
def opField (w : Word) : BitVec 8 := w.extractLsb' 0 8

/-- Field `rsv`, bits 31:8, "reserved, must be 0" (R100). -/
def rsvField (w : Word) : BitVec 24 := w.extractLsb' 8 24

/-- Why a word encodes no command (R102). -/
inductive DecodeError where
  /-- `w[31:8]` is not 0. -/
  | reservedBits
  /-- `w[7:0]` is not one of the sixteen opcodes. -/
  | unknownOpcode (op : BitVec 8)
  deriving DecidableEq, Repr

/-- The opcode map (R101), in its order. -/
def opcodeMap : List (BitVec 8 × Instr) :=
  [(0x01, .clr), (0x10, .count), (0x20, .seed), (0x21, .merge), (0x22, .build), (0x30, .codes), (0x40, .sertree), (0x41, .destree)]
    ++ [(0x50, .pack), (0x51, .unpack), (0x60, .enctext), (0x61, .assemble), (0x62, .compress), (0x70, .rdpad), (0x71, .dectext),
      (0x72, .decompress)]

/-- Decode a command word: "Decoding reads nothing but the word." (R102) -/
def decode (w : Word) : Except DecodeError Instr :=
  if rsvField w = 0 then
    match opcodeMap.find? (fun row => row.1 == opField w) with
    | some row => .ok row.2
    | none => .error (.unknownOpcode (opField w))
  else .error .reservedBits

/-- The command word of a command: "Every row's whole word is `0x000000` followed by the opcode byte." (R101) -/
def encode : Instr → Word
  | .clr => 0x00000001
  | .count => 0x00000010
  | .seed => 0x00000020
  | .merge => 0x00000021
  | .build => 0x00000022
  | .codes => 0x00000030
  | .sertree => 0x00000040
  | .destree => 0x00000041
  | .pack => 0x00000050
  | .unpack => 0x00000051
  | .enctext => 0x00000060
  | .assemble => 0x00000061
  | .compress => 0x00000062
  | .rdpad => 0x00000070
  | .dectext => 0x00000071
  | .decompress => 0x00000072

/-- The instruction the decoder reads from a table row's word `w` of `nbits` bits. A command is one 32-bit port
word, moved whole by one transaction (R72, R100), so it has no byte order to lay out. -/
def decodeTableWord (nbits w : Nat) : Option Instr :=
  let v := w % 2 ^ nbits
  if v < 2 ^ 32 then
    match decode (BitVec.ofNat 32 v) with
    | .ok i => some i
    | .error _ => none
  else none

end Sys2Proof
end

