-- ==== Sys2Proof/Machine/State.lean ====
section
/-! DEFINITION. The state of one HUFFCORE instance (R20), its reset value (R60), and the reasons a step can stop. -/

namespace Sys2Proof.Machine

/-- The seven error kinds (R241). -/
inductive ErrorKind where
  | emptyInput
  | malformedTree
  | corruptStream
  | capacity
  | illegalCommand
  | sequence
  | noCode
  deriving DecidableEq, Repr

/-- The eight one-bit fields of register STATUS (R23); its bits 31:8 read as 0. -/
structure Status where
  /-- Bit 0: a command is executing. -/
  busy : Bool
  /-- Bit 1: the last command has completed. -/
  done : Bool
  /-- Bit 2: `REG.ERR` is not 0. -/
  errf : Bool
  /-- Bit 3: ROOT names a well-formed tree (R44). -/
  vTree : Bool
  /-- Bit 4: CODE holds the code table of some tree (R46). -/
  vCodes : Bool
  /-- Bit 5: TBITS holds a serialised tree. -/
  vTbits : Bool
  /-- Bit 6: XBITS holds encoded text. -/
  vXbits : Bool
  /-- Bit 7: SBITS holds a stream. -/
  vSbits : Bool
  deriving DecidableEq, Repr

/-- A record of the node arena (R43): `kind` is the constructor, `sym` is "meaningful when kind = LEAF, 0 otherwise",
`left` and `right` are "meaningful when kind = INTERNAL, 0 otherwise", and every record has a weight. -/
inductive Node where
  | leaf (sym : Byte) (w : Weight)
  | internal (left right : Nat) (w : Weight)
  deriving DecidableEq, Repr

/-- What the outside world does to the block: a port read, a port write (R70), or the reset input (R270). -/
inductive HostOp where
  | read (a : PortAddr)
  | write (a : PortAddr) (v : Word)
  | reset
  deriving DecidableEq, Repr

/-- The state (R20). A length or count register shares its storage with the list it counts, so it is stored once:
OUT_LEN is the length of `out`, NODE_CNT of `nodes`, PQ_CNT of `pq`, TBITS_LEN of `tbits`, XBITS_LEN of `xbits`,
SBITS_LEN of `sbits` ("a bit sequence whose length is the matching length register", R12); elements past the end are
unspecified and are not held (log 6). `cap`, `host`, `rdata` and `draws` are the model's own. -/
structure State where
  /-- The implementation's capacities (R7, R51): no step changes them (log 1). -/
  cap : Config.Capacities
  /-- CMD, register 0 (R22). -/
  cmd : Word
  /-- STATUS, register 1 (R23). -/
  status : Status
  /-- ERR, register 2 (R24): none is code 0. -/
  err : Option ErrorKind
  /-- ERRACC, register 3 (R25). -/
  errAcc : Word
  /-- IN_LEN, register 4 (R26). -/
  inLen : Word
  /-- CUR, register 6 (R29). -/
  cur : Word
  /-- ROOT, register 7 (R30). -/
  root : Word
  /-- PADCNT, register 10 (R33). -/
  padCnt : Word
  /-- IN (R40): the bytes the host has written since reset, by index, indexes rising. -/
  inMem : List Host.Cell
  /-- OUT and OUT_LEN (R41, R28). -/
  out : List Byte
  /-- FREQ (R42): the non-zero counts by symbol, symbols rising; an unlisted symbol's count is 0. -/
  freq : List (Nat × Word)
  /-- NODE and NODE_CNT (R43, R31), by handle. -/
  nodes : List Node
  /-- PQ and PQ_CNT (R45, R32): handles, ascending by key. -/
  pq : List Nat
  /-- CODE (R46): the valid entries by symbol, symbols rising; `len` is the length of the bits. -/
  code : List (Nat × Bits)
  /-- TBITS and TBITS_LEN (R47, R34). -/
  tbits : Bits
  /-- XBITS and XBITS_LEN (R48, R34). -/
  xbits : Bits
  /-- SBITS and SBITS_LEN (R49, R34). -/
  sbits : Bits
  /-- The transactions the host has issued and the block has not yet taken, in the order issued (R87, log 2). -/
  host : List HostOp
  /-- The data word of the host's last read, none before the first (log 2). -/
  rdata : Option Word
  /-- How many transactions the block has taken: the argument of the free values (log 3). -/
  draws : Nat
  deriving DecidableEq, Repr

/-- A status with every field 0. -/
def Status.zero : Status where
  busy := false
  done := false
  errf := false
  vTree := false
  vCodes := false
  vTbits := false
  vXbits := false
  vSbits := false

/-- The state after reset of an implementation with capacities `c` (R60): "every register of rule R21 is 0", "every
entry of FREQ is 0", and the memories R60 calls unspecified hold no value. -/
def State.resetWith (c : Config.Capacities) : State where
  cap := c
  cmd := 0
  status := Status.zero
  err := none
  errAcc := 0
  inLen := 0
  cur := 0
  root := 0
  padCnt := 0
  inMem := []
  out := []
  freq := []
  nodes := []
  pq := []
  code := []
  tbits := []
  xbits := []
  sbits := []
  host := []
  rdata := none
  draws := 0

/-- The machine right after reset (R60), with the suggested capacities of R7 (DESIGN CHOICE, log 1). -/
def State.reset : State := State.resetWith Config.suggested

/-- Why a step stops. Both are safe: the machine stops where R44 or R52 (f), which "hold whenever the block is idle",
does not hold, so no state that a run reaches from reset meets either. -/
inductive Fault where
  /-- Raised by CODES, SERTREE and DECTEXT when V_TREE is 1 but the records reachable from ROOT form no tree, against
  R44. Safe (log 5). -/
  | arenaNotTree
  /-- Raised by MERGE when PQ holds a handle of no allocated record, against R52 (f). Safe (log 5). -/
  | queueDangling
  deriving DecidableEq, Repr

/-- Why a step has no meaning. -/
inductive Refusal where
  /-- Raised by `exec` for an instruction that has no meaning yet; safe. No arm uses it. -/
  | notModelled (mnemonic : String)
  deriving DecidableEq, Repr

/-- The three outcomes of a step of this machine. -/
abbrev Outcome := Host.Outcome State Fault Refusal

end Sys2Proof.Machine
end

