-- ==== Sys2Proof/Machine/Flags.lean ====
section
/-! DEFINITION. STATUS, ERR and ERRACC as the host reads them, and the validity-flag tests of the commands. -/

namespace Sys2Proof.Machine

/-- The error codes of R241. -/
def ErrorKind.code : ErrorKind → Nat
  | .emptyInput => 1
  | .malformedTree => 2
  | .corruptStream => 3
  | .capacity => 4
  | .illegalCommand => 5
  | .sequence => 6
  | .noCode => 7

/-- ERR as a register (R24): 0 none, else the code; bits 31:3 read as 0. -/
def errWord : Option ErrorKind → Word
  | none => 0
  | some e => BitVec.ofNat 32 e.code

/-- Bit `n` of ERRACC for error code `n` (R25). -/
def ErrorKind.accBit (e : ErrorKind) : Word := 1#32 <<< e.code

/-- The value of one STATUS field at its bit position. -/
def flagBit (position : Nat) (b : Bool) : Word := if b then 1#32 <<< position else 0

/-- STATUS as a register (R23): bits 31:8 read as 0. -/
def statusWord (f : Status) : Word :=
  flagBit 0 f.busy ||| flagBit 1 f.done ||| flagBit 2 f.errf ||| flagBit 3 f.vTree ||| flagBit 4 f.vCodes |||
    flagBit 5 f.vTbits ||| flagBit 6 f.vXbits ||| flagBit 7 f.vSbits

/-- All five validity flags cleared (the start of COMPRESS, R200; CLR, R230). -/
def Status.clearValid (f : Status) : Status :=
  { f with vTree := false, vCodes := false, vTbits := false, vXbits := false, vSbits := false }

end Sys2Proof.Machine
end

