-- ==== Sys2Proof/Machine/Tree.lean ====
section
/-! DEFINITION. Abstract trees (R15), the tree the arena holds (`T(h)`), and the byte and bit forms of R11. -/

namespace Sys2Proof.Machine

/-- `bits(v, 8)`: most significant bit first, `bits(v,8)[i] = (v >> (7-i)) & 1` (R11). -/
def bits8 (v : Byte) : Bits := (List.range 8).map fun i => v.getLsbD (7 - i)

/-- The number whose binary digits, most significant first, are `b`. -/
def bitsValue (b : Bits) : Nat := b.foldl (fun acc d => 2 * acc + d.toNat) 0

/-- `val8(B)`, the inverse of `bits8` on eight bits (R11). -/
def val8 (b : Bits) : Byte := BitVec.ofNat 8 (bitsValue b)

/-- The spec's `Tree`: "the inductive type with two constructors, `Leaf(s)` ... and `Node(l, r)`" (R15). -/
inductive CodeTree where
  | leaf (s : Byte)
  | node (l r : CodeTree)
  deriving DecidableEq, Repr

/-- The number of Leaf constructors (R15). -/
def CodeTree.leaves : CodeTree → Nat
  | .leaf _ => 1
  | .node l r => l.leaves + r.leaves

/-- The number of constructors (R15). -/
def CodeTree.nodes : CodeTree → Nat
  | .leaf _ => 1
  | .node l r => 1 + l.nodes + r.nodes

/-- The longest root-to-leaf edge count (R15). -/
def CodeTree.depth : CodeTree → Nat
  | .leaf _ => 0
  | .node l r => 1 + max l.depth r.depth

/-- The symbols at the leaves, left to right. -/
def CodeTree.symbols : CodeTree → List Byte
  | .leaf s => [s]
  | .node l r => l.symbols ++ r.symbols

/-- The root-to-leaf paths, left edge 0 and right edge 1, each with its leaf's symbol, left to right (R111). -/
def CodeTree.paths : CodeTree → List (Bits × Byte)
  | .leaf s => [([], s)]
  | .node l r => l.paths.map (fun p => (false :: p.1, p.2)) ++ r.paths.map (fun p => (true :: p.1, p.2))

/-- `ser(t)` (R107). -/
def CodeTree.ser : CodeTree → Bits
  | .leaf s => true :: bits8 s
  | .node l r => false :: (l.ser ++ r.ser)

/-- The weight of a record (R43). -/
def Node.weight : Node → Weight
  | .leaf _ w => w
  | .internal _ _ w => w

/-- The handles a record uses as children (R43). -/
def Node.children : Node → List Nat
  | .leaf _ _ => []
  | .internal l r _ => [l, r]

/-- `T(h)` (R15), looking at most `fuel` edges deep: none where a handle has no record or the records go deeper. -/
def treeAt (nodes : List Node) : (fuel : Nat) → (h : Nat) → Option CodeTree
  | 0, _ => none
  | fuel + 1, h =>
    match nodes[h]? with
    | none => none
    | some (.leaf s _) => some (.leaf s)
    | some (.internal l r _) =>
      match treeAt nodes fuel l, treeAt nodes fuel r with
      | some tl, some tr => some (.node tl tr)
      | _, _ => none

/-- The records of `t` numbered in pre-order from handle `base`, every weight 0 (R166): a left child has its parent's
handle plus 1, a right child that plus the number of nodes of the left subtree. -/
def CodeTree.records : CodeTree → (base : Nat) → List Node
  | .leaf s, _ => [.leaf s 0]
  | .node l r, base =>
    .internal (base + 1) (base + 1 + l.nodes) 0 :: (l.records (base + 1) ++ r.records (base + 1 + l.nodes))

end Sys2Proof.Machine
end

