-- ==== Sys2Proof/Machine/Ops.lean ====
section
/-! DEFINITION. The named operations over the sparse memories, the start and completion of a command (R85), and the
taking of an error (R246), each once for all commands. -/

namespace Sys2Proof.Machine

/-- Read a sparse memory: none at an index that is not listed. -/
def Cells.read? {α : Type} : List (Nat × α) → Nat → Option α
  | [], _ => none
  | (k, v) :: rest, i => if k = i then some v else Cells.read? rest i

/-- Write a sparse memory, keeping the indexes rising. -/
def Cells.write {α : Type} : List (Nat × α) → Nat → α → List (Nat × α)
  | [], i, x => [(i, x)]
  | (k, v) :: rest, i, x =>
    if i < k then (i, x) :: (k, v) :: rest
    else if i = k then (i, x) :: rest
    else (k, v) :: Cells.write rest i x

/-- Remove an index from a sparse memory. -/
def Cells.erase {α : Type} : List (Nat × α) → Nat → List (Nat × α)
  | [], _ => []
  | (k, v) :: rest, i => if k = i then rest else (k, v) :: Cells.erase rest i

/-- The canonical form: indexes strictly rising. -/
abbrev Cells.wf {α : Type} (m : List (Nat × α)) : Prop := (m.map Prod.fst).Pairwise (· < ·)

/-- The canonical form of IN. An unlisted index reads as no value, so no entry can equal what it reads as. -/
abbrev Memory.wf (m : List Host.Cell) : Prop := Cells.wf m

/-- `FREQ[s]` in a frequency table: an unlisted symbol's count is 0, its reset value (R42, R60). -/
def Freq.count (f : List (Nat × Word)) (s : Byte) : Word := (Cells.read? f s.toNat).getD 0

/-- `FREQ[s] <- c`: a zero count takes the symbol off the list, as "zero-count symbols never appear" (R42). -/
def Freq.set (f : List (Nat × Word)) (s : Byte) (c : Word) : List (Nat × Word) :=
  if c = 0 then Cells.erase f s.toNat else Cells.write f s.toNat c

/-- The canonical form of FREQ: symbols strictly rising, each below 256, no zero count. -/
abbrev Freq.wf (f : List (Nat × Word)) : Prop := Cells.wf f ∧ ∀ cell ∈ f, cell.1 < 256 ∧ cell.2 ≠ 0

/-- `CODE[s]`: the bits of a valid entry, none for an invalid one (R46). -/
def Code.entry (c : List (Nat × Bits)) (s : Byte) : Option Bits := Cells.read? c s.toNat

/-- `CODE[s] <- { valid = 1, len = len(p), bits = p }` (R150). -/
def Code.set (c : List (Nat × Bits)) (s : Byte) (p : Bits) : List (Nat × Bits) := Cells.write c s.toNat p

/-- All symbols, ascending. -/
def allSymbols : List Byte := (List.range 256).map (BitVec.ofNat 8)

/-- `IN[i]` as the transaction now being taken sees it: the byte the host wrote, or a free byte where it has written
none since reset (R40, log 3). -/
def State.inByte (s : State) (i : Nat) : Byte :=
  match Cells.read? s.inMem i with
  | some b => b
  | none => Config.freeInByte s.draws i

/-- What the body of a command comes to: it completes, it raises an error (R14), or it cannot go on (log 5). -/
inductive StageResult where
  | done (s : State)
  | raised (e : ErrorKind) (s : State)
  | stuck (f : Fault)
  deriving DecidableEq, Repr

/-- The next stage of a composed command: "the first stage to raise ends" it with that error (R200, R220). -/
def StageResult.andThen (r : StageResult) (next : State → StageResult) : StageResult :=
  match r with
  | .done s => next s
  | .raised e s => .raised e s
  | .stuck f => .stuck f

/-- The start of a command: "the block sets BUSY to 1 and clears DONE, ERRF and ERR" (R85). It is also the way out of
an error: "the start clears ERR and ERRF" (R252). -/
def startCommand (s : State) : State :=
  { s with status := { s.status with busy := true, done := false, errf := false }, err := none }

/-- The completion of a command without error: "the block sets BUSY to 0 and DONE to 1" (R85). -/
def completeCommand (s : State) : State :=
  { s with status := { s.status with busy := false, done := true } }

/-- Taking an error: ERR becomes its code, ERRF becomes 1, its bit of ERRACC is set, BUSY becomes 0 and DONE 1 (R246). -/
def takeError (e : ErrorKind) (s : State) : State :=
  { s with
    status := { s.status with busy := false, done := true, errf := true }
    err := some e
    errAcc := s.errAcc ||| e.accBit }

/-- Run a command to completion as one transition (R85): start, body, completion or error. -/
def runCommand (body : State → StageResult) (s : State) : Host.Outcome State Fault Refusal :=
  match body (startCommand s) with
  | .done t => .next (completeCommand t)
  | .raised e t => .next (takeError e t)
  | .stuck f => .fault f

/-- The first line of SEED and the second of DESTREE: V_TREE, ROOT, NODE_CNT, PQ_CNT become 0 and PQ empty (R131, R165). -/
def dropTree (s : State) : State :=
  { s with status := { s.status with vTree := false }, root := 0, nodes := [], pq := [] }

end Sys2Proof.Machine
end

