-- ==== Sys2Proof/Machine/Operands.lean ====
section
/-! DEFINITION. The implicit operands of the commands (R100) and the views the REG registers give of the state (R21). -/

namespace Sys2Proof.Machine

/-- The input byte sequence: IN[0] to IN[IN_LEN-1] in ascending order (R26, R40). -/
def inputBytes (s : State) : List Byte := (List.range s.inLen.toNat).map s.inByte

/-- `T(REG.ROOT)` (R15): none where the records reachable from ROOT form no tree. A tree in an arena of n records has
no path of n edges, so n levels of fuel reach every leaf (R44). -/
def State.tree? (s : State) : Option CodeTree := treeAt s.nodes s.nodes.length s.root.toNat

/-- SBITS from the cursor to the end; empty when the cursor is at or past the end (R29). -/
def State.streamFromCur (s : State) : Bits := s.sbits.drop s.cur.toNat

/-- A register of space REG (R21). -/
def regRead (s : State) (n : Nat) : Word :=
  match n with
  | 0 => s.cmd
  | 1 => statusWord s.status
  | 2 => errWord s.err
  | 3 => s.errAcc
  | 4 => s.inLen
  | 5 => BitVec.ofNat 32 s.out.length
  | 6 => s.cur
  | 7 => s.root
  | 8 => BitVec.ofNat 32 s.nodes.length
  | 9 => BitVec.ofNat 32 s.pq.length
  | 10 => s.padCnt
  | 11 => BitVec.ofNat 32 s.tbits.length
  | 12 => BitVec.ofNat 32 s.xbits.length
  | 13 => BitVec.ofNat 32 s.sbits.length
  | _ => 0

end Sys2Proof.Machine
end

