-- ==== Sys2Proof/Machine/Control.lean ====
section
/-! DEFINITION. Control: CLR (R230), the illegal command (R232) and the reset input (R270). -/

namespace Sys2Proof.Machine

/-- The CLR stage (R230): "every register of 10_state.md rule R21 takes its reset value 0 except CMD ..., STATUS.DONE
... and IN_LEN". The memories that become unspecified hold no value. -/
def clrStage (s : State) : StageResult :=
  .done { s with
    errAcc := 0
    cur := 0
    root := 0
    padCnt := 0
    status := s.status.clearValid
    out := []
    freq := []
    nodes := []
    pq := []
    code := []
    tbits := []
    xbits := []
    sbits := [] }

/-- CLR (R230): it always succeeds. -/
def execClr (s : State) : Host.Outcome State Fault Refusal := runCommand clrStage s

/-- The illegal command: it "does nothing but raise IllegalCommandError (code 5)" (R232). -/
def illegalCommand (s : State) : Host.Outcome State Fault Refusal := runCommand (.raised .illegalCommand) s

/-- The reset input (R270): the block's state becomes that of R60. What the host has still to issue, and the number of
transactions taken, are no part of the block and stay. -/
def applyReset (s : State) : State :=
  { State.resetWith s.cap with host := s.host, draws := s.draws }

end Sys2Proof.Machine
end

