-- ==== Sys2Proof/Machine/Bitstream.lean ====
section
/-! DEFINITION. The bitstream codec: PACK (R180) and UNPACK (R184). -/

namespace Sys2Proof.Machine

/-- `OUT[j] <- val8(SBITS[8j : 8j+8])` for every j below SBITS_LEN/8 (R180). -/
def packBits (b : Bits) : List Byte := (List.range (b.length / 8)).map fun j => val8 ((b.drop (8 * j)).take 8)

/-- `bits(IN[0], 8) ++ bits(IN[1], 8) ++ ...` (R184). -/
def unpackBytes (bytes : List Byte) : Bits := bytes.flatMap bits8

/-- The PACK stage (R180, R181). -/
def packStage (s : State) : StageResult :=
  if s.status.vSbits then
    if s.cap.outMax < s.sbits.length / 8 then .raised .capacity { s with out := [] }
    else .done { s with out := packBits s.sbits }
  else .raised .sequence s

/-- The UNPACK stage (R184, R185). -/
def unpackStage (s : State) : StageResult :=
  .done { s with sbits := unpackBytes (inputBytes s), status := { s.status with vSbits := true }, cur := 0 }

/-- PACK (R180). -/
def execPack (s : State) : Host.Outcome State Fault Refusal := runCommand packStage s

/-- UNPACK (R184): it always succeeds. -/
def execUnpack (s : State) : Host.Outcome State Fault Refusal := runCommand unpackStage s

end Sys2Proof.Machine
end

