-- ==== Sys2Proof/Machine/TreeCodec.lean ====
section
/-! DEFINITION. The tree codec: SERTREE (R161) and DESTREE (R165). -/

namespace Sys2Proof.Machine

/-- `rd` (R165) on the bits from its position on, with `used` records already allocated of `room`: the tree read, the
bits after it and the records then allocated. The checks stand in the order of R169. Each call under a node has fewer
bits left, so a fuel above the number of bits never runs out. -/
def parseTree (room : Nat) : (fuel : Nat) → (b : Bits) → (used : Nat) → Except ErrorKind (CodeTree × Bits × Nat)
  | 0, _, _ => .error .malformedTree
  | _ + 1, [], _ => .error .malformedTree
  | fuel + 1, tag :: rest, used =>
    if used = room then .error .capacity
    else if tag then
      if rest.length < 8 then .error .malformedTree
      else .ok (.leaf (val8 (rest.take 8)), rest.drop 8, used + 1)
    else
      match parseTree room fuel rest (used + 1) with
      | .error e => .error e
      | .ok (l, rest', used') =>
        match parseTree room fuel rest' used' with
        | .error e => .error e
        | .ok (r, rest'', used'') => .ok (.node l r, rest'', used'')

/-- Read one tree from the front of `b` into an empty arena of `room` records. -/
def readTree (room : Nat) (b : Bits) : Except ErrorKind (CodeTree × Bits × Nat) := parseTree room (b.length + 1) b 0

/-- The SERTREE stage (R161, R162). -/
def sertreeStage (s : State) : StageResult :=
  if s.status.vTree then
    match s.tree? with
    | none => .stuck .arenaNotTree
    | some t => .done { s with tbits := t.ser, status := { s.status with vTbits := true } }
  else .raised .sequence s

/-- The DESTREE stage (R165 to R169). -/
def destreeStage (s : State) : StageResult :=
  if s.status.vSbits then
    let cleared := dropTree s
    match readTree s.cap.nodeMax s.streamFromCur with
    | .error e => .raised e cleared
    | .ok (t, rest, _) =>
      .done { cleared with
        nodes := t.records 0
        root := 0
        status := { cleared.status with vTree := true }
        cur := BitVec.ofNat 32 (s.sbits.length - rest.length) }
  else .raised .sequence s

/-- SERTREE (R161). -/
def execSertree (s : State) : Host.Outcome State Fault Refusal := runCommand sertreeStage s

/-- DESTREE (R165). -/
def execDestree (s : State) : Host.Outcome State Fault Refusal := runCommand destreeStage s

end Sys2Proof.Machine
end

