-- ==== Sys2Proof/Machine/Decoder.lean ====
section
/-! DEFINITION. The decoder: RDPAD (R210), DECTEXT (R214), DECOMPRESS (R220). -/

namespace Sys2Proof.Machine

/-- The RDPAD stage (R210, R211). The sums are natural numbers, so they cannot wrap (R212). -/
def rdpadStage (s : State) : StageResult :=
  if s.status.vSbits then
    let c := s.cur.toNat
    if s.sbits.length < c + 8 then .raised .corruptStream s
    else
      let p := (val8 ((s.sbits.drop c).take 8)).toNat
      if 7 < p then .raised .corruptStream s
      else if s.sbits.length < c + 8 + p then .raised .corruptStream s
      else .done { s with padCnt := BitVec.ofNat 32 p, cur := BitVec.ofNat 32 (c + 8 + p) }
  else .raised .sequence s

/-- Decoding under a root that is a leaf of symbol `s` (R216), with room for `room` more symbols. -/
def decodeUnderLeaf (s : Byte) : (room : Nat) → Bits → Except ErrorKind (List Byte)
  | _, [] => .ok []
  | room, b :: rest =>
    if b then .error .corruptStream
    else
      match room with
      | 0 => .error .capacity
      | room' + 1 =>
        match decodeUnderLeaf s room' rest with
        | .error e => .error e
        | .ok out => .ok (s :: out)

/-- The tree walk of R214 under the internal root `root`, at the internal node `pos` with children `l` and `r`;
`midPath` says that pos is not the root, and `room` is how many more symbols OUT holds. -/
def decodeWalk (root : CodeTree × CodeTree) : (pos : CodeTree × CodeTree) → (midPath : Bool) → (room : Nat) → Bits →
    Except ErrorKind (List Byte)
  | _, midPath, _, [] => if midPath then .error .corruptStream else .ok []
  | pos, _, room, b :: rest =>
    match (if b then pos.2 else pos.1) with
    | .node l r => decodeWalk root (l, r) true room rest
    | .leaf s =>
      match room with
      | 0 => .error .capacity
      | room' + 1 =>
        match decodeWalk root root false room' rest with
        | .error e => .error e
        | .ok out => .ok (s :: out)

/-- The symbols of the text bits `x` under tree `t`, at most `room` of them (R214, R216). -/
def decodeText (t : CodeTree) (room : Nat) (x : Bits) : Except ErrorKind (List Byte) :=
  match t with
  | .leaf s => decodeUnderLeaf s room x
  | .node l r => decodeWalk (l, r) (l, r) false room x

/-- The DECTEXT stage (R214, R217). -/
def dectextStage (s : State) : StageResult :=
  if s.status.vSbits && s.status.vTree then
    if s.sbits.length < s.cur.toNat then .raised .corruptStream { s with out := [] }
    else
      match s.tree? with
      | none => .stuck .arenaNotTree
      | some t =>
        match decodeText t s.cap.outMax s.streamFromCur with
        | .error e => .raised e { s with out := [] }
        | .ok out => .done { s with out := out }
  else .raised .sequence s

/-- What DECOMPRESS clears at its start (R220). -/
def decompressStart (s : State) : State :=
  { s with
    status := { s.status with vSbits := false, vTree := false }
    sbits := []
    cur := 0
    root := 0
    nodes := []
    pq := []
    out := [] }

/-- The DECOMPRESS stage: UNPACK, DESTREE, RDPAD, DECTEXT (R220). -/
def decompressStage (s : State) : StageResult :=
  (((unpackStage (decompressStart s)).andThen destreeStage).andThen rdpadStage).andThen dectextStage

/-- RDPAD (R210). -/
def execRdpad (s : State) : Host.Outcome State Fault Refusal := runCommand rdpadStage s

/-- DECTEXT (R214). -/
def execDectext (s : State) : Host.Outcome State Fault Refusal := runCommand dectextStage s

/-- DECOMPRESS (R220). -/
def execDecompress (s : State) : Host.Outcome State Fault Refusal := runCommand decompressStage s

end Sys2Proof.Machine
end

