-- ==== Sys2Proof/Machine/CodeTable.lean ====
section
/-! DEFINITION. The code-table generator: CODES (R150). -/

namespace Sys2Proof.Machine

/-- `walk(h, path)` (R150) on the tree at h: pre-order, left before right, a later record for a symbol replacing an
earlier one, CapacityError at the first leaf deeper than 255 edges. -/
def walkCodes : CodeTree → (path : Bits) → List (Nat × Bits) → Except ErrorKind (List (Nat × Bits))
  | .leaf s, path, table =>
    if Config.codeLenMax < path.length then .error .capacity else .ok (Code.set table s path)
  | .node l r, path, table =>
    match walkCodes l (path ++ [false]) table with
    | .error e => .error e
    | .ok table' => walkCodes r (path ++ [true]) table'

/-- The CODES stage (R150, R152). After a CapacityError "every entry of CODE becomes unspecified": none is held. -/
def codesStage (s : State) : StageResult :=
  if s.status.vTree then
    match s.tree? with
    | none => .stuck .arenaNotTree
    | some t =>
      match walkCodes t [] [] with
      | .error e => .raised e { s with code := [], status := { s.status with vCodes := false } }
      | .ok table => .done { s with code := table, status := { s.status with vCodes := true } }
  else .raised .sequence s

/-- CODES (R150). -/
def execCodes (s : State) : Host.Outcome State Fault Refusal := runCommand codesStage s

end Sys2Proof.Machine
end

