-- ==== Sys2Proof/Machine/Frequency.lean ====
section
/-! DEFINITION. The frequency counter: COUNT (R120). -/

namespace Sys2Proof.Machine

/-- `FREQ[s] <- FREQ[s] + 1` (R120). -/
def bumpCount (f : List (Nat × Word)) (s : Byte) : List (Nat × Word) := Freq.set f s (Freq.count f s + 1)

/-- The COUNT stage (R120): all entries to 0, then one increment for each input byte. -/
def countStage (s : State) : StageResult :=
  .done { s with freq := (inputBytes s).foldl bumpCount [] }

/-- COUNT (R120): it always succeeds. -/
def execCount (s : State) : Host.Outcome State Fault Refusal := runCommand countStage s

end Sys2Proof.Machine
end

