-- ==== Sys2Proof/Machine/TreeBuilder.lean ====
section
/-! DEFINITION. The tree builder: SEED (R131), MERGE (R135), BUILD (R140), and the queue order (R130). -/

namespace Sys2Proof.Machine

/-- `NODE[h].w`; a handle with no record is no queued handle (R52 (f)) and MERGE stops before it reads one. -/
def nodeWeight (nodes : List Node) (h : Nat) : Weight :=
  match nodes[h]? with
  | some n => n.weight
  | none => 0

/-- `key(a) < key(b)`: weight first, then handle (R130). -/
def keyLt (nodes : List Node) (a b : Nat) : Bool :=
  (nodeWeight nodes a).toNat < (nodeWeight nodes b).toNat ||
    ((nodeWeight nodes a).toNat == (nodeWeight nodes b).toNat && decide (a < b))

/-- `h` inserted "so that PQ stays ascending by key" (R135). -/
def enqueue (nodes : List Node) (h : Nat) : List Nat → List Nat
  | [] => [h]
  | x :: rest => if keyLt nodes h x then h :: x :: rest else x :: enqueue nodes h rest

/-- One leaf per symbol with a non-zero count, in ascending order of symbol value, weight = frequency (R131). -/
def seedLeaves (freq : List (Nat × Word)) : List Node :=
  allSymbols.filterMap fun s =>
    if Freq.count freq s = 0 then none else some (.leaf s ((Freq.count freq s).setWidth 40))

/-- "The handles 0..k-1 sorted ascending by key" (R131). -/
def seedQueue (nodes : List Node) : List Nat := (List.range nodes.length).foldr (enqueue nodes) []

/-- The SEED stage (R131, R132, R134). -/
def seedStage (s : State) : StageResult :=
  let cleared := dropTree s
  let leaves := seedLeaves s.freq
  match leaves with
  | [] => .raised .emptyInput cleared
  | [_] => .done { cleared with nodes := leaves, pq := seedQueue leaves, status := { cleared.status with vTree := true } }
  | _ => .done { cleared with nodes := leaves, pq := seedQueue leaves }

/-- The state after one merge of `a` (left) and `b` (right), the rest of the queue being `rest` (R135). -/
def mergeTop (a b : Nat) (rest : List Nat) (s : State) : State :=
  let h := s.nodes.length
  let nodes := s.nodes ++ [.internal a b (nodeWeight s.nodes a + nodeWeight s.nodes b)]
  let pq := enqueue nodes h rest
  match pq with
  | [r] => { s with nodes := nodes, pq := pq, root := BitVec.ofNat 32 r, status := { s.status with vTree := true } }
  | _ => { s with nodes := nodes, pq := pq }

/-- The MERGE stage (R135, R136). It stops where a queued handle has no record, against R52 (f) (log 5). -/
def mergeStage (s : State) : StageResult :=
  match s.pq with
  | a :: b :: rest =>
    if s.pq.all (fun h => decide (h < s.nodes.length)) then .done (mergeTop a b rest s)
    else .stuck .queueDangling
  | _ => .raised .sequence s

/-- "while REG.PQ_CNT > 1: do MERGE" (R140), at most `fuel` times. -/
def mergeLoop : (fuel : Nat) → State → StageResult
  | 0, s => .done s
  | fuel + 1, s => if 1 < s.pq.length then (mergeStage s).andThen (mergeLoop fuel) else .done s

/-- The BUILD stage (R140). PQ_CNT falls by one at each merge (R141), so PQ_CNT is fuel enough. -/
def buildStage (s : State) : StageResult :=
  (seedStage s).andThen fun t => mergeLoop t.pq.length t

/-- SEED (R131). -/
def execSeed (s : State) : Host.Outcome State Fault Refusal := runCommand seedStage s

/-- MERGE (R135). -/
def execMerge (s : State) : Host.Outcome State Fault Refusal := runCommand mergeStage s

/-- BUILD (R140). -/
def execBuild (s : State) : Host.Outcome State Fault Refusal := runCommand buildStage s

end Sys2Proof.Machine
end

