-- ==== Sys2Proof/Machine/Encoder.lean ====
section
/-! DEFINITION. The encoder: ENCTEXT (R190), ASSEMBLE (R195), COMPRESS (R200). -/

namespace Sys2Proof.Machine

/-- `piece(s)`: the code's bits, or one bit 0 where the code is empty (R190, R191). -/
def piece (code : Bits) : Bits := if code = [] then [false] else code

/-- ENCTEXT's loop (R190) with `used` bits already in X: for each byte first NoCodeError, then CapacityError (R192). -/
def encodeText (table : List (Nat × Bits)) (room : Nat) : (used : Nat) → List Byte → Except ErrorKind Bits
  | _, [] => .ok []
  | used, s :: rest =>
    match Code.entry table s with
    | none => .error .noCode
    | some code =>
      if room < used + (piece code).length then .error .capacity
      else
        match encodeText table room (used + (piece code).length) rest with
        | .error e => .error e
        | .ok x => .ok (piece code ++ x)

/-- The ENCTEXT stage (R190, R192). -/
def enctextStage (s : State) : StageResult :=
  if s.status.vCodes then
    match encodeText s.code s.cap.xbitsMax 0 (inputBytes s) with
    | .error e => .raised e { s with xbits := [], status := { s.status with vXbits := false } }
    | .ok x => .done { s with xbits := x, status := { s.status with vXbits := true } }
  else .raised .sequence s

/-- `padCount = (8 - (len(treeBits) + 8 + len(textBits)) mod 8) mod 8` (R110, R195). -/
def padCount (treeLen textLen : Nat) : Nat := (8 - (treeLen + 8 + textLen) % 8) % 8

/-- The stream: tree bits, the 8-bit pad-count field, the padding, the text bits (R109, R195). -/
def assembleStream (tree text : Bits) : Bits :=
  let p := padCount tree.length text.length
  tree ++ bits8 (BitVec.ofNat 8 p) ++ List.replicate p false ++ text

/-- The ASSEMBLE stage (R195, R197). -/
def assembleStage (s : State) : StageResult :=
  if s.status.vTbits && s.status.vXbits then
    let p := padCount s.tbits.length s.xbits.length
    if s.cap.sbitsMax < s.tbits.length + 8 + p + s.xbits.length then
      .raised .capacity { s with sbits := [], cur := 0, status := { s.status with vSbits := false } }
    else
      .done { s with
        sbits := assembleStream s.tbits s.xbits
        padCnt := BitVec.ofNat 32 p
        cur := 0
        status := { s.status with vSbits := true } }
  else .raised .sequence s

/-- What COMPRESS clears at its start (R200); with V_CODES 0 no entry of CODE is specified and none is held (R46). -/
def compressStart (s : State) : State :=
  { s with
    status := s.status.clearValid
    root := 0
    nodes := []
    pq := []
    code := []
    tbits := []
    xbits := []
    sbits := []
    out := []
    cur := 0 }

/-- "if REG.IN_LEN = 0: raise EmptyInputError" (R200, step 1). -/
def requireInput (s : State) : StageResult := if s.inLen = 0 then .raised .emptyInput s else .done s

/-- The COMPRESS stage: COUNT, the empty-input test, BUILD, CODES, ENCTEXT, SERTREE, ASSEMBLE, PACK (R200). -/
def compressStage (s : State) : StageResult :=
  ((((((((countStage (compressStart s)).andThen requireInput).andThen buildStage).andThen codesStage).andThen
    enctextStage).andThen sertreeStage).andThen assembleStage).andThen packStage)

/-- ENCTEXT (R190). -/
def execEnctext (s : State) : Host.Outcome State Fault Refusal := runCommand enctextStage s

/-- ASSEMBLE (R195). -/
def execAssemble (s : State) : Host.Outcome State Fault Refusal := runCommand assembleStage s

/-- COMPRESS (R200). -/
def execCompress (s : State) : Host.Outcome State Fault Refusal := runCommand compressStage s

end Sys2Proof.Machine
end

