-- ==== Sys2Proof/Machine/Dispatch.lean ====
section
/-! DEFINITION. exec: one arm per command, each a direct call of its meaning. -/

namespace Sys2Proof.Machine

def exec (i : Instr) (s : State) : Host.Outcome State Fault Refusal :=
  match i with
  | .clr => Sys2Proof.Machine.execClr s
  | .count => Sys2Proof.Machine.execCount s
  | .seed => Sys2Proof.Machine.execSeed s
  | .merge => Sys2Proof.Machine.execMerge s
  | .build => Sys2Proof.Machine.execBuild s
  | .codes => Sys2Proof.Machine.execCodes s
  | .sertree => Sys2Proof.Machine.execSertree s
  | .destree => Sys2Proof.Machine.execDestree s
  | .pack => Sys2Proof.Machine.execPack s
  | .unpack => Sys2Proof.Machine.execUnpack s
  | .enctext => Sys2Proof.Machine.execEnctext s
  | .assemble => Sys2Proof.Machine.execAssemble s
  | .compress => Sys2Proof.Machine.execCompress s
  | .rdpad => Sys2Proof.Machine.execRdpad s
  | .dectext => Sys2Proof.Machine.execDectext s
  | .decompress => Sys2Proof.Machine.execDecompress s

end Sys2Proof.Machine
end

