-- ==== Sys2Proof/Machine/Port.lean ====
section
/-! DEFINITION. The host port: the address spaces (R70, R71), reads, plain writes (R74), and the script notation of
R105 and R106. -/

namespace Sys2Proof.Machine

/-- `space[3:0]`, bits 35:32 of a port address (R70). -/
def portSpace (a : PortAddr) : Nat := (a.extractLsb' 32 4).toNat

/-- `index[31:0]`, bits 31:0 of a port address (R70). -/
def portIndex (a : PortAddr) : Nat := (a.extractLsb' 0 32).toNat

/-- The port address `{space, index}` (R70). -/
def portAddr (space : BitVec 4) (index : BitVec 32) : PortAddr := space ++ index

/-- The port address of register CMD, `{0, 0}` (R21). -/
def cmdAddr : PortAddr := portAddr 0 0

/-- An unspecified value of an element of `width` bits, zero-extended (R16, R70, R73; log 4). -/
def freeElement (s : State) (width : Nat) : Word := ((Config.freeRead s.draws).setWidth width).setWidth 32

/-- A bit as a data word (R71). -/
def bitWord (b : Bool) : Word := if b then 1 else 0

/-- A field of an allocated node record (R71): kind, sym, left, right, w[31:0], w[39:32]. -/
def nodeField (n : Node) (f : Nat) : Option Word :=
  match f, n with
  | 0, .leaf _ _ => some 1
  | 0, .internal _ _ _ => some 0
  | 1, .leaf sym _ => some (sym.setWidth 32)
  | 1, .internal _ _ _ => some 0
  | 2, .leaf _ _ => some 0
  | 2, .internal l _ _ => some (BitVec.ofNat 32 l)
  | 3, .leaf _ _ => some 0
  | 3, .internal _ r _ => some (BitVec.ofNat 32 r)
  | 4, m => some (m.weight.setWidth 32)
  | 5, m => some ((m.weight >>> 32).setWidth 32)
  | _, _ => none

/-- The width of a node field (R43, R71); a field number 6 and above names no element, so the whole word is open. -/
def nodeFieldWidth (f : Nat) : Nat :=
  match f with
  | 0 => 1
  | 1 => 8
  | 2 => 24
  | 3 => 24
  | 4 => 32
  | 5 => 8
  | _ => 32

/-- CODELEN[s] (R71): `{valid, len[7:0]}`; unspecified while V_CODES is 0, and `len` unspecified for an invalid entry. -/
def readCodeLen (s : State) (sym : Byte) : Word :=
  if s.status.vCodes then
    match Code.entry s.code sym with
    | some p => 0x100 ||| BitVec.ofNat 32 (p.length % 256)
    | none => freeElement s 8
  else freeElement s 9

/-- CODEBITS[256*sym + p] (R71): a position at or past `len`, an invalid entry and a table whose flag is 0 are
unspecified. -/
def readCodeBit (s : State) (sym : Byte) (p : Nat) : Word :=
  if s.status.vCodes then
    match (Code.entry s.code sym).bind (fun bits => bits[p]?) with
    | some b => bitWord b
    | none => freeElement s 1
  else freeElement s 1

/-- A bit of a bit buffer; at or past its length it is unspecified (R47 to R49, R73). -/
def readBit (s : State) (buffer : Bits) (i : Nat) : Word :=
  match buffer[i]? with
  | some b => bitWord b
  | none => freeElement s 1

/-- A read of the element at a port address while the block is idle (R71, R73). -/
def readElement (s : State) (space index : Nat) : Word :=
  match space with
  | 0 => regRead s index
  | 1 => if index < s.cap.inMax then (s.inByte index).setWidth 32 else freeElement s 8
  | 2 =>
    match s.out[index]? with
    | some b => b.setWidth 32
    | none => freeElement s 8
  | 3 => if index < 256 then Freq.count s.freq (BitVec.ofNat 8 index) else freeElement s 32
  | 4 => if index < 65536 then readCodeBit s (BitVec.ofNat 8 (index / 256)) (index % 256) else freeElement s 1
  | 5 => if index < 256 then readCodeLen s (BitVec.ofNat 8 index) else freeElement s 9
  | 6 =>
    match s.nodes[index % 2 ^ 24]?.bind (fun n => nodeField n (index / 2 ^ 24)) with
    | some v => v
    | none => freeElement s (nodeFieldWidth (index / 2 ^ 24))
  | 7 => readBit s s.tbits index
  | 8 => readBit s s.xbits index
  | 9 => readBit s s.sbits index
  | 10 =>
    match s.pq[index]? with
    | some h => BitVec.ofNat 32 h
    | none => freeElement s 24
  | _ => freeElement s 32

/-- `MemRead(a, 1)` (R13, R70). While BUSY is 1 "a read of STATUS returns BUSY = 1 with every other bit unspecified; any
other read returns an unspecified value" (R86). -/
def portRead (s : State) (a : PortAddr) : Word :=
  if s.status.busy then
    if a = portAddr 0 1 then freeElement s 32 ||| 1 else freeElement s 32
  else readElement s (portSpace a) (portIndex a)

/-- A write to any address but CMD's while the block is idle: IN_LEN (R26), CUR (R29), IN (R40) and FREQ (R76) take it;
a write to a register, space or index that is not host-writable is ignored (R21, R71, R73). -/
def plainWrite (s : State) (a : PortAddr) (v : Word) : State :=
  match portSpace a with
  | 0 =>
    match portIndex a with
    | 4 => if v.toNat ≤ s.cap.inMax then { s with inLen := v } else s
    | 6 => { s with cur := v }
    | _ => s
  | 1 => if portIndex a < s.cap.inMax then { s with inMem := Cells.write s.inMem (portIndex a) (v.setWidth 8) } else s
  | 3 => if portIndex a < 256 then { s with freq := Freq.set s.freq (BitVec.ofNat 8 (portIndex a)) v } else s
  | _ => s

/-- `wr IN[i] = b` (R105). -/
def scriptWrIn (i : Nat) (b : Byte) : HostOp := .write (portAddr 1 (BitVec.ofNat 32 i)) (b.setWidth 32)

/-- `wr IN = ...` (R105, R106): the bytes to IN[0], IN[1], ... in order, then IN_LEN. -/
def scriptWrInput (bytes : List Byte) : List HostOp :=
  bytes.zipIdx.map (fun p => scriptWrIn p.2 p.1) ++ [.write (portAddr 0 4) (BitVec.ofNat 32 bytes.length)]

/-- `wr FREQ[s] = c` (R105). -/
def scriptWrFreq (s : Byte) (c : Word) : HostOp := .write (portAddr 3 (s.setWidth 32)) c

/-- `wr CUR = n` (R105). -/
def scriptWrCur (n : Word) : HostOp := .write (portAddr 0 6) n

/-- `cmd MNEMONIC` (R105): the CMD write, then a read of STATUS, which finds BUSY = 0 since a command is one step. -/
def scriptCmd (i : Instr) : List HostOp := [.write cmdAddr (encode i), .read (portAddr 0 1)]

/-- `mv OUT -> IN` (R105, R106) for the bytes OUT holds: read OUT[i], write it to IN[i], then IN_LEN. -/
def scriptMvOutToIn (out : List Byte) : List HostOp :=
  out.zipIdx.flatMap (fun p => [.read (portAddr 2 (BitVec.ofNat 32 p.2)), scriptWrIn p.2 p.1])
    ++ [.write (portAddr 0 4) (BitVec.ofNat 32 out.length)]

end Sys2Proof.Machine
end

