-- ==== Sys2Proof/Machine/Transact.lean ====
section
/-! DEFINITION. Taking one host transaction: a command write starts a command (R22, R102), any other write stores
(R74), a read returns a word, the reset input resets. -/

namespace Sys2Proof.Machine

/-- A write of `w` to CMD while the block is idle "stores w in CMD and starts the command w encodes" (R22); an illegal
word starts the illegal command (R102, R232). -/
def acceptCommand (s : State) (w : Word) : Host.Outcome State Fault Refusal :=
  match decode w with
  | .ok i => exec i { s with cmd := w }
  | .error _ => illegalCommand { s with cmd := w }

/-- One transaction, already taken off the host's list. While BUSY is 1 "every write (including a write to CMD) is
ignored" (R86). Reset may come at any time (R270). -/
def transact (op : HostOp) (s : State) : Host.Outcome State Fault Refusal :=
  match op with
  | .read a => .next { s with rdata := some (portRead s a) }
  | .write a v =>
    if s.status.busy then .next s
    else if a = cmdAddr then acceptCommand s v
    else .next (plainWrite s a v)
  | .reset => .next (applyReset s)

/-- The block takes the next transaction of the host; each has a draw number of its own (log 3). With none issued
"the block is idle and waits for a CMD write" (R270). -/
def takeTransaction (s : State) : Host.Outcome State Fault Refusal :=
  match s.host with
  | [] => .next s
  | op :: rest => transact op { s with host := rest, draws := s.draws + 1 }

/-- `s` with a write of the word `w` to CMD as the host's next transaction, the block being idle. -/
def withCommandWord (s : State) (w : Word) : State :=
  { s with host := .write cmdAddr w :: s.host, status := { s.status with busy := false } }

end Sys2Proof.Machine
end

