-- ==== Sys2Proof/Machine/Step.lean ====
section
/-! DEFINITION. One step of the machine, and how an instruction word is placed where the next step runs it. -/

namespace Sys2Proof.Machine

/-- One step: the block takes one host transaction (R87 (c)); a command is one transition (R85). -/
def step (s : State) : Host.Outcome State Fault Refusal := takeTransaction s

/-- `s` with the table word `w` of `nbits` bits as the very next thing the block runs: there is no program counter
(R27), "each command is supplied by a host write to CMD", so the host's next transaction is that write (log 2). -/
def State.withFetchWord (s : State) (nbits w : Nat) : State :=
  withCommandWord s (BitVec.ofNat 32 (w % 2 ^ nbits))

end Sys2Proof.Machine
end

