-- ==== Sys2Proof/Safety.lean ====
section
/-! DEFINITION. The terms the claims use: what a command reports, when a command may run, the invariant of the idle
block (R52), and the abstract forms of the code table (R151) and of the tree builder (R143). -/

namespace Sys2Proof.Machine

/-- `s` with the report of a command that completed without error (R85): BUSY 0, DONE 1, ERRF 0, ERR 0. -/
def reportDone (s : State) : State :=
  { s with status := { s.status with busy := false, done := true, errf := false }, err := none }

/-- `s` with the report of error `e` (R246): BUSY 0, DONE 1, ERRF 1, ERR its code, its bit of ERRACC set. -/
def reportError (e : ErrorKind) (s : State) : State :=
  { s with
    status := { s.status with busy := false, done := true, errf := true }
    err := some e
    errAcc := s.errAcc ||| 1#32 <<< e.code }

/-- `s` with the host's next transaction taken off its list: the transaction has a draw number of its own (log 3). -/
def taken (s : State) (rest : List HostOp) : State := { s with host := rest, draws := s.draws + 1 }

/-- The free value of a host read of an element of `width` bits, zero-extended (R16, R70; log 4). -/
def freeWord (s : State) (width : Nat) : Word := ((Config.freeRead s.draws).setWidth width).setWidth 32

/-- The width of field `f` of a node record (R43, R71): kind 1 bit, sym 8, left and right 24, w[31:0] 32, w[39:32] 8. A
field number 6 and above names no element, so all 32 bits are open (log 4). -/
def fieldWidth (f : Nat) : Nat := [1, 8, 24, 24, 32, 8].getD f 32

/-- What a command needs before it runs (R38): else it raises SequenceError. -/
def commandReady : Instr → State → Bool
  | .clr, _ => true
  | .count, _ => true
  | .seed, _ => true
  | .merge, s => decide (2 ≤ s.pq.length)
  | .build, _ => true
  | .codes, s => s.status.vTree
  | .sertree, s => s.status.vTree
  | .destree, s => s.status.vSbits
  | .pack, s => s.status.vSbits
  | .unpack, _ => true
  | .enctext, s => s.status.vCodes
  | .assemble, s => s.status.vTbits && s.status.vXbits
  | .compress, _ => true
  | .rdpad, s => s.status.vSbits
  | .dectext, s => s.status.vSbits && s.status.vTree
  | .decompress, _ => true

/-- Commands issued one after the other, stopping at the first that does not complete without error. -/
def runCommands : List Instr → State → Host.Outcome State Fault Refusal
  | [], s => .next s
  | i :: rest, s =>
    match exec i s with
    | .next t => if t.err = none then runCommands rest t else .next t
    | .fault f => .fault f
    | .refused r => .refused r

/-- The keys of the frequency table, ascending: the symbols with a non-zero count (R42). -/
def presentSymbols (freq : List (Nat × Word)) : List Byte :=
  allSymbols.filter fun b => decide (Freq.count freq b ≠ 0)

/-- The sum of all FREQ entries. -/
def freqTotal (freq : List (Nat × Word)) : Nat := (allSymbols.map fun b => (Freq.count freq b).toNat).sum

/-- The order of the queue (R130): weight first, then handle. -/
abbrev keyBelow (nodes : List Node) (a b : Nat) : Prop :=
  (nodeWeight nodes a).toNat < (nodeWeight nodes b).toNat ∨
    ((nodeWeight nodes a).toNat = (nodeWeight nodes b).toNat ∧ a < b)

/-- `codes(t)` (R151), the right-hand map winning. -/
def codesOf : CodeTree → Byte → Option Bits
  | .leaf s, b => if b = s then some [] else none
  | .node l r, b =>
    match codesOf r b with
    | some p => some (true :: p)
    | none =>
      match codesOf l b with
      | some p => some (false :: p)
      | none => none

/-- The number of text bits one byte takes: `max(CODE[s].len, 1)` (R193). -/
def pieceLength (table : List (Nat × Bits)) (b : Byte) : Nat :=
  match Code.entry table b with
  | some p => max p.length 1
  | none => 0

/-- The number of text bits of a byte sequence (R193). -/
def textLength (table : List (Nat × Bits)) (bytes : List Byte) : Nat := (bytes.map (pieceLength table)).sum

/-- An item of the abstract queue (R143): weight, sequence number, tree. -/
structure QueueItem where
  weight : Nat
  seq : Nat
  tree : CodeTree
  deriving DecidableEq, Repr

/-- The least `(w, n)` first (R143). -/
def QueueItem.below (x y : QueueItem) : Bool :=
  decide (x.weight < y.weight) || (decide (x.weight = y.weight) && decide (x.seq < y.seq))

/-- The least item of a non-empty queue, and the rest (R143). -/
def takeLeast : QueueItem → List QueueItem → QueueItem × List QueueItem
  | x, [] => (x, [])
  | x, y :: rest =>
    if y.below x then ((takeLeast y rest).1, x :: (takeLeast y rest).2)
    else ((takeLeast x rest).1, y :: (takeLeast x rest).2)

/-- Repeated merging on the abstract queue, with `n` the next sequence number (R143), at most `fuel` times. -/
def mergeItems : (fuel : Nat) → (n : Nat) → List QueueItem → List QueueItem
  | fuel + 1, n, x :: y :: rest =>
    match takeLeast x (y :: rest) with
    | (a, z :: others) =>
      mergeItems fuel (n + 1)
        ({ weight := a.weight + (takeLeast z others).1.weight, seq := n, tree := .node a.tree (takeLeast z others).1.tree }
          :: (takeLeast z others).2)
    | (a, []) => [a]
  | _, _, queue => queue

/-- The items the abstract builder starts from (R143). -/
def startItems (freq : List (Nat × Word)) : List QueueItem :=
  (presentSymbols freq).zipIdx.map fun p => { weight := (Freq.count freq p.1).toNat, seq := p.2, tree := .leaf p.1 }

/-- Every handle the arena uses as a child, once for each use. -/
def childHandles (nodes : List Node) : List Nat := nodes.flatMap Node.children

/-- The builder's arena: "children with smaller handles than its own" (R44). -/
abbrev builtArena (nodes : List Node) : Prop := ∀ p ∈ nodes.zipIdx, ∀ c ∈ p.1.children, c < p.2

/-- The deserialiser's arena: "children with larger handles than its own" (R44), all allocated. -/
abbrev readArena (nodes : List Node) : Prop :=
  ∀ p ∈ nodes.zipIdx, ∀ c ∈ p.1.children, p.2 < c ∧ c < nodes.length

/-- R44: "each handle is used as a child at most once", and handles grow or fall along every path. -/
abbrev arenaWf (nodes : List Node) : Prop := (builtArena nodes ∨ readArena nodes) ∧ (childHandles nodes).Nodup

/-- R52 (f), with what R136 and R8 derive of a queue that holds anything: the arena is the builder's, NODE_CNT + PQ_CNT
is at most 512, and the weights add up to less than 2^40. -/
abbrev queueWf (nodes : List Node) (pq : List Nat) : Prop :=
  pq.Pairwise (keyBelow nodes) ∧
  (∀ h ∈ pq, h < nodes.length ∧ h ∉ childHandles nodes) ∧
  (pq ≠ [] → builtArena nodes ∧ nodes.length + pq.length ≤ 512 ∧
    (pq.map fun h => (nodeWeight nodes h).toNat).sum < 2 ^ 40)

/-- R52 (h): no valid entry's bits are equal to, or a prefix of, another's. -/
abbrev prefixFree (table : List (Nat × Bits)) : Prop := table.Pairwise fun x y => ¬ x.2 <+: y.2 ∧ ¬ y.2 <+: x.2

/-- The invariant of the idle block: R52 (a) to (h), R30, R34, R44, the reserved bits of ERRACC (R25), and the
canonical form of the sparse memories. -/
structure State.Inv (s : State) : Prop where
  /-- The capacities keep the constraints of R7. -/
  cap : s.cap.WellFormed
  /-- A command is one transition, so no state between commands has BUSY 1 (R85). -/
  idle : s.status.busy = false
  /-- R52 (a). -/
  inLen : s.inLen.toNat ≤ s.cap.inMax
  outLen : s.out.length ≤ s.cap.outMax
  nodeCnt : s.nodes.length ≤ s.cap.nodeMax
  pqCnt : s.pq.length ≤ 256
  padCnt : s.padCnt.toNat ≤ 7
  /-- R52 (b). -/
  tbitsLen : s.tbits.length ≤ s.cap.tbitsMax
  xbitsLen : s.xbits.length ≤ s.cap.xbitsMax
  sbitsLen : s.sbits.length ≤ s.cap.sbitsMax
  sbitsAligned : s.sbits.length % 8 = 0
  /-- R52 (c). -/
  tbitsGuard : s.status.vTbits = false → s.tbits = []
  xbitsGuard : s.status.vXbits = false → s.xbits = []
  sbitsGuard : s.status.vSbits = false → s.sbits = []
  /-- R52 (d). -/
  rootGuard : s.status.vTree = false → s.root = 0
  /-- R52 (e). -/
  rootAllocated : s.status.vTree = true → s.root.toNat < s.nodes.length
  arena : arenaWf s.nodes
  /-- R52 (f). -/
  queue : queueWf s.nodes s.pq
  /-- R52 (g). -/
  errFlag : s.status.errf = s.err.isSome
  /-- R25: bit 0 and bits 31:8 of ERRACC are 0. -/
  errAccReserved : s.errAcc &&& 0xFFFFFF01#32 = 0
  /-- R52 (h) and R46: a code is at most 255 bits long. -/
  codes : s.status.vCodes = true → prefixFree s.code ∧ ∀ e ∈ s.code, e.2.length ≤ 255
  codeCells : Cells.wf s.code ∧ ∀ e ∈ s.code, e.1 < 256
  freqCells : Freq.wf s.freq
  inCells : Memory.wf s.inMem ∧ ∀ c ∈ s.inMem, c.1 < s.cap.inMax

end Sys2Proof.Machine
end

