-- ==== Sys2Proof/Certificates/Slice0/Obligations.lean ====
section
/-! DEFINITION. The statements for the provers. -/

open Sys2Proof Sys2Proof.Machine

/-- R101: the sixteen rows of the opcode map; R102: some illegal words. -/
def Obligations.TableWordsDecode : Prop :=
  decode 0x00000001 = .ok .clr ∧ decode 0x00000010 = .ok .count ∧ decode 0x00000020 = .ok .seed ∧
  decode 0x00000021 = .ok .merge ∧ decode 0x00000022 = .ok .build ∧ decode 0x00000030 = .ok .codes ∧
  decode 0x00000040 = .ok .sertree ∧ decode 0x00000041 = .ok .destree ∧ decode 0x00000050 = .ok .pack ∧
  decode 0x00000051 = .ok .unpack ∧ decode 0x00000060 = .ok .enctext ∧ decode 0x00000061 = .ok .assemble ∧
  decode 0x00000062 = .ok .compress ∧ decode 0x00000070 = .ok .rdpad ∧ decode 0x00000071 = .ok .dectext ∧
  decode 0x00000072 = .ok .decompress ∧
  decode 0x00000000 = .error (.unknownOpcode 0x00) ∧ decode 0x00000023 = .error (.unknownOpcode 0x23) ∧
  decode 0x00000122 = .error .reservedBits

/-- R101, R102: the sixteen words decode to their commands and back, and no other word decodes. -/
def Obligations.DecodeAndEncodeAgree : Prop :=
  (∀ i, decode (encode i) = .ok i) ∧
  (∀ w i, decode w = .ok i → w = encode i) ∧
  (∀ w, (∃ i, decode w = .ok i) ↔ w.extractLsb' 8 24 = 0 ∧ w.extractLsb' 0 8 ∈ implementedOps)

/-- R22: a CMD write while the block is idle stores the word and starts the command it encodes, the illegal command
where it encodes none; a read of CMD returns it; while the block is busy it is ignored; the reset value starts nothing. -/
def Obligations.CommandWriteRunsDecodedCommand : Prop :=
  (∀ (s : State) (w : Word) (rest : List HostOp),
    s.host = .write cmdAddr w :: rest → s.status.busy = false →
    (∀ i, decode w = .ok i → step s = exec i { taken s rest with cmd := w }) ∧
    (∀ e, decode w = .error e → step s = illegalCommand { taken s rest with cmd := w }) ∧
    (∀ t, step s = .next t → t.cmd = w)) ∧
  (∀ s : State, s.status.busy = false → portRead s cmdAddr = s.cmd) ∧
  (∀ (s : State) (w : Word) (rest : List HostOp),
    s.host = .write cmdAddr w :: rest → s.status.busy = true → step s = .next (taken s rest)) ∧
  (∀ c : Config.Capacities, (State.resetWith c).cmd = 0 ∧ step (State.resetWith c) = .next (State.resetWith c))

/-- R232: an illegal word does nothing but raise IllegalCommandError (code 5). -/
def Obligations.IllegalWordOnlyReportsError : Prop :=
  ∀ (s : State) (w : Word) (rest : List HostOp),
    s.host = .write cmdAddr w :: rest → s.status.busy = false →
    (w.extractLsb' 8 24 ≠ 0 ∨ w.extractLsb' 0 8 ∉ implementedOps) →
    ∃ t, step s = .next t ∧
      t = reportError .illegalCommand { taken s rest with cmd := w } ∧
      regRead t 0 = w ∧ regRead t 2 = 5 ∧ regRead t 3 = s.errAcc ||| 0x20#32 ∧
      t.status.done = true ∧ t.status.errf = true

/-- R245: a command raises SequenceError exactly when a structure it needs is not there (R38), and then, as for an
illegal word, nothing but the report changes. -/
def Obligations.SequenceErrorChangesNothing : Prop :=
  (∀ (i : Instr) (s : State), commandReady i s = false → exec i s = .next (reportError .sequence s)) ∧
  (∀ (i : Instr) (s t : State), exec i s = .next t → t.err = some .sequence → commandReady i s = false) ∧
  (∀ s : State, illegalCommand s = .next (reportError .illegalCommand s))

/-- R85, R246: a command that ends leaves BUSY 0 and DONE 1, with ERRF 1 exactly when ERR is not 0; R23: which bit of
STATUS each of these and of the validity flags is, and that bits 31:8 read 0. -/
def Obligations.EveryCommandReportsCompletion : Prop :=
  (∀ (i : Instr) (s t : State), exec i s = .next t →
    t.status.busy = false ∧ t.status.done = true ∧ (t.status.errf = true ↔ regRead t 2 ≠ 0) ∧
    t.status.errf = t.err.isSome) ∧
  (∀ s : State,
    (regRead s 1).getLsbD 0 = s.status.busy ∧ (regRead s 1).getLsbD 1 = s.status.done ∧
    (regRead s 1).getLsbD 2 = s.status.errf ∧ (regRead s 1).getLsbD 3 = s.status.vTree ∧
    (regRead s 1).getLsbD 4 = s.status.vCodes ∧ (regRead s 1).getLsbD 5 = s.status.vTbits ∧
    (regRead s 1).getLsbD 6 = s.status.vXbits ∧ (regRead s 1).getLsbD 7 = s.status.vSbits ∧
    ∀ n, 8 ≤ n → (regRead s 1).getLsbD n = false)

/-- R25: an error sets its bit of ERRACC, the bit numbered as ERR reads, which stays set until reset or CLR; the reserved
bits stay 0. R241: the codes of the seven error kinds as ERR shows them. -/
def Obligations.ErrAccAccumulatesUntilClr : Prop :=
  (∀ (i : Instr) (s t : State), exec i s = .next t →
    t.errAcc = (if i = .clr then 0 else
      match t.err with
      | none => s.errAcc
      | some e => s.errAcc ||| 1#32 <<< e.code)) ∧
  (∀ (i : Instr) (s t : State), exec i s = .next t → t.err ≠ none →
    t.errAcc = s.errAcc ||| 1#32 <<< (regRead t 2).toNat) ∧
  (∀ s : State,
    regRead { s with err := none } 2 = 0 ∧ regRead { s with err := some .emptyInput } 2 = 1 ∧
    regRead { s with err := some .malformedTree } 2 = 2 ∧ regRead { s with err := some .corruptStream } 2 = 3 ∧
    regRead { s with err := some .capacity } 2 = 4 ∧ regRead { s with err := some .illegalCommand } 2 = 5 ∧
    regRead { s with err := some .sequence } 2 = 6 ∧ regRead { s with err := some .noCode } 2 = 7) ∧
  (∀ s : State, illegalCommand s = .next (reportError .illegalCommand s)) ∧
  (∀ (s t : State), step s = .next t → s.host.head? ≠ some .reset →
    s.host.head? ≠ some (.write cmdAddr (encode .clr)) →
    ∀ n, s.errAcc.getLsbD n = true → t.errAcc.getLsbD n = true) ∧
  (∀ (s t : State), step s = .next t → s.errAcc &&& 0xFFFFFF01#32 = 0 → t.errAcc &&& 0xFFFFFF01#32 = 0) ∧
  (∀ s : State, regRead s 3 = s.errAcc) ∧ (∀ c, (State.resetWith c).errAcc = 0)

/-- R26, R40: no command writes IN or IN_LEN; CMD, the capacities and the model's own fields stay too. -/
def Obligations.NoCommandWritesInput : Prop :=
  ∀ (i : Instr) (s t : State), exec i s = .next t →
    (∀ a, Cells.read? t.inMem a = Cells.read? s.inMem a) ∧ (∀ a, t.inByte a = s.inByte a) ∧
    t.inLen = s.inLen ∧ t.cmd = s.cmd ∧ t.cap = s.cap ∧
    t.host = s.host ∧ t.rdata = s.rdata ∧ t.draws = s.draws

/-- R92: what each unit command leaves alone, for the memories it neither reads into nor writes. -/
def Obligations.CommandsKeepMemoriesOutsideTheirReach : Prop :=
  ∀ (i : Instr) (s t : State), exec i s = .next t →
    (i ∉ [.pack, .dectext, .compress, .decompress, .clr] → t.out = s.out) ∧
    (i ∉ [.count, .compress, .clr] → ∀ b, Freq.count t.freq b = Freq.count s.freq b) ∧
    (i ∉ [.seed, .merge, .build, .destree, .compress, .decompress, .clr] →
      t.nodes = s.nodes ∧ t.pq = s.pq ∧ t.root = s.root ∧ t.status.vTree = s.status.vTree) ∧
    (i ∉ [.codes, .compress, .clr] →
      t.status.vCodes = s.status.vCodes ∧ ∀ b, Code.entry t.code b = Code.entry s.code b) ∧
    (i ∉ [.sertree, .compress, .clr] → t.tbits = s.tbits ∧ t.status.vTbits = s.status.vTbits) ∧
    (i ∉ [.enctext, .compress, .clr] → t.xbits = s.xbits ∧ t.status.vXbits = s.status.vXbits) ∧
    (i ∉ [.assemble, .unpack, .compress, .decompress, .clr] → t.sbits = s.sbits ∧ t.status.vSbits = s.status.vSbits) ∧
    (i ∉ [.assemble, .unpack, .destree, .rdpad, .compress, .decompress, .clr] → t.cur = s.cur) ∧
    (i ∉ [.assemble, .rdpad, .compress, .decompress, .clr] → t.padCnt = s.padCnt)

/-- R280: from a state that keeps the invariant every command comes to a next state. -/
def Obligations.EveryCommandAnswers : Prop :=
  ∀ (i : Instr) (s : State), s.Inv → ∃ t, exec i s = .next t

/-- R120: COUNT. -/
def Obligations.CountTabulatesInput : Prop :=
  encode .count = 0x10 ∧
  ∀ s : State, ∃ t, exec .count s = .next t ∧
    (∀ b, (Freq.count t.freq b).toNat = ((List.range s.inLen.toNat).filter fun i => s.inByte i == b).length) ∧
    t = { reportDone s with freq := t.freq }

/-- R121: the counts add up to IN_LEN, are non-zero exactly for the symbols that occur, and do not overflow. -/
def Obligations.CountsAddUpToInputLength : Prop :=
  ∀ s t : State, exec .count s = .next t →
    freqTotal t.freq = s.inLen.toNat ∧
    (∀ b, 0 < (Freq.count t.freq b).toNat ↔ b ∈ inputBytes s) ∧
    (s.Inv → ∀ b, (Freq.count t.freq b).toNat < 2 ^ 29)

/-- R132: SEED on the empty table raises EmptyInputError, and no other table raises any error. -/
def Obligations.SeedRaisesOnlyOnEmptyTable : Prop :=
  (∀ s : State, (∀ b, Freq.count s.freq b = 0) →
    exec .seed s = .next (reportError .emptyInput
      { s with status := { s.status with vTree := false }, root := 0, nodes := [], pq := [] })) ∧
  (∀ (s : State) (b : Byte), Freq.count s.freq b ≠ 0 → ∃ t, exec .seed s = .next t ∧ t.err = none)

/-- R131: SEED makes one leaf per symbol present, in ascending order, and queues them by key; with none it raises
EmptyInputError after its first line. -/
def Obligations.SeedMakesLeavesAndQueue : Prop :=
  encode .seed = 0x20 ∧
  (∀ s : State, presentSymbols s.freq = [] → exec .seed s = .next (reportError .emptyInput
    { s with status := { s.status with vTree := false }, root := 0, nodes := [], pq := [] })) ∧
  ∀ s : State, presentSymbols s.freq ≠ [] → ∃ t, exec .seed s = .next t ∧
    t.nodes = (presentSymbols s.freq).map (fun b => .leaf b ((Freq.count s.freq b).setWidth 40)) ∧
    t.pq.Perm (List.range t.nodes.length) ∧
    t.pq.Pairwise (keyBelow t.nodes) ∧
    t = { reportDone s with
      nodes := t.nodes
      pq := t.pq
      root := 0
      status := { (reportDone s).status with vTree := decide (t.nodes.length = 1) } }

/-- R135: MERGE takes the two least nodes and queues their parent. -/
def Obligations.MergeJoinsTwoLeastNodes : Prop :=
  encode .merge = 0x21 ∧
  (∀ s : State, s.pq.length < 2 → exec .merge s = .next (reportError .sequence s)) ∧
  ∀ (s : State) (a b : Nat) (rest : List Nat), s.Inv → s.pq = a :: b :: rest →
    ∃ t w, exec .merge s = .next t ∧
      t.nodes = s.nodes ++ [.internal a b w] ∧
      w.toNat = (nodeWeight s.nodes a).toNat + (nodeWeight s.nodes b).toNat ∧
      t.pq.Perm (s.nodes.length :: rest) ∧
      t.pq.Pairwise (keyBelow t.nodes) ∧
      (rest = [] → t.pq = [s.nodes.length] ∧ t.root = BitVec.ofNat 32 s.nodes.length ∧ t.status.vTree = true) ∧
      (rest ≠ [] → t.root = s.root ∧ t.status.vTree = s.status.vTree) ∧
      t = { reportDone s with
        nodes := t.nodes
        pq := t.pq
        root := t.root
        status := { (reportDone s).status with vTree := t.status.vTree } }

/-- R140: BUILD is SEED, then MERGE until one node is queued, in every state. -/
def Obligations.BuildEqualsSeedThenMerges : Prop :=
  encode .build = 0x22 ∧
  ∀ s : State,
    runCommands (.seed :: List.replicate ((presentSymbols s.freq).length - 1) .merge) s = exec .build s

/-- R138: what k-1 merges after a SEED of k leaves leave, and that the next MERGE is refused. -/
def Obligations.MergesAfterSeedCompleteTheTree : Prop :=
  ∀ (s : State) (k : Nat), (presentSymbols s.freq).length = k → 2 ≤ k →
    ∃ t, runCommands (.seed :: List.replicate (k - 1) .merge) s = .next t ∧ t.err = none ∧
      t.nodes.length = 2 * k - 1 ∧ t.pq = [2 * k - 2] ∧ t.root = BitVec.ofNat 32 (2 * k - 2) ∧
      t.status.vTree = true ∧
      (nodeWeight t.nodes (2 * k - 2)).toNat = freqTotal s.freq ∧
      (∃ tree, t.tree? = some tree ∧ tree.leaves = k ∧ tree.nodes = 2 * k - 1 ∧
        tree.symbols.Perm (presentSymbols s.freq)) ∧
      exec .merge t = .next (reportError .sequence t)

/-- R132, R134, R141: what BUILD does on no symbol, on one and on more, and what it leaves alone. -/
def Obligations.BuildLeavesValidTree : Prop :=
  (∀ s : State, (∀ b, Freq.count s.freq b = 0) →
    exec .build s = .next (reportError .emptyInput
      { s with status := { s.status with vTree := false }, root := 0, nodes := [], pq := [] })) ∧
  (∀ (s : State) (b : Byte), presentSymbols s.freq = [b] →
    exec .build s = .next { reportDone s with
      nodes := [.leaf b ((Freq.count s.freq b).setWidth 40)]
      pq := [0]
      root := 0
      status := { (reportDone s).status with vTree := true } }) ∧
  (∀ s : State, presentSymbols s.freq ≠ [] → ∃ t, exec .build s = .next t ∧
    (∃ tree, t.tree? = some tree ∧ tree.symbols.Perm (presentSymbols s.freq)) ∧
    t = { reportDone s with
      nodes := t.nodes
      pq := t.pq
      root := t.root
      status := { (reportDone s).status with vTree := true } })

/-- R143: the tree BUILD makes is the tree of repeated merging on the abstract queue, and an item's sequence number is
its node's handle. -/
def Obligations.BuildRefinesAbstractMerging : Prop :=
  ∀ s : State, presentSymbols s.freq ≠ [] →
    ∃ t item, exec .build s = .next t ∧
      mergeItems (presentSymbols s.freq).length (presentSymbols s.freq).length (startItems s.freq) = [item] ∧
      t.tree? = some item.tree ∧ t.root.toNat = item.seq ∧
      (nodeWeight t.nodes item.seq).toNat = item.weight

/-- R151: after a successful CODES the table is `codes(T(ROOT))`. -/
def Obligations.CodesTabulatesTheTree : Prop :=
  encode .codes = 0x30 ∧
  ∀ s : State, s.Inv → s.status.vTree = true → ∃ tree, s.tree? = some tree ∧
    (tree.depth ≤ 255 → ∃ t, exec .codes s = .next t ∧
      (∀ b, Code.entry t.code b = codesOf tree b) ∧
      t = { reportDone s with code := t.code, status := { (reportDone s).status with vCodes := true } })

/-- R152: the errors of CODES; a built tree is never too deep. That the table is held as the empty list once every entry
is unspecified is the model's choice (log 6). -/
def Obligations.CodesErrors : Prop :=
  (∀ s : State, s.status.vTree = false → exec .codes s = .next (reportError .sequence s)) ∧
  (∀ (s : State) (tree : CodeTree), s.status.vTree = true → s.tree? = some tree → 255 < tree.depth →
    exec .codes s = .next (reportError .capacity
      { s with code := [], status := { s.status with vCodes := false } })) ∧
  (∀ s t : State, runCommands [.build, .codes] s = .next t → t.err ≠ some .capacity)

/-- R155: a code table is prefix-free, and complete when no symbol repeats and the tree has two or more leaves. -/
def Obligations.CodesArePrefixFreeAndComplete : Prop :=
  (∀ s t : State, exec .codes s = .next t → t.err = none →
    ∀ a b p q, a ≠ b → Code.entry t.code a = some p → Code.entry t.code b = some q → ¬ p <+: q) ∧
  (∀ (s t : State) (tree : CodeTree), exec .codes s = .next t → t.err = none → s.tree? = some tree →
    tree.symbols.Nodup → 2 ≤ tree.leaves →
    (allSymbols.map fun b =>
      match Code.entry t.code b with
      | some p => 2 ^ (255 - p.length)
      | none => 0).sum = 2 ^ 255)

/-- R161, R162: SERTREE writes `ser(T(ROOT))`, which always fits. -/
def Obligations.SertreeSerialisesTheTree : Prop :=
  encode .sertree = 0x40 ∧
  (∀ s : State, s.status.vTree = false → exec .sertree s = .next (reportError .sequence s)) ∧
  ∀ s : State, s.Inv → s.status.vTree = true → ∃ tree t, s.tree? = some tree ∧ exec .sertree s = .next t ∧
    t.tbits = tree.ser ∧ t.tbits.length = 10 * tree.leaves - 1 ∧
    t.tbits.length ≤ 5 * (s.nodes.length + 1) - 1 ∧ 5 * (s.nodes.length + 1) - 1 ≤ s.cap.tbitsMax ∧
    t = { reportDone s with tbits := t.tbits, status := { (reportDone s).status with vTbits := true } }

/-- R108: the length of a serialised tree, and that it delimits itself. -/
def Obligations.SerialisedTreeDelimitsItself : Prop :=
  (∀ t : CodeTree, t.ser.length = 10 * t.leaves - 1 ∧ t.nodes = 2 * t.leaves - 1 ∧ 9 ≤ t.ser.length) ∧
  (∀ t u : CodeTree, t.ser <+: u.ser → t = u) ∧
  (∀ b : Byte, (CodeTree.leaf b).ser.length = 9) ∧
  (∀ t : CodeTree, t.leaves = 256 → t.ser.length = 2559)

/-- R160: reading a tree and serialising it are inverse, whatever bits follow. -/
def Obligations.ReadTreeInvertsSerialisation : Prop :=
  (∀ (t : CodeTree) (rest : Bits) (room : Nat), t.nodes ≤ room →
    readTree room (t.ser ++ rest) = .ok (t, rest, t.nodes)) ∧
  (∀ (room : Nat) (b rest : Bits) (t : CodeTree) (n : Nat), readTree room b = .ok (t, rest, n) →
    b = t.ser ++ rest ∧ n = t.nodes ∧ n ≤ room)

/-- R165, R166: DESTREE reads the tree at the cursor into the arena, in pre-order from handle 0, every weight 0, and
empties the queue, so that a MERGE after it raises SequenceError. -/
def Obligations.DestreeReadsTreeAtCursor : Prop :=
  encode .destree = 0x41 ∧
  ∀ (s : State) (tree : CodeTree) (rest : Bits), s.Inv → s.status.vSbits = true →
    s.streamFromCur = tree.ser ++ rest → tree.nodes ≤ s.cap.nodeMax →
    ∃ t, exec .destree s = .next t ∧
      t.tree? = some tree ∧ t.root = 0 ∧ t.nodes.length = tree.nodes ∧ t.pq = [] ∧
      t.cur.toNat = s.cur.toNat + tree.ser.length ∧
      (∀ n ∈ t.nodes, n.weight = 0) ∧
      (∀ h l r w, t.nodes[h]? = some (.internal l r w) →
        l = h + 1 ∧ ∃ left, treeAt t.nodes t.nodes.length l = some left ∧ r = h + 1 + left.nodes) ∧
      exec .merge t = .next (reportError .sequence t) ∧
      t = { reportDone s with
        nodes := t.nodes
        pq := []
        root := 0
        cur := t.cur
        status := { (reportDone s).status with vTree := true } }

/-- R167, R168: what DESTREE raises on bits that hold no tree, or too large a tree, and what it leaves. -/
def Obligations.DestreeErrors : Prop :=
  ∀ s : State, s.status.vSbits = true →
    let after := fun e => reportError e
      { s with status := { s.status with vTree := false }, root := 0, nodes := [], pq := [] }
    ((∀ (tree : CodeTree) (rest : Bits), s.streamFromCur ≠ tree.ser ++ rest) →
      (exec .destree s = .next (after .malformedTree) ∨
        exec .destree s = .next (after .capacity) ∧ s.cap.nodeMax < s.streamFromCur.length)) ∧
    (∀ (tree : CodeTree) (rest : Bits), s.streamFromCur = tree.ser ++ rest → s.cap.nodeMax < tree.nodes →
      exec .destree s = .next (after .capacity)) ∧
    (∀ n, s.streamFromCur = List.replicate n false →
      exec .destree s = .next (after (if n ≤ s.cap.nodeMax then .malformedTree else .capacity)))

/-- R180, R181: PACK turns the stream bits into bytes, the first bit the most significant, or raises CapacityError. -/
def Obligations.PackMakesBytesOfStream : Prop :=
  encode .pack = 0x50 ∧
  (∀ s : State, s.status.vSbits = false → exec .pack s = .next (reportError .sequence s)) ∧
  (∀ s : State, s.status.vSbits = true → s.sbits.length / 8 ≤ s.cap.outMax →
    ∃ t, exec .pack s = .next t ∧ t.out.length = s.sbits.length / 8 ∧
      (∀ j i, j < t.out.length → i < 8 →
        (t.out.getD j 0).getLsbD (7 - i) = s.sbits.getD (8 * j + i) false) ∧
      t = { reportDone s with out := t.out }) ∧
  (∀ s : State, s.status.vSbits = true → s.cap.outMax < s.sbits.length / 8 →
    exec .pack s = .next (reportError .capacity { s with out := [] }))

/-- R184, R185: UNPACK turns the input bytes into stream bits, never with an error, and the bits always fit. -/
def Obligations.UnpackMakesStreamOfInput : Prop :=
  encode .unpack = 0x51 ∧
  ∀ s : State, ∃ t, exec .unpack s = .next t ∧ t.err = none ∧
    t.sbits.length = 8 * s.inLen.toNat ∧
    (∀ j i, j < s.inLen.toNat → i < 8 → t.sbits.getD (8 * j + i) false = (s.inByte j).getLsbD (7 - i)) ∧
    (s.Inv → t.sbits.length ≤ s.cap.sbitsMax) ∧
    t = { reportDone s with
      sbits := t.sbits
      cur := 0
      status := { (reportDone s).status with vSbits := true } }

/-- R182, R186: UNPACK then PACK copies IN to OUT, and unpacking packed bits of whole bytes gives the bits back. -/
def Obligations.PackAndUnpackAreInverse : Prop :=
  (∀ s : State, s.inLen.toNat ≤ s.cap.outMax →
    ∃ t, runCommands [.unpack, .pack] s = .next t ∧ t.err = none ∧ t.out = inputBytes s) ∧
  (∀ b : Bits, b.length % 8 = 0 → unpackBytes (packBits b) = b)

/-- R190, R193: ENCTEXT concatenates the codes of the input bytes, one 0 bit for an empty code. -/
def Obligations.EnctextConcatenatesCodes : Prop :=
  encode .enctext = 0x60 ∧
  ∀ s : State, s.status.vCodes = true → (∀ b ∈ inputBytes s, (Code.entry s.code b).isSome = true) →
    textLength s.code (inputBytes s) ≤ s.cap.xbitsMax →
    ∃ t, exec .enctext s = .next t ∧
      t.xbits = (inputBytes s).flatMap (fun b =>
        match Code.entry s.code b with
        | some (x :: code) => x :: code
        | _ => [false]) ∧
      t.xbits.length = textLength s.code (inputBytes s) ∧
      t = { reportDone s with xbits := t.xbits, status := { (reportDone s).status with vXbits := true } }

/-- R192: the errors of ENCTEXT, in the order checked; NoCodeError cannot happen inside COMPRESS. -/
def Obligations.EnctextErrors : Prop :=
  (∀ s : State, s.status.vCodes = false → exec .enctext s = .next (reportError .sequence s)) ∧
  (∀ (s : State) (before after : List Byte) (b : Byte), s.status.vCodes = true →
    inputBytes s = before ++ b :: after → (∀ c ∈ before, (Code.entry s.code c).isSome = true) →
    textLength s.code before ≤ s.cap.xbitsMax →
    (Code.entry s.code b = none →
      exec .enctext s = .next (reportError .noCode
        { s with xbits := [], status := { s.status with vXbits := false } })) ∧
    ((Code.entry s.code b).isSome = true → s.cap.xbitsMax < textLength s.code before + pieceLength s.code b →
      exec .enctext s = .next (reportError .capacity
        { s with xbits := [], status := { s.status with vXbits := false } }))) ∧
  (∀ s t : State, exec .compress s = .next t → t.err ≠ some .noCode)

/-- R195, R196, R197: ASSEMBLE computes the pad count and builds a stream of whole bytes, or raises CapacityError. -/
def Obligations.AssembleBuildsPaddedStream : Prop :=
  encode .assemble = 0x61 ∧
  (∀ s : State, s.status.vTbits = false ∨ s.status.vXbits = false →
    exec .assemble s = .next (reportError .sequence s)) ∧
  ∀ s : State, s.status.vTbits = true → s.status.vXbits = true → ∃ p n : Nat,
    p = (8 - (s.tbits.length + 8 + s.xbits.length) % 8) % 8 ∧ n = s.tbits.length + 8 + p + s.xbits.length ∧
    p ≤ 7 ∧ n % 8 = 0 ∧
    (n ≤ s.cap.sbitsMax → ∃ t, exec .assemble s = .next t ∧ t.sbits.length = n ∧
      t = { reportDone s with
        sbits := s.tbits ++ bits8 (BitVec.ofNat 8 p) ++ List.replicate p false ++ s.xbits
        padCnt := BitVec.ofNat 32 p
        cur := 0
        status := { (reportDone s).status with vSbits := true } }) ∧
    (s.cap.sbitsMax < n → exec .assemble s = .next (reportError .capacity
      { s with sbits := [], cur := 0, status := { s.status with vSbits := false } }))

/-- R210: RDPAD reads the field at the cursor and moves the cursor past the field and the padding, whatever the padding
bits are. -/
def Obligations.RdpadSkipsFieldAndPadding : Prop :=
  encode .rdpad = 0x70 ∧
  ∀ (s : State) (p : Nat) (padding rest : Bits), s.Inv → s.status.vSbits = true →
    s.streamFromCur = bits8 (BitVec.ofNat 8 p) ++ padding ++ rest → p ≤ 7 → padding.length = p →
    ∃ t, exec .rdpad s = .next t ∧ t.padCnt.toNat = p ∧ t.cur.toNat = s.cur.toNat + 8 + p ∧
      t.streamFromCur = rest ∧
      t = { reportDone s with padCnt := t.padCnt, cur := t.cur }

/-- R211: the errors of RDPAD; after any of them nothing but the report has changed. -/
def Obligations.RdpadErrors : Prop :=
  ∀ s : State,
    (s.status.vSbits = false → exec .rdpad s = .next (reportError .sequence s)) ∧
    (s.status.vSbits = true → s.sbits.length < s.cur.toNat + 8 →
      exec .rdpad s = .next (reportError .corruptStream s)) ∧
    (∀ (field : Byte) (rest : Bits), s.status.vSbits = true → s.streamFromCur = bits8 field ++ rest →
      (7 < field.toNat ∨ rest.length < field.toNat) →
      exec .rdpad s = .next (reportError .corruptStream s))

/-- R214, R215: under a tree of two or more leaves, text bits that are a row of root-to-leaf paths decode to their
leaves' symbols. -/
def Obligations.DectextDecodesLeafPaths : Prop :=
  encode .dectext = 0x71 ∧
  ∀ (s : State) (l r : CodeTree) (row : List (Bits × Byte)),
    s.status.vSbits = true → s.status.vTree = true → s.cur.toNat ≤ s.sbits.length →
    s.tree? = some (.node l r) → (∀ p ∈ row, p ∈ (CodeTree.node l r).paths) →
    s.streamFromCur = row.flatMap Prod.fst → row.length ≤ s.cap.outMax →
    exec .dectext s = .next { reportDone s with out := row.map Prod.snd }

/-- R216: under a single-leaf root each 0 bit is one occurrence of the symbol, and a 1 bit is a CorruptStreamError. -/
def Obligations.DectextUnderLeafRoot : Prop :=
  ∀ (s : State) (b : Byte) (n : Nat),
    s.status.vSbits = true → s.status.vTree = true → s.cur.toNat ≤ s.sbits.length → s.tree? = some (.leaf b) →
    (s.streamFromCur = List.replicate n false → n ≤ s.cap.outMax →
      exec .dectext s = .next { reportDone s with out := List.replicate n b }) ∧
    (∀ rest, s.streamFromCur = List.replicate n false ++ true :: rest → n ≤ s.cap.outMax →
      exec .dectext s = .next (reportError .corruptStream { s with out := [] })) ∧
    (∀ rest, s.streamFromCur = List.replicate n false ++ rest → s.cap.outMax < n →
      exec .dectext s = .next (reportError .capacity { s with out := [] }))

/-- R217: the errors of DECTEXT on a tree of two or more leaves; after (2), (3) and (4) OUT_LEN is 0. -/
def Obligations.DectextErrors : Prop :=
  ∀ s : State,
    (s.status.vSbits = false ∨ s.status.vTree = false → exec .dectext s = .next (reportError .sequence s)) ∧
    (s.status.vSbits = true → s.status.vTree = true → s.sbits.length < s.cur.toNat →
      exec .dectext s = .next (reportError .corruptStream { s with out := [] })) ∧
    (∀ (l r : CodeTree) (row : List (Bits × Byte)) (tail : Bits),
      s.status.vSbits = true → s.status.vTree = true → s.tree? = some (.node l r) →
      (∀ p ∈ row, p ∈ (CodeTree.node l r).paths) → s.streamFromCur = row.flatMap Prod.fst ++ tail →
      ((∃ p ∈ (CodeTree.node l r).paths, p.1 <+: tail) → row.length = s.cap.outMax →
        exec .dectext s = .next (reportError .capacity { s with out := [] })) ∧
      (tail ≠ [] → (∀ p ∈ (CodeTree.node l r).paths, ¬ p.1 <+: tail) → row.length ≤ s.cap.outMax →
        exec .dectext s = .next (reportError .corruptStream { s with out := [] })))

/-- R230, R231: CLR, and CLR right after reset. That a memory whose contents are unspecified is held as an empty list is
the model's choice (log 6). -/
def Obligations.ClrReturnsToResetKeepingInput : Prop :=
  encode .clr = 0x01 ∧
  (∀ s : State, ∃ t, exec .clr s = .next t ∧
    t = { State.resetWith s.cap with
      cmd := s.cmd
      status := { Status.zero with done := true }
      inLen := s.inLen
      inMem := s.inMem
      host := s.host
      rdata := s.rdata
      draws := s.draws } ∧
    regRead t 1 = 0x00000002#32 ∧ regRead t 2 = 0 ∧ (∀ b, Freq.count t.freq b = 0)) ∧
  (∀ c : Config.Capacities, ∃ t, step (withCommandWord (State.resetWith c) 0x00000001) = .next t ∧
    t = { State.resetWith c with
      cmd := 0x00000001
      status := { Status.zero with done := true }
      draws := (State.resetWith c).draws + 1 })

/-- R201 (1), R247: COMPRESS of an empty input. That CODE, unspecified while V_CODES is 0, is held as an empty list is the
model's choice (log 6). -/
def Obligations.CompressRefusesEmptyInput : Prop :=
  ∀ s : State, s.inLen = 0 →
    exec .compress s = .next (reportError .emptyInput
      { s with
        status := { s.status with vTree := false, vCodes := false, vTbits := false, vXbits := false, vSbits := false }
        root := 0
        nodes := []
        pq := []
        code := []
        freq := []
        tbits := []
        xbits := []
        sbits := []
        out := []
        cur := 0 })

/-- R201: COMPRESS completes from every state; on a non-empty input it raises nothing but CapacityError, with no output. -/
def Obligations.CompressErrors : Prop :=
  ∀ s : State, s.inLen ≠ 0 → ∃ t, exec .compress s = .next t ∧
    (t.err = none ∨ (t.err = some .capacity ∧ t.out = []))

/-- R109, R112, R200: where the capacities are large enough COMPRESS raises nothing, OUT unpacks to the four parts of the
stream, and nothing outside its write set has changed. -/
def Obligations.CompressMakesTheEncodedStream : Prop :=
  encode .compress = 0x62 ∧
  ∀ s : State, s.inLen ≠ 0 → 255 * s.inLen.toNat ≤ s.cap.xbitsMax → 255 * s.inLen.toNat + 2574 ≤ s.cap.sbitsMax →
    255 * s.inLen.toNat + 2574 ≤ 8 * s.cap.outMax →
    ∃ t tree p, exec .compress s = .next t ∧ t.tree? = some tree ∧ p ≤ 7 ∧
      unpackBytes t.out = tree.ser ++ bits8 (BitVec.ofNat 8 p) ++ List.replicate p false ++
        (inputBytes s).flatMap (fun b =>
          match codesOf tree b with
          | some (x :: code) => x :: code
          | _ => [false]) ∧
      t = { reportDone s with
        freq := t.freq
        nodes := t.nodes
        pq := t.pq
        root := t.root
        code := t.code
        tbits := tree.ser
        xbits := t.xbits
        sbits := unpackBytes t.out
        out := t.out
        cur := 0
        padCnt := BitVec.ofNat 32 p
        status := { busy := false, done := true, errf := false, vTree := true, vCodes := true, vTbits := true,
                    vXbits := true, vSbits := true } }

/-- R200, R273: a COMPRESS that succeeds leaves exactly the state the unit commands leave one by one. -/
def Obligations.CompressEqualsItsStages : Prop :=
  ∀ s t : State, exec .compress s = .next t → t.err = none →
    runCommands [.count, .build, .codes, .enctext, .sertree, .assemble, .pack] s = .next t

/-- R203: the state after a successful COMPRESS. -/
def Obligations.CompressResult : Prop :=
  ∀ (s t : State) (k : Nat), exec .compress s = .next t → t.err = none →
    (allSymbols.filter fun b => (inputBytes s).contains b).length = k →
    (∀ b, (Freq.count t.freq b).toNat = (inputBytes s).count b) ∧
    t.nodes.length = 2 * k - 1 ∧ t.pq.length = 1 ∧ t.root = BitVec.ofNat 32 (2 * k - 2) ∧
    t.status = { busy := false, done := true, errf := false, vTree := true, vCodes := true, vTbits := true,
                 vXbits := true, vSbits := true } ∧
    t.tbits.length = 10 * k - 1 ∧
    t.xbits.length = (allSymbols.map fun b => (Freq.count t.freq b).toNat * pieceLength t.code b).sum ∧
    t.padCnt.toNat = (8 - (t.tbits.length + 8 + t.xbits.length) % 8) % 8 ∧
    t.sbits.length = 10 * k - 1 + 8 + t.padCnt.toNat + t.xbits.length ∧
    t.out.length = t.sbits.length / 8 ∧ t.cur = 0

/-- R202: COMPRESS uses nothing from earlier commands but IN and IN_LEN. Bytes the host has not written are the model's
free values (log 3), so the hypothesis is that the two input sequences agree. -/
def Obligations.CompressDependsOnInputAlone : Prop :=
  ∀ s₁ s₂ t₁ t₂ : State, s₁.cap = s₂.cap → inputBytes s₁ = inputBytes s₂ →
    exec .compress s₁ = .next t₁ → exec .compress s₂ = .next t₂ →
    t₁.err = t₂.err ∧ t₁.out = t₂.out ∧ t₁.freq = t₂.freq ∧ t₁.nodes = t₂.nodes ∧ t₁.pq = t₂.pq ∧
    t₁.root = t₂.root ∧ t₁.code = t₂.code ∧ t₁.tbits = t₂.tbits ∧ t₁.xbits = t₂.xbits ∧ t₁.sbits = t₂.sbits ∧
    t₁.cur = t₂.cur ∧ t₁.status = t₂.status

/-- R220: a DECOMPRESS that succeeds leaves exactly the state the unit commands leave one by one. -/
def Obligations.DecompressEqualsItsStages : Prop :=
  ∀ s t : State, exec .decompress s = .next t → t.err = none →
    runCommands [.unpack, .destree, .rdpad, .dectext] s = .next t

/-- R221: DECOMPRESS completes from every state; the errors it can raise and what is left after one. -/
def Obligations.DecompressErrors : Prop :=
  ∀ s : State, ∃ t, exec .decompress s = .next t ∧
    (t.err = none ∨ t.err = some .malformedTree ∨ t.err = some .capacity ∨ t.err = some .corruptStream) ∧
    (s.inLen = 0 → t.err = some .malformedTree) ∧
    (t.err ≠ none → t.out = [] ∧ t.status.vSbits = true ∧ t.sbits = unpackBytes (inputBytes s)) ∧
    (t.err = some .malformedTree → t.status.vTree = false ∧ t.cur = 0) ∧
    (t.err = some .corruptStream → t.status.vTree = true)

/-- R222: DECOMPRESS of a tree, a pad-count field, padding and text that decodes, and the state it leaves. -/
def Obligations.DecompressResult : Prop :=
  encode .decompress = 0x72 ∧
  ∀ (s : State) (tree : CodeTree) (p : Nat) (padding text : Bits) (out : List Byte),
    s.cap.WellFormed → s.inLen.toNat ≤ s.cap.inMax →
    unpackBytes (inputBytes s) = tree.ser ++ (bits8 (BitVec.ofNat 8 p) ++ (padding ++ text)) →
    p ≤ 7 → padding.length = p → tree.nodes ≤ s.cap.nodeMax → decodeText tree s.cap.outMax text = .ok out →
    ∃ t, exec .decompress s = .next t ∧
      t.out = out ∧ t.sbits = unpackBytes (inputBytes s) ∧ t.nodes.length = tree.nodes ∧ t.root = 0 ∧ t.pq = [] ∧
      t.tree? = some tree ∧ (∀ n ∈ t.nodes, n.weight = 0) ∧ t.padCnt.toNat = p ∧
      t.cur.toNat = 5 * (tree.nodes + 1) - 1 + 8 + p ∧
      t = { reportDone s with
        sbits := t.sbits
        nodes := t.nodes
        pq := []
        root := 0
        cur := t.cur
        padCnt := t.padCnt
        out := out
        status := { (reportDone s).status with vTree := true, vSbits := true } }

/-- R206: what COMPRESS makes, DECOMPRESS turns back into the input, in any state whose IN holds it. -/
def Obligations.CompressedInputDecompressesToItself : Prop :=
  ∀ s t s' : State, s.cap.WellFormed → exec .compress s = .next t → t.err = none →
    s'.cap = s.cap → t.out.length ≤ s.cap.inMax → s'.inLen.toNat = t.out.length →
    (∀ i, i < t.out.length → Cells.read? s'.inMem i = t.out[i]?) → s.inLen.toNat ≤ s.cap.outMax →
    ∃ u, exec .decompress s' = .next u ∧ u.err = none ∧ u.out = inputBytes s

/-- R224: a compressed stream without its last byte raises an error or decodes to a proper prefix of the input. -/
def Obligations.TruncatedStreamGivesErrorOrProperPrefix : Prop :=
  ∀ s t s' : State, s.cap.WellFormed → exec .compress s = .next t → t.err = none →
    s'.cap = s.cap → t.out.length ≤ s.cap.inMax → s'.inLen.toNat = t.out.length - 1 →
    (∀ i, i < t.out.length - 1 → Cells.read? s'.inMem i = t.out[i]?) →
    ∃ u, exec .decompress s' = .next u ∧
      (u.err ≠ none ∨ (u.out <+: inputBytes s ∧ u.out.length < (inputBytes s).length))

/-- R60: the state after reset, as the host reads it, for every choice of capacities and every value of the draw
counter: every register 0, every FREQ entry 0, every other memory a free value of its element's width. The form of the
free values, and the width where no element is named, are the model's (log 3, log 4). -/
def Obligations.ResetClearsRegistersAndCounts : Prop :=
  ∀ (c : Config.Capacities) (d : Nat) (index : Word),
    let s : State := { State.resetWith c with draws := d }
    (∀ n, regRead s n = 0) ∧ (∀ b, Freq.count s.freq b = 0) ∧
    s.status = { busy := false, done := false, errf := false, vTree := false, vCodes := false,
                 vTbits := false, vXbits := false, vSbits := false } ∧
    portRead s (portAddr 1 index) =
      (if index.toNat < c.inMax then (Config.freeInByte d index.toNat).setWidth 32 else freeWord s 8) ∧
    portRead s (portAddr 2 index) = freeWord s 8 ∧
    portRead s (portAddr 4 index) = freeWord s 1 ∧
    portRead s (portAddr 5 index) = freeWord s 9 ∧
    portRead s (portAddr 6 index) = freeWord s (fieldWidth (index.toNat / 2 ^ 24)) ∧
    portRead s (portAddr 7 index) = freeWord s 1 ∧
    portRead s (portAddr 8 index) = freeWord s 1 ∧
    portRead s (portAddr 9 index) = freeWord s 1 ∧
    portRead s (portAddr 10 index) = freeWord s 24 ∧
    (∀ space : BitVec 4, 11 ≤ space.toNat → portRead s (portAddr space index) = freeWord s 32)

/-- R52: the invariant holds after reset, for every choice of capacities that keeps R7. -/
def Obligations.ResetHasInvariant : Prop :=
  (∀ c : Config.Capacities, c.WellFormed → (State.resetWith c).Inv) ∧ State.reset.Inv

/-- R52: every step keeps the invariant, whatever the host does. -/
def Obligations.EveryStepKeepsInvariant : Prop :=
  ∀ s t : State, s.Inv → step s = .next t → t.Inv

/-- R34: the bit buffers are empty while their flags are 0 and SBITS is a whole number of bytes, after reset and after
every step; XBITS and SBITS may be valid and empty. -/
def Obligations.BufferLengthsFollowFlags : Prop :=
  let guarded := fun s : State =>
    (s.status.vTbits = false → s.tbits = []) ∧ (s.status.vXbits = false → s.xbits = []) ∧
    (s.status.vSbits = false → s.sbits = []) ∧ s.sbits.length % 8 = 0
  (∀ c, guarded (State.resetWith c)) ∧
  (∀ s t : State, guarded s → step s = .next t → guarded t) ∧
  (∀ s : State, s.inLen = 0 → ∃ t, exec .unpack s = .next t ∧ t.status.vSbits = true ∧ t.sbits = []) ∧
  (∀ s : State, s.inLen = 0 → s.status.vCodes = true →
    ∃ t, exec .enctext s = .next t ∧ t.status.vXbits = true ∧ t.xbits = [])

/-- R270: reset at any time leaves the reset state. That the host's remaining transactions and the draw counter stay is
the model's choice (log 2, log 3). -/
def Obligations.ResetInputGivesResetState : Prop :=
  ∀ (s : State) (rest : List HostOp), s.host = .reset :: rest →
    step s = .next { State.resetWith s.cap with host := rest, draws := s.draws + 1 }

/-- R74: a read changes no state of the block. -/
def Obligations.HostReadsHaveNoSideEffect : Prop :=
  ∀ (s : State) (a : PortAddr) (rest : List HostOp), s.host = .read a :: rest →
    ∃ v, step s = .next { taken s rest with rdata := some v } ∧ v = portRead (taken s rest) a

/-- R21, R26, R40, R74, R76: a write while the block is idle changes the element written and no other. -/
def Obligations.HostWritesChangeOneElement : Prop :=
  ∀ (s : State) (space : BitVec 4) (index v : Word) (rest : List HostOp),
    s.host = .write (portAddr space index) v :: rest → s.status.busy = false →
    portAddr space index ≠ cmdAddr →
    ∃ t, step s = .next t ∧
      t = { taken s rest with inMem := t.inMem, inLen := t.inLen, cur := t.cur, freq := t.freq } ∧
      (∀ i, Cells.read? t.inMem i =
        if space = 1 ∧ i = index.toNat ∧ i < s.cap.inMax then some (v.setWidth 8) else Cells.read? s.inMem i) ∧
      t.inLen = (if space = 0 ∧ index = 4 ∧ v.toNat ≤ s.cap.inMax then v else s.inLen) ∧
      t.cur = (if space = 0 ∧ index = 6 then v else s.cur) ∧
      (s.Inv → ∀ b : Byte, Freq.count t.freq b =
        if space = 3 ∧ index.toNat = b.toNat then v else Freq.count s.freq b)

/-- R86: while BUSY is 1 every write is ignored and a STATUS read shows BUSY = 1. No run of the model reaches such a
state, since a command is one step (log 2). -/
def Obligations.BusyBlockIgnoresWrites : Prop :=
  (∀ (s : State) (a : PortAddr) (v : Word) (rest : List HostOp),
    s.host = .write a v :: rest → s.status.busy = true → step s = .next (taken s rest)) ∧
  (∀ s : State, s.status.busy = true → (portRead s (portAddr 0 1)).getLsbD 0 = true)

/-- R71, R72: what the host reads while the block is idle: each register of R21, the bytes of IN it has written, and the
elements of every memory the block holds, with the fields R43 fixes at 0. The bits of STATUS and the codes of ERR are in
EveryCommandReportsCompletion and ErrAccAccumulatesUntilClr. -/
def Obligations.HostReadsShowTheState : Prop :=
  ∀ s : State, s.Inv →
    (∀ n : Word, portRead s (portAddr 0 n) = regRead s n.toNat) ∧
    (regRead s 0 = s.cmd ∧ regRead s 3 = s.errAcc ∧ regRead s 4 = s.inLen ∧ (regRead s 5).toNat = s.out.length ∧
      regRead s 6 = s.cur ∧ regRead s 7 = s.root ∧ (regRead s 8).toNat = s.nodes.length ∧
      (regRead s 9).toNat = s.pq.length ∧ regRead s 10 = s.padCnt ∧ (regRead s 11).toNat = s.tbits.length ∧
      (regRead s 12).toNat = s.xbits.length ∧ (regRead s 13).toNat = s.sbits.length ∧
      ∀ n, 14 ≤ n → regRead s n = 0) ∧
    (∀ i b, Cells.read? s.inMem i = some b → portRead s (portAddr 1 (BitVec.ofNat 32 i)) = b.setWidth 32) ∧
    (∀ i b, s.out[i]? = some b → portRead s (portAddr 2 (BitVec.ofNat 32 i)) = b.setWidth 32) ∧
    (∀ b : Byte, portRead s (portAddr 3 (b.setWidth 32)) = Freq.count s.freq b) ∧
    (∀ h n, s.nodes[h]? = some n →
      (portRead s (portAddr 6 (BitVec.ofNat 32 (4 * 2 ^ 24 + h)))).toNat +
        2 ^ 32 * (portRead s (portAddr 6 (BitVec.ofNat 32 (5 * 2 ^ 24 + h)))).toNat = n.weight.toNat) ∧
    (∀ h l r w, s.nodes[h]? = some (.internal l r w) →
      portRead s (portAddr 6 (BitVec.ofNat 32 h)) = 0 ∧
      portRead s (portAddr 6 (BitVec.ofNat 32 (2 ^ 24 + h))) = 0 ∧
      (portRead s (portAddr 6 (BitVec.ofNat 32 (2 * 2 ^ 24 + h)))).toNat = l ∧
      (portRead s (portAddr 6 (BitVec.ofNat 32 (3 * 2 ^ 24 + h)))).toNat = r) ∧
    (∀ h b w, s.nodes[h]? = some (.leaf b w) →
      portRead s (portAddr 6 (BitVec.ofNat 32 h)) = 1 ∧
      portRead s (portAddr 6 (BitVec.ofNat 32 (2 ^ 24 + h))) = b.setWidth 32 ∧
      portRead s (portAddr 6 (BitVec.ofNat 32 (2 * 2 ^ 24 + h))) = 0 ∧
      portRead s (portAddr 6 (BitVec.ofNat 32 (3 * 2 ^ 24 + h))) = 0) ∧
    (∀ i d, s.tbits[i]? = some d → portRead s (portAddr 7 (BitVec.ofNat 32 i)) = if d then 1 else 0) ∧
    (∀ i d, s.xbits[i]? = some d → portRead s (portAddr 8 (BitVec.ofNat 32 i)) = if d then 1 else 0) ∧
    (∀ i d, s.sbits[i]? = some d → portRead s (portAddr 9 (BitVec.ofNat 32 i)) = if d then 1 else 0) ∧
    (∀ i h, s.pq[i]? = some h → (portRead s (portAddr 10 (BitVec.ofNat 32 i))).toNat = h) ∧
    (s.status.vCodes = true → ∀ (b : Byte) (p : Bits), Code.entry s.code b = some p →
      portRead s (portAddr 5 (b.setWidth 32)) = 0x100#32 ||| BitVec.ofNat 32 p.length ∧
      ∀ j d, p[j]? = some d →
        portRead s (portAddr 4 (BitVec.ofNat 32 (256 * b.toNat + j))) = if d then 1 else 0)

/-- R73, R16, R86 and the memory rules R40 to R49: where the spec calls the value a host read returns unspecified, it is a
free value of the element's width, in every state. The form of the free values, and the width where no element is named,
are the model's (log 3, log 4); no run reaches a state with BUSY 1 (log 8). -/
def Obligations.UnspecifiedReadsAreFree : Prop :=
  (∀ (s : State) (index : Word), s.status.busy = false →
    (index.toNat < s.cap.inMax → Cells.read? s.inMem index.toNat = none →
      portRead s (portAddr 1 index) = (Config.freeInByte s.draws index.toNat).setWidth 32) ∧
    (s.cap.inMax ≤ index.toNat → portRead s (portAddr 1 index) = freeWord s 8) ∧
    (s.out.length ≤ index.toNat → portRead s (portAddr 2 index) = freeWord s 8) ∧
    (256 ≤ index.toNat → portRead s (portAddr 3 index) = freeWord s 32) ∧
    (s.status.vCodes = false ∨ 65536 ≤ index.toNat → portRead s (portAddr 4 index) = freeWord s 1) ∧
    (s.status.vCodes = false ∨ 256 ≤ index.toNat → portRead s (portAddr 5 index) = freeWord s 9) ∧
    (s.nodes.length ≤ index.toNat % 2 ^ 24 ∨ 6 ≤ index.toNat / 2 ^ 24 →
      portRead s (portAddr 6 index) = freeWord s (fieldWidth (index.toNat / 2 ^ 24))) ∧
    (s.tbits.length ≤ index.toNat → portRead s (portAddr 7 index) = freeWord s 1) ∧
    (s.xbits.length ≤ index.toNat → portRead s (portAddr 8 index) = freeWord s 1) ∧
    (s.sbits.length ≤ index.toNat → portRead s (portAddr 9 index) = freeWord s 1) ∧
    (s.pq.length ≤ index.toNat → portRead s (portAddr 10 index) = freeWord s 24) ∧
    (∀ space : BitVec 4, 11 ≤ space.toNat → portRead s (portAddr space index) = freeWord s 32)) ∧
  (∀ (s : State) (b : Byte), s.status.busy = false → s.status.vCodes = true →
    (Code.entry s.code b = none →
      portRead s (portAddr 5 (b.setWidth 32)) = freeWord s 8 ∧
      ∀ j, j < 256 → portRead s (portAddr 4 (BitVec.ofNat 32 (256 * b.toNat + j))) = freeWord s 1) ∧
    (∀ p, Code.entry s.code b = some p → ∀ j, p.length ≤ j → j < 256 →
      portRead s (portAddr 4 (BitVec.ofNat 32 (256 * b.toNat + j))) = freeWord s 1)) ∧
  (∀ (s : State) (a : PortAddr), s.status.busy = true →
    portRead s a = if a = portAddr 0 1 then freeWord s 32 ||| 1 else freeWord s 32)
end

