-- ==== Sys2Proof/Laws/Bits.lean ====
section
/-! SUPPORT. The byte and bit forms of R11 are inverse, and what PACK and UNPACK do to a list. -/

namespace Sys2Proof.Machine

@[simp] theorem bits8_length (v : Byte) : (bits8 v).length = 8 := by simp [bits8]

/-- Bit `i` in stream order is bit `7-i` of the byte (R11). -/
theorem bits8_getElem (v : Byte) (i : Nat) (h : i < (bits8 v).length) : (bits8 v)[i] = v.getLsbD (7 - i) := by
  simp [bits8]

/-- `val8` is the inverse of `bits8` (R11). -/
@[simp] theorem val8_bits8 (v : Byte) : val8 (bits8 v) = v := by
  revert v
  decide +kernel

/-- A list of eight bits, written out. -/
theorem exists_of_length_eight {b : Bits} (h : b.length = 8) :
    ∃ b₀ b₁ b₂ b₃ b₄ b₅ b₆ b₇, b = [b₀, b₁, b₂, b₃, b₄, b₅, b₆, b₇] := by
  match b, h with
  | [b₀, b₁, b₂, b₃, b₄, b₅, b₆, b₇], _ => exact ⟨b₀, b₁, b₂, b₃, b₄, b₅, b₆, b₇, rfl⟩

/-- `bits8` is the inverse of `val8` on eight bits (R11). -/
theorem bits8_val8 {b : Bits} (h : b.length = 8) : bits8 (val8 b) = b := by
  obtain ⟨b₀, b₁, b₂, b₃, b₄, b₅, b₆, b₇, rfl⟩ := exists_of_length_eight h
  revert b₀ b₁ b₂ b₃ b₄ b₅ b₆ b₇
  decide +kernel

/-- Two bytes with the same bits are equal. -/
theorem bits8_injective {v w : Byte} (h : bits8 v = bits8 w) : v = w := by
  rw [← val8_bits8 v, h, val8_bits8]

@[simp] theorem unpackBytes_nil : unpackBytes [] = [] := rfl

@[simp] theorem unpackBytes_cons (b : Byte) (rest : List Byte) :
    unpackBytes (b :: rest) = bits8 b ++ unpackBytes rest := rfl

@[simp] theorem unpackBytes_append (a b : List Byte) : unpackBytes (a ++ b) = unpackBytes a ++ unpackBytes b :=
  List.flatMap_append

@[simp] theorem unpackBytes_length (bytes : List Byte) : (unpackBytes bytes).length = 8 * bytes.length := by
  induction bytes with
  | nil => rfl
  | cons b rest ih => simp only [unpackBytes_cons, List.length_append, bits8_length, ih, List.length_cons]; omega

@[simp] theorem packBits_length (b : Bits) : (packBits b).length = b.length / 8 := by simp [packBits]

@[simp] theorem packBits_nil : packBits [] = [] := rfl

/-- Packing takes eight bits at a time. -/
theorem packBits_append {a : Bits} (h : a.length = 8) (b : Bits) : packBits (a ++ b) = val8 a :: packBits b := by
  have hdiv : (a ++ b).length / 8 = b.length / 8 + 1 := by
    rw [List.length_append, h]
    omega
  simp only [packBits, hdiv, List.range_succ_eq_map, List.map_cons, List.map_map]
  congr 1
  · simp [List.take_append_of_le_length (Nat.le_of_eq h.symm), List.take_of_length_le (Nat.le_of_eq h)]
  · refine List.map_congr_left fun j _ => ?_
    have hj : (a ++ b).drop (8 * (j + 1)) = b.drop (8 * j) := by
      rw [show 8 * (j + 1) = a.length + 8 * j by omega, ← List.drop_drop, List.drop_left]
    simp only [Function.comp_apply, Nat.succ_eq_add_one, hj]

/-- The piece of a code is never empty (R191). -/
theorem piece_length (code : Bits) : (piece code).length = max code.length 1 := by
  cases code <;> simp [piece]

/-- The pad count is at most 7 (R196). -/
theorem padCount_le (a b : Nat) : padCount a b ≤ 7 := by unfold padCount; omega

/-- The pad count makes the stream a whole number of bytes (R196). -/
theorem padCount_aligns (a b : Nat) : (a + 8 + padCount a b + b) % 8 = 0 := by unfold padCount; omega

@[simp] theorem assembleStream_length (tree text : Bits) :
    (assembleStream tree text).length = tree.length + 8 + padCount tree.length text.length + text.length := by
  simp only [assembleStream, List.length_append, bits8_length, List.length_replicate]

end Sys2Proof.Machine
end

