-- ==== Sys2Proof/Laws/Cells.lean ====
section
/-! SUPPORT. The laws of the sparse memories: read after write and erase, and that every operation keeps the canonical
form. -/

namespace Sys2Proof.Machine

variable {α : Type}

/-- A read after a write: the index written reads the value written, every other index as before. -/
theorem Cells.read?_write (m : List (Nat × α)) (i j : Nat) (x : α) :
    Cells.read? (Cells.write m i x) j = if i = j then some x else Cells.read? m j := by
  induction m with
  | nil => simp [Cells.write, Cells.read?]
  | cons cell rest ih =>
    obtain ⟨k, v⟩ := cell
    simp only [Cells.write]
    split
    · simp [Cells.read?]
    · split
      · rename_i h
        subst h
        by_cases hj : i = j <;> simp [Cells.read?, hj]
      · rename_i hne
        simp only [Cells.read?, ih]
        split <;> split <;> simp_all

/-- The indexes of a written memory are the old ones and the index written. -/
theorem Cells.mem_write {m : List (Nat × α)} {i : Nat} {x : α} {c : Nat × α} (h : c ∈ Cells.write m i x) :
    c = (i, x) ∨ c ∈ m := by
  induction m with
  | nil => simpa [Cells.write] using h
  | cons cell rest ih =>
    obtain ⟨k, v⟩ := cell
    simp only [Cells.write] at h
    split at h
    · simpa using h
    · split at h
      · rcases List.mem_cons.mp h with h | h
        · exact .inl h
        · exact .inr (List.mem_cons_of_mem _ h)
      · rcases List.mem_cons.mp h with h | h
        · exact .inr (by simp [h])
        · exact (ih h).imp id (List.mem_cons_of_mem _)

/-- What an erased memory lists, it listed before. -/
theorem Cells.erase_sublist (m : List (Nat × α)) (i : Nat) : (Cells.erase m i).Sublist m := by
  induction m with
  | nil => simp [Cells.erase]
  | cons cell rest ih =>
    obtain ⟨k, v⟩ := cell
    simp only [Cells.erase]
    split
    · exact List.sublist_cons_self _ _
    · exact ih.cons_cons _

/-- A write keeps the canonical form. -/
theorem Cells.wf_write {m : List (Nat × α)} (h : Cells.wf m) (i : Nat) (x : α) : Cells.wf (Cells.write m i x) := by
  induction m with
  | nil => simp [Cells.wf, Cells.write]
  | cons cell rest ih =>
    obtain ⟨k, v⟩ := cell
    simp only [Cells.wf, List.map_cons, List.pairwise_cons] at h
    simp only [Cells.write]
    split
    · rename_i hlt
      simp only [Cells.wf, List.map_cons, List.pairwise_cons]
      refine ⟨?_, h⟩
      intro a ha
      rcases List.mem_cons.mp ha with rfl | ha
      · exact hlt
      · exact Nat.lt_trans hlt (h.1 a ha)
    · split
      · rename_i heq
        subst heq
        simpa [Cells.wf] using h
      · rename_i hnlt hne
        simp only [Cells.wf, List.map_cons, List.pairwise_cons]
        refine ⟨?_, ih h.2⟩
        intro a ha
        obtain ⟨c, hc, rfl⟩ := List.mem_map.mp ha
        rcases Cells.mem_write hc with rfl | hc
        · change k < i
          omega
        · exact h.1 _ (List.mem_map_of_mem hc)

/-- An erase keeps the canonical form. -/
theorem Cells.wf_erase {m : List (Nat × α)} (h : Cells.wf m) (i : Nat) : Cells.wf (Cells.erase m i) :=
  h.sublist ((Cells.erase_sublist m i).map _)

/-- An index below every listed one reads nothing. -/
theorem Cells.read?_eq_none_of_lt {m : List (Nat × α)} {i : Nat} (h : ∀ c ∈ m, i < c.1) : Cells.read? m i = none := by
  induction m with
  | nil => rfl
  | cons cell rest ih =>
    obtain ⟨k, v⟩ := cell
    have hk : i < k := h _ List.mem_cons_self
    simp only [Cells.read?]
    rw [if_neg (by omega)]
    exact ih fun c hc => h c (List.mem_cons_of_mem _ hc)

/-- A read after an erase of a canonical memory: the index erased reads nothing, every other index as before. -/
theorem Cells.read?_erase {m : List (Nat × α)} (h : Cells.wf m) (i j : Nat) :
    Cells.read? (Cells.erase m i) j = if i = j then none else Cells.read? m j := by
  induction m with
  | nil => simp [Cells.erase, Cells.read?]
  | cons cell rest ih =>
    obtain ⟨k, v⟩ := cell
    simp only [Cells.wf, List.map_cons, List.pairwise_cons] at h
    have hbelow : ∀ c ∈ rest, k < c.1 := fun c hc => h.1 _ (List.mem_map_of_mem hc)
    simp only [Cells.erase]
    split
    · rename_i hk
      subst hk
      by_cases hj : k = j
      · subst hj
        simpa [Cells.read?] using Cells.read?_eq_none_of_lt hbelow
      · simp [Cells.read?, hj]
    · rename_i hne
      simp only [Cells.read?, ih h.2]
      split <;> split <;> simp_all

/-- A canonical memory reads exactly what it lists. -/
theorem Cells.read?_eq_some_iff {m : List (Nat × α)} (h : Cells.wf m) (i : Nat) (x : α) :
    Cells.read? m i = some x ↔ (i, x) ∈ m := by
  induction m with
  | nil => simp [Cells.read?]
  | cons cell rest ih =>
    obtain ⟨k, v⟩ := cell
    simp only [Cells.wf, List.map_cons, List.pairwise_cons] at h
    simp only [Cells.read?, List.mem_cons, Prod.mk.injEq]
    split
    · rename_i hk
      subst hk
      constructor
      · rintro ⟨rfl⟩
        exact .inl ⟨rfl, rfl⟩
      · rintro (⟨-, rfl⟩ | hm)
        · rfl
        · exact absurd (h.1 k (List.mem_map.mpr ⟨_, hm, rfl⟩)) (Nat.lt_irrefl k)
    · rename_i hne
      rw [ih h.2]
      constructor
      · exact .inr
      · rintro (⟨hik, -⟩ | hm)
        · exact absurd hik.symm hne
        · exact hm

/-- Canonical memories that read alike are equal. -/
theorem Cells.ext {m n : List (Nat × α)} (hm : Cells.wf m) (hn : Cells.wf n)
    (h : ∀ i, Cells.read? m i = Cells.read? n i) : m = n := by
  have hmem : ∀ c : Nat × α, c ∈ m ↔ c ∈ n := fun c => by
    rw [← Cells.read?_eq_some_iff hm c.1 c.2, ← Cells.read?_eq_some_iff hn c.1 c.2, h]
  have key : ∀ {l : List (Nat × α)}, Cells.wf l → l.Pairwise fun a b => a.1 < b.1 := fun hl =>
    List.pairwise_map.mp hl
  have nodup : ∀ {l : List (Nat × α)}, Cells.wf l → l.Nodup := fun hl =>
    (key hl).imp fun hab he => absurd (congrArg Prod.fst he) (Nat.ne_of_lt hab)
  refine List.Perm.eq_of_pairwise (le := fun a b => a.1 < b.1) ?_ (key hm) (key hn)
    ((List.perm_ext_iff_of_nodup (nodup hm) (nodup hn)).mpr hmem)
  intro a b _ _ hab hba
  omega

/-- A FREQ entry after a write of canonical FREQ: the symbol written has the count written, every other its own. -/
theorem Freq.count_set {f : List (Nat × Word)} (h : Cells.wf f) (s b : Byte) (c : Word) :
    Freq.count (Freq.set f s c) b = if s = b then c else Freq.count f b := by
  have hsb : (s.toNat = b.toNat) ↔ s = b := ⟨BitVec.eq_of_toNat_eq, congrArg _⟩
  unfold Freq.count Freq.set
  split
  · rename_i hc
    rw [Cells.read?_erase h]
    by_cases hb : s = b <;> simp [hsb, hb, hc]
  · rw [Cells.read?_write]
    by_cases hb : s = b <;> simp [hsb, hb]

/-- A write keeps the canonical form of FREQ. -/
theorem Freq.wf_set {f : List (Nat × Word)} (h : Freq.wf f) (s : Byte) (c : Word) : Freq.wf (Freq.set f s c) := by
  unfold Freq.set
  split
  · exact ⟨Cells.wf_erase h.1 _, fun x hx => h.2 x ((Cells.erase_sublist f _).subset hx)⟩
  · rename_i hc
    refine ⟨Cells.wf_write h.1 _ _, fun x hx => ?_⟩
    rcases Cells.mem_write hx with rfl | hx
    · exact ⟨s.isLt, hc⟩
    · exact h.2 x hx

/-- No entry of FREQ: every count is 0. -/
@[simp] theorem Freq.count_nil (b : Byte) : Freq.count [] b = 0 := rfl

/-- An entry of CODE after a record of a symbol: "a later record for the same symbol replaces an earlier one". -/
theorem Code.entry_set (c : List (Nat × Bits)) (s b : Byte) (p : Bits) :
    Code.entry (Code.set c s p) b = if s = b then some p else Code.entry c b := by
  have hsb : (s.toNat = b.toNat) ↔ s = b := ⟨BitVec.eq_of_toNat_eq, congrArg _⟩
  simp only [Code.entry, Code.set, Cells.read?_write, hsb]

/-- Every symbol is listed in `allSymbols`. -/
theorem mem_allSymbols (b : Byte) : b ∈ allSymbols :=
  List.mem_map.mpr ⟨b.toNat, List.mem_range.mpr b.isLt, by simp⟩

end Sys2Proof.Machine
end

