-- ==== Sys2Proof/Laws/State.lean ====
section
/-! SUPPORT. What each named update of the state does to each field, so that no proof unfolds an update. -/

namespace Sys2Proof.Machine

/-- Every field after `startCommand` (R85). -/
@[simp] theorem startCommand_fields (s : State) :
    (startCommand s).cap = s.cap ∧ (startCommand s).cmd = s.cmd ∧
    (startCommand s).status = { s.status with busy := true, done := false, errf := false } ∧
    (startCommand s).err = none ∧ (startCommand s).errAcc = s.errAcc ∧ (startCommand s).inLen = s.inLen ∧
    (startCommand s).cur = s.cur ∧ (startCommand s).root = s.root ∧ (startCommand s).padCnt = s.padCnt ∧
    (startCommand s).inMem = s.inMem ∧ (startCommand s).out = s.out ∧ (startCommand s).freq = s.freq ∧
    (startCommand s).nodes = s.nodes ∧ (startCommand s).pq = s.pq ∧ (startCommand s).code = s.code ∧
    (startCommand s).tbits = s.tbits ∧ (startCommand s).xbits = s.xbits ∧ (startCommand s).sbits = s.sbits ∧
    (startCommand s).host = s.host ∧ (startCommand s).rdata = s.rdata ∧ (startCommand s).draws = s.draws :=
  ⟨rfl, rfl, rfl, rfl, rfl, rfl, rfl, rfl, rfl, rfl, rfl, rfl, rfl, rfl, rfl, rfl, rfl, rfl, rfl, rfl, rfl⟩

/-- Every field after `completeCommand` (R85). -/
@[simp] theorem completeCommand_fields (s : State) :
    (completeCommand s).cap = s.cap ∧ (completeCommand s).cmd = s.cmd ∧
    (completeCommand s).status = { s.status with busy := false, done := true } ∧ (completeCommand s).err = s.err ∧
    (completeCommand s).errAcc = s.errAcc ∧ (completeCommand s).inLen = s.inLen ∧ (completeCommand s).cur = s.cur ∧
    (completeCommand s).root = s.root ∧ (completeCommand s).padCnt = s.padCnt ∧ (completeCommand s).inMem = s.inMem ∧
    (completeCommand s).out = s.out ∧ (completeCommand s).freq = s.freq ∧ (completeCommand s).nodes = s.nodes ∧
    (completeCommand s).pq = s.pq ∧ (completeCommand s).code = s.code ∧ (completeCommand s).tbits = s.tbits ∧
    (completeCommand s).xbits = s.xbits ∧ (completeCommand s).sbits = s.sbits ∧ (completeCommand s).host = s.host ∧
    (completeCommand s).rdata = s.rdata ∧ (completeCommand s).draws = s.draws :=
  ⟨rfl, rfl, rfl, rfl, rfl, rfl, rfl, rfl, rfl, rfl, rfl, rfl, rfl, rfl, rfl, rfl, rfl, rfl, rfl, rfl, rfl⟩

/-- Every field after `takeError` (R246). -/
@[simp] theorem takeError_fields (e : ErrorKind) (s : State) :
    (takeError e s).cap = s.cap ∧ (takeError e s).cmd = s.cmd ∧
    (takeError e s).status = { s.status with busy := false, done := true, errf := true } ∧
    (takeError e s).err = some e ∧ (takeError e s).errAcc = s.errAcc ||| e.accBit ∧ (takeError e s).inLen = s.inLen ∧
    (takeError e s).cur = s.cur ∧ (takeError e s).root = s.root ∧ (takeError e s).padCnt = s.padCnt ∧
    (takeError e s).inMem = s.inMem ∧ (takeError e s).out = s.out ∧ (takeError e s).freq = s.freq ∧
    (takeError e s).nodes = s.nodes ∧ (takeError e s).pq = s.pq ∧ (takeError e s).code = s.code ∧
    (takeError e s).tbits = s.tbits ∧ (takeError e s).xbits = s.xbits ∧ (takeError e s).sbits = s.sbits ∧
    (takeError e s).host = s.host ∧ (takeError e s).rdata = s.rdata ∧ (takeError e s).draws = s.draws :=
  ⟨rfl, rfl, rfl, rfl, rfl, rfl, rfl, rfl, rfl, rfl, rfl, rfl, rfl, rfl, rfl, rfl, rfl, rfl, rfl, rfl, rfl⟩

/-- Every field after `dropTree` (R131, R165). -/
@[simp] theorem dropTree_fields (s : State) :
    (dropTree s).cap = s.cap ∧ (dropTree s).cmd = s.cmd ∧ (dropTree s).status = { s.status with vTree := false } ∧
    (dropTree s).err = s.err ∧ (dropTree s).errAcc = s.errAcc ∧ (dropTree s).inLen = s.inLen ∧
    (dropTree s).cur = s.cur ∧ (dropTree s).root = 0 ∧ (dropTree s).padCnt = s.padCnt ∧
    (dropTree s).inMem = s.inMem ∧ (dropTree s).out = s.out ∧ (dropTree s).freq = s.freq ∧ (dropTree s).nodes = [] ∧
    (dropTree s).pq = [] ∧ (dropTree s).code = s.code ∧ (dropTree s).tbits = s.tbits ∧ (dropTree s).xbits = s.xbits ∧
    (dropTree s).sbits = s.sbits ∧ (dropTree s).host = s.host ∧ (dropTree s).rdata = s.rdata ∧
    (dropTree s).draws = s.draws :=
  ⟨rfl, rfl, rfl, rfl, rfl, rfl, rfl, rfl, rfl, rfl, rfl, rfl, rfl, rfl, rfl, rfl, rfl, rfl, rfl, rfl, rfl⟩

/-- Every field after `compressStart` (R200). -/
@[simp] theorem compressStart_fields (s : State) :
    (compressStart s).cap = s.cap ∧ (compressStart s).cmd = s.cmd ∧ (compressStart s).status = s.status.clearValid ∧
    (compressStart s).err = s.err ∧ (compressStart s).errAcc = s.errAcc ∧ (compressStart s).inLen = s.inLen ∧
    (compressStart s).cur = 0 ∧ (compressStart s).root = 0 ∧ (compressStart s).padCnt = s.padCnt ∧
    (compressStart s).inMem = s.inMem ∧ (compressStart s).out = [] ∧ (compressStart s).freq = s.freq ∧
    (compressStart s).nodes = [] ∧ (compressStart s).pq = [] ∧ (compressStart s).code = [] ∧
    (compressStart s).tbits = [] ∧ (compressStart s).xbits = [] ∧ (compressStart s).sbits = [] ∧
    (compressStart s).host = s.host ∧ (compressStart s).rdata = s.rdata ∧ (compressStart s).draws = s.draws :=
  ⟨rfl, rfl, rfl, rfl, rfl, rfl, rfl, rfl, rfl, rfl, rfl, rfl, rfl, rfl, rfl, rfl, rfl, rfl, rfl, rfl, rfl⟩

/-- Every field after `decompressStart` (R220). -/
@[simp] theorem decompressStart_fields (s : State) :
    (decompressStart s).cap = s.cap ∧ (decompressStart s).cmd = s.cmd ∧
    (decompressStart s).status = { s.status with vSbits := false, vTree := false } ∧
    (decompressStart s).err = s.err ∧ (decompressStart s).errAcc = s.errAcc ∧ (decompressStart s).inLen = s.inLen ∧
    (decompressStart s).cur = 0 ∧ (decompressStart s).root = 0 ∧ (decompressStart s).padCnt = s.padCnt ∧
    (decompressStart s).inMem = s.inMem ∧ (decompressStart s).out = [] ∧ (decompressStart s).freq = s.freq ∧
    (decompressStart s).nodes = [] ∧ (decompressStart s).pq = [] ∧ (decompressStart s).code = s.code ∧
    (decompressStart s).tbits = s.tbits ∧ (decompressStart s).xbits = s.xbits ∧ (decompressStart s).sbits = [] ∧
    (decompressStart s).host = s.host ∧ (decompressStart s).rdata = s.rdata ∧ (decompressStart s).draws = s.draws :=
  ⟨rfl, rfl, rfl, rfl, rfl, rfl, rfl, rfl, rfl, rfl, rfl, rfl, rfl, rfl, rfl, rfl, rfl, rfl, rfl, rfl, rfl⟩

/-- Every field after `reportDone` (R85). -/
@[simp] theorem reportDone_fields (s : State) :
    (reportDone s).cap = s.cap ∧ (reportDone s).cmd = s.cmd ∧
    (reportDone s).status = { s.status with busy := false, done := true, errf := false } ∧
    (reportDone s).err = none ∧ (reportDone s).errAcc = s.errAcc ∧ (reportDone s).inLen = s.inLen ∧
    (reportDone s).cur = s.cur ∧ (reportDone s).root = s.root ∧ (reportDone s).padCnt = s.padCnt ∧
    (reportDone s).inMem = s.inMem ∧ (reportDone s).out = s.out ∧ (reportDone s).freq = s.freq ∧
    (reportDone s).nodes = s.nodes ∧ (reportDone s).pq = s.pq ∧ (reportDone s).code = s.code ∧
    (reportDone s).tbits = s.tbits ∧ (reportDone s).xbits = s.xbits ∧ (reportDone s).sbits = s.sbits ∧
    (reportDone s).host = s.host ∧ (reportDone s).rdata = s.rdata ∧ (reportDone s).draws = s.draws :=
  ⟨rfl, rfl, rfl, rfl, rfl, rfl, rfl, rfl, rfl, rfl, rfl, rfl, rfl, rfl, rfl, rfl, rfl, rfl, rfl, rfl, rfl⟩

/-- Every field after `reportError` (R246). -/
@[simp] theorem reportError_fields (e : ErrorKind) (s : State) :
    (reportError e s).cap = s.cap ∧ (reportError e s).cmd = s.cmd ∧
    (reportError e s).status = { s.status with busy := false, done := true, errf := true } ∧
    (reportError e s).err = some e ∧ (reportError e s).errAcc = s.errAcc ||| 1#32 <<< e.code ∧
    (reportError e s).inLen = s.inLen ∧ (reportError e s).cur = s.cur ∧ (reportError e s).root = s.root ∧
    (reportError e s).padCnt = s.padCnt ∧ (reportError e s).inMem = s.inMem ∧ (reportError e s).out = s.out ∧
    (reportError e s).freq = s.freq ∧ (reportError e s).nodes = s.nodes ∧ (reportError e s).pq = s.pq ∧
    (reportError e s).code = s.code ∧ (reportError e s).tbits = s.tbits ∧ (reportError e s).xbits = s.xbits ∧
    (reportError e s).sbits = s.sbits ∧ (reportError e s).host = s.host ∧ (reportError e s).rdata = s.rdata ∧
    (reportError e s).draws = s.draws :=
  ⟨rfl, rfl, rfl, rfl, rfl, rfl, rfl, rfl, rfl, rfl, rfl, rfl, rfl, rfl, rfl, rfl, rfl, rfl, rfl, rfl, rfl⟩

/-- Every field after `taken` (R87). -/
@[simp] theorem taken_fields (s : State) (rest : List HostOp) :
    (taken s rest).cap = s.cap ∧ (taken s rest).cmd = s.cmd ∧ (taken s rest).status = s.status ∧
    (taken s rest).err = s.err ∧ (taken s rest).errAcc = s.errAcc ∧ (taken s rest).inLen = s.inLen ∧
    (taken s rest).cur = s.cur ∧ (taken s rest).root = s.root ∧ (taken s rest).padCnt = s.padCnt ∧
    (taken s rest).inMem = s.inMem ∧ (taken s rest).out = s.out ∧ (taken s rest).freq = s.freq ∧
    (taken s rest).nodes = s.nodes ∧ (taken s rest).pq = s.pq ∧ (taken s rest).code = s.code ∧
    (taken s rest).tbits = s.tbits ∧ (taken s rest).xbits = s.xbits ∧ (taken s rest).sbits = s.sbits ∧
    (taken s rest).host = rest ∧ (taken s rest).rdata = s.rdata ∧ (taken s rest).draws = s.draws + 1 :=
  ⟨rfl, rfl, rfl, rfl, rfl, rfl, rfl, rfl, rfl, rfl, rfl, rfl, rfl, rfl, rfl, rfl, rfl, rfl, rfl, rfl, rfl⟩

/-- The five validity flags after they are all cleared, and the other three kept. -/
@[simp] theorem clearValid_fields (f : Status) :
    f.clearValid.busy = f.busy ∧ f.clearValid.done = f.done ∧ f.clearValid.errf = f.errf ∧ f.clearValid.vTree = false ∧
    f.clearValid.vCodes = false ∧ f.clearValid.vTbits = false ∧ f.clearValid.vXbits = false ∧
    f.clearValid.vSbits = false :=
  ⟨rfl, rfl, rfl, rfl, rfl, rfl, rfl, rfl⟩

/-- Starting and completing a command is the report of a command without error. -/
theorem completeCommand_startCommand (s : State) : completeCommand (startCommand s) = reportDone s := rfl

/-- Starting a command and taking an error is the report of that error. -/
theorem takeError_startCommand (e : ErrorKind) (s : State) : takeError e (startCommand s) = reportError e s := rfl

/-- What an input byte is depends on IN and on the transaction's draw number alone. -/
theorem inByte_congr {s t : State} (hm : t.inMem = s.inMem) (hd : t.draws = s.draws) (i : Nat) :
    t.inByte i = s.inByte i := by
  simp only [State.inByte, hm, hd]

/-- The input byte sequence depends on IN, IN_LEN and the transaction's draw number alone. -/
theorem inputBytes_congr {s t : State} (hm : t.inMem = s.inMem) (hd : t.draws = s.draws) (hl : t.inLen = s.inLen) :
    inputBytes t = inputBytes s := by
  simp only [inputBytes, hl]
  exact List.map_congr_left fun i _ => inByte_congr hm hd i

/-- The input byte sequence has IN_LEN bytes. -/
@[simp] theorem inputBytes_length (s : State) : (inputBytes s).length = s.inLen.toNat := by simp [inputBytes]

/-- Starting a command leaves the input byte sequence as it is. -/
@[simp] theorem inputBytes_startCommand (s : State) : inputBytes (startCommand s) = inputBytes s :=
  inputBytes_congr rfl rfl rfl

/-- Starting a command leaves the tree as it is. -/
@[simp] theorem tree?_startCommand (s : State) : (startCommand s).tree? = s.tree? := rfl

end Sys2Proof.Machine
end

