-- ==== Sys2Proof/Laws/Command.lean ====
section
/-! SUPPORT. What running a command and chaining stages can come to, said once (R85, R200, R246). -/

namespace Sys2Proof.Machine

/-- A command answers a next state exactly when its body completes or raises an error. -/
theorem runCommand_eq_next_iff {body : State → StageResult} {s t : State} :
    runCommand body s = .next t ↔
      (∃ u, body (startCommand s) = .done u ∧ t = completeCommand u) ∨
      (∃ e u, body (startCommand s) = .raised e u ∧ t = takeError e u) := by
  unfold runCommand
  split <;> simp_all [eq_comm]

/-- A command faults exactly when its body is stuck. -/
theorem runCommand_eq_fault_iff {body : State → StageResult} {s : State} {f : Fault} :
    runCommand body s = .fault f ↔ body (startCommand s) = .stuck f := by
  unfold runCommand
  split <;> simp_all

/-- A command with a meaning is never refused. -/
theorem runCommand_ne_refused (body : State → StageResult) (s : State) (r : Refusal) :
    runCommand body s ≠ .refused r := by
  unfold runCommand
  split <;> simp

/-- A command whose body completes answers next. -/
theorem runCommand_of_done {body : State → StageResult} {s u : State} (h : body (startCommand s) = .done u) :
    runCommand body s = .next (completeCommand u) := by simp only [runCommand, h]

/-- A command whose body raises an error answers next. -/
theorem runCommand_of_raised {body : State → StageResult} {s u : State} {e : ErrorKind}
    (h : body (startCommand s) = .raised e u) : runCommand body s = .next (takeError e u) := by
  simp only [runCommand, h]

@[simp] theorem andThen_done (s : State) (next : State → StageResult) : (StageResult.done s).andThen next = next s := rfl

@[simp] theorem andThen_raised (e : ErrorKind) (s : State) (next : State → StageResult) :
    (StageResult.raised e s).andThen next = .raised e s := rfl

@[simp] theorem andThen_stuck (f : Fault) (next : State → StageResult) :
    (StageResult.stuck f).andThen next = .stuck f := rfl

/-- A chain completes exactly when both parts do. -/
theorem andThen_eq_done_iff {r : StageResult} {next : State → StageResult} {t : State} :
    r.andThen next = .done t ↔ ∃ s, r = .done s ∧ next s = .done t := by
  cases r <;> simp

/-- A chain raises an error exactly when its first part does, or completes and the second part does. -/
theorem andThen_eq_raised_iff {r : StageResult} {next : State → StageResult} {e : ErrorKind} {t : State} :
    r.andThen next = .raised e t ↔ r = .raised e t ∨ ∃ s, r = .done s ∧ next s = .raised e t := by
  cases r <;> simp

/-- A chain is stuck exactly when its first part is, or completes and the second part is. -/
theorem andThen_eq_stuck_iff {r : StageResult} {next : State → StageResult} {f : Fault} :
    r.andThen next = .stuck f ↔ r = .stuck f ∨ ∃ s, r = .done s ∧ next s = .stuck f := by
  cases r <;> simp

/-- Chaining is associative. -/
theorem andThen_assoc (r : StageResult) (f g : State → StageResult) :
    (r.andThen f).andThen g = r.andThen fun s => (f s).andThen g := by
  cases r <;> rfl

/-- A property holds of the state a stage leaves, whether it completes or raises an error. -/
def StageResult.Leaves (r : StageResult) (p : State → Prop) : Prop :=
  match r with
  | .done t => p t
  | .raised _ t => p t
  | .stuck _ => True

@[simp] theorem leaves_done {t : State} {p : State → Prop} : (StageResult.done t).Leaves p ↔ p t := Iff.rfl

@[simp] theorem leaves_raised {e : ErrorKind} {t : State} {p : State → Prop} :
    (StageResult.raised e t).Leaves p ↔ p t := Iff.rfl

@[simp] theorem leaves_stuck {f : Fault} {p : State → Prop} : (StageResult.stuck f).Leaves p ↔ True := Iff.rfl

/-- A chain leaves what its second part leaves from every state the first part leaves. -/
theorem StageResult.Leaves.andThen {r : StageResult} {next : State → StageResult} {p : State → Prop}
    (hr : r.Leaves p) (hn : ∀ s, p s → (next s).Leaves p) : (r.andThen next).Leaves p := by
  cases r with
  | done s => exact hn s hr
  | raised e s => exact hr
  | stuck f => trivial

/-- What a stage leaves may be weakened. -/
theorem StageResult.Leaves.mono {r : StageResult} {p q : State → Prop} (hr : r.Leaves p) (h : ∀ t, p t → q t) : r.Leaves q := by
  cases r with
  | done s => exact h s hr
  | raised e s => exact h s hr
  | stuck f => trivial

/-- What a body leaves of a started command, the command leaves up to its report. -/
theorem runCommand_leaves {body : State → StageResult} {s t : State} {p : State → Prop}
    (h : runCommand body s = .next t) (hb : (body (startCommand s)).Leaves p) :
    ∃ u, p u ∧ (t = completeCommand u ∨ ∃ e, t = takeError e u) := by
  rcases runCommand_eq_next_iff.mp h with ⟨u, hu, rfl⟩ | ⟨e, u, hu, rfl⟩ <;> rw [hu] at hb
  · exact ⟨u, hb, .inl rfl⟩
  · exact ⟨u, hb, .inr ⟨e, rfl⟩⟩

end Sys2Proof.Machine
end

