-- ==== Sys2Proof/Laws/PerInstr.lean ====
section
/-! SUPPORT. Per-instruction families: the command word of every instruction is well formed (R100, R101). -/

namespace Sys2Proof.Laws.CommandWord

/-- The word of `i` has a zero `rsv` field and an opcode of the map, its operand-free form is well formed, and the
table reader gives `i` back from it. -/
def Statement (i : Instr) : Prop :=
  i.wellFormed = true ∧ commandWordWellFormed (encode i) = true ∧ rsvField (encode i) = 0 ∧
    decodeTableWord 32 (encode i).toNat = some i

theorem clr : Statement .clr := by unfold Statement; decide
theorem count : Statement .count := by unfold Statement; decide
theorem seed : Statement .seed := by unfold Statement; decide
theorem merge : Statement .merge := by unfold Statement; decide
theorem build : Statement .build := by unfold Statement; decide
theorem codes : Statement .codes := by unfold Statement; decide
theorem sertree : Statement .sertree := by unfold Statement; decide
theorem destree : Statement .destree := by unfold Statement; decide
theorem pack : Statement .pack := by unfold Statement; decide
theorem unpack : Statement .unpack := by unfold Statement; decide
theorem enctext : Statement .enctext := by unfold Statement; decide
theorem assemble : Statement .assemble := by unfold Statement; decide
theorem compress : Statement .compress := by unfold Statement; decide
theorem rdpad : Statement .rdpad := by unfold Statement; decide
theorem dectext : Statement .dectext := by unfold Statement; decide
theorem decompress : Statement .decompress := by unfold Statement; decide

end Sys2Proof.Laws.CommandWord
end

