-- ==== Sys2Proof/Laws/Queue.lean ====
section
/-! SUPPORT. The queue order (R130) is a strict total order, and what inserting into the queue does (R45, R135). -/

namespace Sys2Proof.Machine

/-- The order test of the queue decides the order of R130. -/
theorem keyLt_iff (nodes : List Node) (a b : Nat) : keyLt nodes a b = true ↔ keyBelow nodes a b := by
  simp [keyLt, keyBelow]

theorem keyBelow_trans {nodes : List Node} {a b c : Nat} (h₁ : keyBelow nodes a b) (h₂ : keyBelow nodes b c) :
    keyBelow nodes a c := by
  unfold keyBelow at *
  omega

theorem keyBelow_irrefl (nodes : List Node) (a : Nat) : ¬ keyBelow nodes a a := by
  unfold keyBelow
  omega

/-- "Because keys are pairwise distinct (handles are), the order is total" (R45). -/
theorem keyBelow_total (nodes : List Node) {a b : Nat} (h : a ≠ b) : keyBelow nodes a b ∨ keyBelow nodes b a := by
  unfold keyBelow
  omega

/-- Inserting a handle adds it and no other. -/
theorem enqueue_perm (nodes : List Node) (h : Nat) (pq : List Nat) : (enqueue nodes h pq).Perm (h :: pq) := by
  induction pq with
  | nil => exact .refl _
  | cons x rest ih =>
    simp only [enqueue]
    split
    · exact .refl _
    · exact (ih.cons x).trans (.swap h x rest)

@[simp] theorem enqueue_length (nodes : List Node) (h : Nat) (pq : List Nat) :
    (enqueue nodes h pq).length = pq.length + 1 := (enqueue_perm nodes h pq).length_eq

/-- Inserting a handle that is not queued keeps the queue ascending by key. -/
theorem enqueue_pairwise {nodes : List Node} {h : Nat} {pq : List Nat} (hq : pq.Pairwise (keyBelow nodes))
    (hh : h ∉ pq) : (enqueue nodes h pq).Pairwise (keyBelow nodes) := by
  induction pq with
  | nil => simp [enqueue]
  | cons x rest ih =>
    obtain ⟨hx, hrest⟩ := List.pairwise_cons.mp hq
    simp only [enqueue]
    split
    · rename_i hlt
      have hlt := (keyLt_iff nodes h x).mp hlt
      refine List.pairwise_cons.mpr ⟨fun y hy => ?_, hq⟩
      rcases List.mem_cons.mp hy with rfl | hy
      · exact hlt
      · exact keyBelow_trans hlt (hx y hy)
    · rename_i hnlt
      have hne : x ≠ h := fun he => hh (by simp [he])
      have hxh : keyBelow nodes x h :=
        (keyBelow_total nodes hne).resolve_right fun hlt => hnlt ((keyLt_iff nodes h x).mpr hlt)
      refine List.pairwise_cons.mpr ⟨fun y hy => ?_, ih hrest fun hm => hh (List.mem_cons_of_mem _ hm)⟩
      rcases List.mem_cons.mp ((enqueue_perm nodes h rest).mem_iff.mp hy) with rfl | hy
      · exact hxh
      · exact hx y hy

/-- Handles sorted by repeated insertion are the same handles. -/
theorem foldr_enqueue_perm (nodes : List Node) (hs : List Nat) : (hs.foldr (enqueue nodes) []).Perm hs := by
  induction hs with
  | nil => exact .refl _
  | cons h rest ih => exact (enqueue_perm nodes h _).trans (ih.cons h)

/-- Distinct handles sorted by repeated insertion are ascending by key. -/
theorem foldr_enqueue_pairwise (nodes : List Node) {hs : List Nat} (hn : hs.Nodup) :
    (hs.foldr (enqueue nodes) []).Pairwise (keyBelow nodes) := by
  induction hs with
  | nil => exact .nil
  | cons h rest ih =>
    obtain ⟨hh, hrest⟩ := List.nodup_cons.mp hn
    exact enqueue_pairwise (ih hrest) fun hm => hh ((foldr_enqueue_perm nodes rest).mem_iff.mp hm)

/-- The weight of a record does not change when records are added after it. -/
theorem nodeWeight_append {nodes more : List Node} {h : Nat} (hh : h < nodes.length) :
    nodeWeight (nodes ++ more) h = nodeWeight nodes h := by
  simp only [nodeWeight, List.getElem?_append_left hh]

/-- The key order of allocated handles does not change when records are added. -/
theorem keyBelow_append {nodes more : List Node} {a b : Nat} (ha : a < nodes.length) (hb : b < nodes.length) :
    keyBelow (nodes ++ more) a b ↔ keyBelow nodes a b := by
  simp only [keyBelow, nodeWeight_append ha, nodeWeight_append hb]

end Sys2Proof.Machine
end

