-- ==== Sys2Proof/Laws/Stages.lean ====
section
/-! SUPPORT. One lemma per stage that says everything it can come to, and what no stage touches. -/

namespace Sys2Proof.Machine

/-- What belongs to the host's side or to the command's report: no stage of any command but CLR's touches it. -/
structure SameSide (s t : State) : Prop where
  cap : t.cap = s.cap
  cmd : t.cmd = s.cmd
  inLen : t.inLen = s.inLen
  inMem : t.inMem = s.inMem
  host : t.host = s.host
  rdata : t.rdata = s.rdata
  draws : t.draws = s.draws
  err : t.err = s.err
  errAcc : t.errAcc = s.errAcc
  busy : t.status.busy = s.status.busy
  done : t.status.done = s.status.done
  errf : t.status.errf = s.status.errf

theorem SameSide.rfl {s : State} : SameSide s s := by constructor <;> exact Eq.refl _

theorem SameSide.trans {s t u : State} (h₁ : SameSide s t) (h₂ : SameSide t u) : SameSide s u := by
  constructor
  · exact h₂.cap.trans h₁.cap
  · exact h₂.cmd.trans h₁.cmd
  · exact h₂.inLen.trans h₁.inLen
  · exact h₂.inMem.trans h₁.inMem
  · exact h₂.host.trans h₁.host
  · exact h₂.rdata.trans h₁.rdata
  · exact h₂.draws.trans h₁.draws
  · exact h₂.err.trans h₁.err
  · exact h₂.errAcc.trans h₁.errAcc
  · exact h₂.busy.trans h₁.busy
  · exact h₂.done.trans h₁.done
  · exact h₂.errf.trans h₁.errf

/-- The input byte sequence lies on the host's side. -/
theorem SameSide.inputBytes {s t : State} (h : SameSide s t) : Machine.inputBytes t = Machine.inputBytes s :=
  inputBytes_congr h.inMem h.draws h.inLen

/-- COUNT's stage always completes (R120). -/
theorem countStage_eq (s : State) :
    countStage s = .done { s with freq := (inputBytes s).foldl bumpCount [] } := rfl

/-- SEED's stage (R131, R132, R134): it raises EmptyInputError where no symbol is present, and else completes. -/
theorem seedStage_cases (s : State) :
    (seedLeaves s.freq = [] ∧ seedStage s = .raised .emptyInput (dropTree s)) ∨
    (seedLeaves s.freq ≠ [] ∧ seedStage s = .done { dropTree s with
      nodes := seedLeaves s.freq
      pq := seedQueue (seedLeaves s.freq)
      status := { s.status with vTree := decide ((seedLeaves s.freq).length = 1) } }) := by
  unfold seedStage
  cases h : seedLeaves s.freq with
  | nil => exact .inl ⟨rfl, rfl⟩
  | cons a rest =>
    refine .inr ⟨by simp, ?_⟩
    cases rest <;> rfl

/-- MERGE's stage (R135, R136): SequenceError with fewer than two queued, else one merge, where every queued handle has
a record. -/
theorem mergeStage_cases (s : State) :
    (s.pq.length < 2 ∧ mergeStage s = .raised .sequence s) ∨
    (∃ a b rest, s.pq = a :: b :: rest ∧ (∀ h ∈ s.pq, h < s.nodes.length) ∧
      mergeStage s = .done (mergeTop a b rest s)) ∨
    (2 ≤ s.pq.length ∧ (∃ h ∈ s.pq, s.nodes.length ≤ h) ∧ mergeStage s = .stuck .queueDangling) := by
  unfold mergeStage
  split
  · rename_i a b rest hpq
    split
    · rename_i hall
      refine .inr (.inl ⟨a, b, rest, hpq, ?_, rfl⟩)
      simpa using hall
    · rename_i hall
      refine .inr (.inr ⟨by simp [hpq], ?_, rfl⟩)
      simpa using hall
  · rename_i hne
    refine .inl ⟨?_, rfl⟩
    match hpq : s.pq with
    | [] => simp
    | [_] => simp
    | a :: b :: rest => exact absurd hpq (hne a b rest)

/-- What one merge leaves (R135): the new record, the new queue, and ROOT and V_TREE where it was the last. -/
theorem mergeTop_eq (a b : Nat) (rest : List Nat) (s : State) :
    mergeTop a b rest s =
      { s with
        nodes := s.nodes ++ [.internal a b (nodeWeight s.nodes a + nodeWeight s.nodes b)]
        pq := enqueue (s.nodes ++ [.internal a b (nodeWeight s.nodes a + nodeWeight s.nodes b)]) s.nodes.length rest
        root := if rest = [] then BitVec.ofNat 32 s.nodes.length else s.root
        status := { s.status with vTree := if rest = [] then true else s.status.vTree } } := by
  cases rest with
  | nil => rfl
  | cons x more =>
    have hl : (enqueue (s.nodes ++ [.internal a b (nodeWeight s.nodes a + nodeWeight s.nodes b)]) s.nodes.length
        (x :: more)).length = more.length + 2 := by simp
    simp only [mergeTop]
    split
    · rename_i r hr
      rw [hr] at hl
      simp at hl
    · simp

/-- CODES' stage (R150, R152). -/
theorem codesStage_cases (s : State) :
    (s.status.vTree = false ∧ codesStage s = .raised .sequence s) ∨
    (s.status.vTree = true ∧ s.tree? = none ∧ codesStage s = .stuck .arenaNotTree) ∨
    (∃ t e, s.status.vTree = true ∧ s.tree? = some t ∧ walkCodes t [] [] = .error e ∧
      codesStage s = .raised e { s with code := [], status := { s.status with vCodes := false } }) ∨
    (∃ t table, s.status.vTree = true ∧ s.tree? = some t ∧ walkCodes t [] [] = .ok table ∧
      codesStage s = .done { s with code := table, status := { s.status with vCodes := true } }) := by
  unfold codesStage
  cases hv : s.status.vTree
  · exact .inl ⟨rfl, rfl⟩
  · cases ht : s.tree? with
    | none => exact .inr (.inl ⟨rfl, rfl, rfl⟩)
    | some t =>
      cases hw : walkCodes t [] [] with
      | error e => exact .inr (.inr (.inl ⟨t, e, rfl, rfl, hw, by simp [hw]⟩))
      | ok table => exact .inr (.inr (.inr ⟨t, table, rfl, rfl, hw, by simp [hw]⟩))

/-- SERTREE's stage (R161, R162). -/
theorem sertreeStage_cases (s : State) :
    (s.status.vTree = false ∧ sertreeStage s = .raised .sequence s) ∨
    (s.status.vTree = true ∧ s.tree? = none ∧ sertreeStage s = .stuck .arenaNotTree) ∨
    (∃ t, s.status.vTree = true ∧ s.tree? = some t ∧
      sertreeStage s = .done { s with tbits := t.ser, status := { s.status with vTbits := true } }) := by
  unfold sertreeStage
  cases hv : s.status.vTree
  · exact .inl ⟨rfl, rfl⟩
  · cases ht : s.tree? with
    | none => exact .inr (.inl ⟨rfl, rfl, rfl⟩)
    | some t => exact .inr (.inr ⟨t, rfl, rfl, rfl⟩)

/-- DESTREE's stage (R165 to R169). -/
theorem destreeStage_cases (s : State) :
    (s.status.vSbits = false ∧ destreeStage s = .raised .sequence s) ∨
    (∃ e, s.status.vSbits = true ∧ readTree s.cap.nodeMax s.streamFromCur = .error e ∧
      destreeStage s = .raised e (dropTree s)) ∨
    (∃ t rest n, s.status.vSbits = true ∧ readTree s.cap.nodeMax s.streamFromCur = .ok (t, rest, n) ∧
      destreeStage s = .done { dropTree s with
        nodes := t.records 0
        root := 0
        status := { (dropTree s).status with vTree := true }
        cur := BitVec.ofNat 32 (s.sbits.length - rest.length) }) := by
  unfold destreeStage
  cases hv : s.status.vSbits
  · exact .inl ⟨rfl, rfl⟩
  · cases hr : readTree s.cap.nodeMax s.streamFromCur with
    | error e => exact .inr (.inl ⟨e, rfl, rfl, by simp⟩)
    | ok r =>
      obtain ⟨t, rest, n⟩ := r
      exact .inr (.inr ⟨t, rest, n, rfl, rfl, by simp⟩)

/-- PACK's stage (R180, R181). -/
theorem packStage_cases (s : State) :
    (s.status.vSbits = false ∧ packStage s = .raised .sequence s) ∨
    (s.status.vSbits = true ∧ s.cap.outMax < s.sbits.length / 8 ∧
      packStage s = .raised .capacity { s with out := [] }) ∨
    (s.status.vSbits = true ∧ s.sbits.length / 8 ≤ s.cap.outMax ∧
      packStage s = .done { s with out := packBits s.sbits }) := by
  unfold packStage
  cases hv : s.status.vSbits
  · exact .inl ⟨rfl, rfl⟩
  · by_cases hc : s.cap.outMax < s.sbits.length / 8
    · exact .inr (.inl ⟨rfl, hc, by simp [hc]⟩)
    · exact .inr (.inr ⟨rfl, Nat.le_of_not_lt hc, by simp [hc]⟩)

/-- UNPACK's stage always completes (R184, R185). -/
theorem unpackStage_eq (s : State) :
    unpackStage s =
      .done { s with sbits := unpackBytes (inputBytes s), status := { s.status with vSbits := true }, cur := 0 } := rfl

/-- ENCTEXT's stage (R190, R192). -/
theorem enctextStage_cases (s : State) :
    (s.status.vCodes = false ∧ enctextStage s = .raised .sequence s) ∨
    (∃ e, s.status.vCodes = true ∧ encodeText s.code s.cap.xbitsMax 0 (inputBytes s) = .error e ∧
      enctextStage s = .raised e { s with xbits := [], status := { s.status with vXbits := false } }) ∨
    (∃ x, s.status.vCodes = true ∧ encodeText s.code s.cap.xbitsMax 0 (inputBytes s) = .ok x ∧
      enctextStage s = .done { s with xbits := x, status := { s.status with vXbits := true } }) := by
  unfold enctextStage
  cases hv : s.status.vCodes
  · exact .inl ⟨rfl, rfl⟩
  · cases hx : encodeText s.code s.cap.xbitsMax 0 (inputBytes s) with
    | error e => exact .inr (.inl ⟨e, rfl, rfl, by simp⟩)
    | ok x => exact .inr (.inr ⟨x, rfl, rfl, by simp⟩)

/-- ASSEMBLE's stage (R195, R197). -/
theorem assembleStage_cases (s : State) :
    ((s.status.vTbits = false ∨ s.status.vXbits = false) ∧ assembleStage s = .raised .sequence s) ∨
    (s.status.vTbits = true ∧ s.status.vXbits = true ∧
      s.cap.sbitsMax < (assembleStream s.tbits s.xbits).length ∧
      assembleStage s = .raised .capacity
        { s with sbits := [], cur := 0, status := { s.status with vSbits := false } }) ∨
    (s.status.vTbits = true ∧ s.status.vXbits = true ∧
      (assembleStream s.tbits s.xbits).length ≤ s.cap.sbitsMax ∧
      assembleStage s = .done { s with
        sbits := assembleStream s.tbits s.xbits
        padCnt := BitVec.ofNat 32 (padCount s.tbits.length s.xbits.length)
        cur := 0
        status := { s.status with vSbits := true } }) := by
  unfold assembleStage
  rw [assembleStream_length]
  cases ht : s.status.vTbits
  · exact .inl ⟨.inl rfl, rfl⟩
  · cases hx : s.status.vXbits
    · exact .inl ⟨.inr rfl, rfl⟩
    · by_cases hc : s.cap.sbitsMax < s.tbits.length + 8 + padCount s.tbits.length s.xbits.length + s.xbits.length
      · exact .inr (.inl ⟨rfl, rfl, hc, by simp [hc]⟩)
      · exact .inr (.inr ⟨rfl, rfl, Nat.le_of_not_lt hc, by simp [hc]⟩)

/-- RDPAD's stage (R210, R211). -/
theorem rdpadStage_cases (s : State) :
    (s.status.vSbits = false ∧ rdpadStage s = .raised .sequence s) ∨
    (s.status.vSbits = true ∧ rdpadStage s = .raised .corruptStream s) ∨
    (∃ p, s.status.vSbits = true ∧ p = (val8 (s.streamFromCur.take 8)).toNat ∧ p ≤ 7 ∧
      s.cur.toNat + 8 + p ≤ s.sbits.length ∧
      rdpadStage s = .done { s with
        padCnt := BitVec.ofNat 32 p
        cur := BitVec.ofNat 32 (s.cur.toNat + 8 + p) }) := by
  unfold rdpadStage
  cases hv : s.status.vSbits
  · exact .inl ⟨rfl, rfl⟩
  · simp only [if_true]
    split
    · exact .inr (.inl ⟨trivial, rfl⟩)
    · split
      · exact .inr (.inl ⟨trivial, rfl⟩)
      · split
        · exact .inr (.inl ⟨trivial, rfl⟩)
        · refine .inr (.inr ⟨_, trivial, rfl, ?_, ?_, rfl⟩)
          · simpa [State.streamFromCur] using ‹¬ 7 < _›
          · exact Nat.le_of_not_lt ‹_›

/-- DECTEXT's stage (R214, R217). -/
theorem dectextStage_cases (s : State) :
    ((s.status.vSbits = false ∨ s.status.vTree = false) ∧ dectextStage s = .raised .sequence s) ∨
    (s.status.vSbits = true ∧ s.status.vTree = true ∧ s.sbits.length < s.cur.toNat ∧
      dectextStage s = .raised .corruptStream { s with out := [] }) ∨
    (s.status.vTree = true ∧ s.tree? = none ∧ dectextStage s = .stuck .arenaNotTree) ∨
    (∃ t e, s.status.vSbits = true ∧ s.status.vTree = true ∧ s.cur.toNat ≤ s.sbits.length ∧ s.tree? = some t ∧
      decodeText t s.cap.outMax s.streamFromCur = .error e ∧
      dectextStage s = .raised e { s with out := [] }) ∨
    (∃ t out, s.status.vSbits = true ∧ s.status.vTree = true ∧ s.cur.toNat ≤ s.sbits.length ∧ s.tree? = some t ∧
      decodeText t s.cap.outMax s.streamFromCur = .ok out ∧
      dectextStage s = .done { s with out := out }) := by
  unfold dectextStage
  cases hs : s.status.vSbits
  · exact .inl ⟨.inl rfl, rfl⟩
  · cases hv : s.status.vTree
    · exact .inl ⟨.inr rfl, rfl⟩
    · by_cases hc : s.sbits.length < s.cur.toNat
      · exact .inr (.inl ⟨rfl, rfl, hc, by simp [hc]⟩)
      · have hle := Nat.le_of_not_lt hc
        cases ht : s.tree? with
        | none => exact .inr (.inr (.inl ⟨rfl, rfl, by simp [hc]⟩))
        | some t =>
          cases hd : decodeText t s.cap.outMax s.streamFromCur with
          | error e => exact .inr (.inr (.inr (.inl ⟨t, e, rfl, rfl, hle, rfl, hd, by simp [hc, hd]⟩)))
          | ok out => exact .inr (.inr (.inr (.inr ⟨t, out, rfl, rfl, hle, rfl, hd, by simp [hc, hd]⟩)))

theorem countStage_sameSide (s : State) : (countStage s).Leaves (SameSide s) := by constructor <;> rfl

theorem unpackStage_sameSide (s : State) : (unpackStage s).Leaves (SameSide s) := by constructor <;> rfl

theorem requireInput_sameSide (s : State) : (requireInput s).Leaves (SameSide s) := by
  unfold requireInput
  split <;> exact SameSide.rfl

theorem seedStage_sameSide (s : State) : (seedStage s).Leaves (SameSide s) := by
  rcases seedStage_cases s with ⟨-, h⟩ | ⟨-, h⟩ <;> rw [h] <;> constructor <;> rfl

theorem mergeStage_sameSide (s : State) : (mergeStage s).Leaves (SameSide s) := by
  rcases mergeStage_cases s with ⟨-, h⟩ | ⟨a, b, rest, -, -, h⟩ | ⟨-, -, h⟩ <;> rw [h]
  · exact SameSide.rfl
  · rw [mergeTop_eq]
    constructor <;> rfl
  · trivial

theorem mergeLoop_sameSide (fuel : Nat) (s : State) : (mergeLoop fuel s).Leaves (SameSide s) := by
  induction fuel generalizing s with
  | zero => exact SameSide.rfl
  | succ fuel ih =>
    simp only [mergeLoop]
    split
    · exact StageResult.Leaves.andThen (mergeStage_sameSide s) fun t ht => (ih t).mono fun u hu => ht.trans hu
    · exact SameSide.rfl

theorem buildStage_sameSide (s : State) : (buildStage s).Leaves (SameSide s) :=
  StageResult.Leaves.andThen (seedStage_sameSide s) fun t ht => (mergeLoop_sameSide _ t).mono fun _ hu => ht.trans hu

theorem codesStage_sameSide (s : State) : (codesStage s).Leaves (SameSide s) := by
  rcases codesStage_cases s with ⟨-, h⟩ | ⟨-, -, h⟩ | ⟨_, _, -, -, -, h⟩ | ⟨_, _, -, -, -, h⟩ <;> rw [h]
  · exact SameSide.rfl
  · trivial
  · constructor <;> rfl
  · constructor <;> rfl

theorem sertreeStage_sameSide (s : State) : (sertreeStage s).Leaves (SameSide s) := by
  rcases sertreeStage_cases s with ⟨-, h⟩ | ⟨-, -, h⟩ | ⟨_, -, -, h⟩ <;> rw [h]
  · exact SameSide.rfl
  · trivial
  · constructor <;> rfl

theorem destreeStage_sameSide (s : State) : (destreeStage s).Leaves (SameSide s) := by
  rcases destreeStage_cases s with ⟨-, h⟩ | ⟨_, -, -, h⟩ | ⟨_, _, _, -, -, h⟩ <;> rw [h]
  · exact SameSide.rfl
  · constructor <;> rfl
  · constructor <;> rfl

theorem packStage_sameSide (s : State) : (packStage s).Leaves (SameSide s) := by
  rcases packStage_cases s with ⟨-, h⟩ | ⟨-, -, h⟩ | ⟨-, -, h⟩ <;> rw [h] <;> constructor <;> rfl

theorem enctextStage_sameSide (s : State) : (enctextStage s).Leaves (SameSide s) := by
  rcases enctextStage_cases s with ⟨-, h⟩ | ⟨_, -, -, h⟩ | ⟨_, -, -, h⟩ <;> rw [h] <;> constructor <;> rfl

theorem assembleStage_sameSide (s : State) : (assembleStage s).Leaves (SameSide s) := by
  rcases assembleStage_cases s with ⟨-, h⟩ | ⟨-, -, -, h⟩ | ⟨-, -, -, h⟩ <;> rw [h] <;> constructor <;> rfl

theorem rdpadStage_sameSide (s : State) : (rdpadStage s).Leaves (SameSide s) := by
  rcases rdpadStage_cases s with ⟨-, h⟩ | ⟨-, h⟩ | ⟨_, -, -, -, -, h⟩ <;> rw [h] <;> constructor <;> rfl

theorem dectextStage_sameSide (s : State) : (dectextStage s).Leaves (SameSide s) := by
  rcases dectextStage_cases s with ⟨-, h⟩ | ⟨-, -, -, h⟩ | ⟨-, -, h⟩ | ⟨_, _, -, -, -, -, -, h⟩ |
    ⟨_, _, -, -, -, -, -, h⟩ <;> rw [h]
  · exact SameSide.rfl
  · constructor <;> rfl
  · trivial
  · constructor <;> rfl
  · constructor <;> rfl

theorem compressStage_sameSide (s : State) : (compressStage s).Leaves (SameSide s) := by
  have h0 : SameSide s (compressStart s) := by constructor <;> rfl
  unfold compressStage
  refine StageResult.Leaves.andThen (StageResult.Leaves.andThen (StageResult.Leaves.andThen (StageResult.Leaves.andThen (StageResult.Leaves.andThen (StageResult.Leaves.andThen
    (StageResult.Leaves.andThen ((countStage_sameSide _).mono fun t ht => h0.trans ht) ?_) ?_) ?_) ?_) ?_) ?_) ?_
  · exact fun t ht => (requireInput_sameSide t).mono fun u hu => ht.trans hu
  · exact fun t ht => (buildStage_sameSide t).mono fun u hu => ht.trans hu
  · exact fun t ht => (codesStage_sameSide t).mono fun u hu => ht.trans hu
  · exact fun t ht => (enctextStage_sameSide t).mono fun u hu => ht.trans hu
  · exact fun t ht => (sertreeStage_sameSide t).mono fun u hu => ht.trans hu
  · exact fun t ht => (assembleStage_sameSide t).mono fun u hu => ht.trans hu
  · exact fun t ht => (packStage_sameSide t).mono fun u hu => ht.trans hu

theorem decompressStage_sameSide (s : State) : (decompressStage s).Leaves (SameSide s) := by
  have h0 : SameSide s (decompressStart s) := by constructor <;> rfl
  unfold decompressStage
  refine StageResult.Leaves.andThen (StageResult.Leaves.andThen (StageResult.Leaves.andThen ((unpackStage_sameSide _).mono fun t ht => h0.trans ht) ?_) ?_) ?_
  · exact fun t ht => (destreeStage_sameSide t).mono fun u hu => ht.trans hu
  · exact fun t ht => (rdpadStage_sameSide t).mono fun u hu => ht.trans hu
  · exact fun t ht => (dectextStage_sameSide t).mono fun u hu => ht.trans hu

end Sys2Proof.Machine
end

