-- ==== Sys2Proof/Laws/Step.lean ====
section
/-! SUPPORT. What a step can do, said once, and the tree an arena of pre-order records holds. -/

namespace Sys2Proof.Machine

/-- A step with no transaction issued: the block waits (R270). -/
theorem step_idle {s : State} (h : s.host = []) : step s = .next s := by simp [step, takeTransaction, h]

/-- A step takes the host's next transaction. -/
theorem step_cons {s : State} {op : HostOp} {rest : List HostOp} (h : s.host = op :: rest) :
    step s = transact op (taken s rest) := by simp [step, takeTransaction, h, taken]

/-- Everything one step can do. -/
theorem step_cases (s : State) :
    (s.host = [] ∧ step s = .next s) ∨
    (∃ a rest, s.host = .read a :: rest ∧
      step s = .next { taken s rest with rdata := some (portRead (taken s rest) a) }) ∨
    (∃ rest, s.host = .reset :: rest ∧ step s = .next (applyReset (taken s rest))) ∨
    (∃ a v rest, s.host = .write a v :: rest ∧ s.status.busy = true ∧ step s = .next (taken s rest)) ∨
    (∃ a v rest, s.host = .write a v :: rest ∧ s.status.busy = false ∧ a ≠ cmdAddr ∧
      step s = .next (plainWrite (taken s rest) a v)) ∨
    (∃ w rest i, s.host = .write cmdAddr w :: rest ∧ s.status.busy = false ∧ decode w = .ok i ∧
      step s = exec i { taken s rest with cmd := w }) ∨
    (∃ w rest e, s.host = .write cmdAddr w :: rest ∧ s.status.busy = false ∧ decode w = .error e ∧
      step s = illegalCommand { taken s rest with cmd := w }) := by
  match h : s.host with
  | [] => exact .inl ⟨rfl, step_idle h⟩
  | .read a :: rest => exact .inr (.inl ⟨a, rest, rfl, step_cons h⟩)
  | .reset :: rest => exact .inr (.inr (.inl ⟨rest, rfl, step_cons h⟩))
  | .write a v :: rest =>
    have hs := step_cons h
    simp only [transact, taken_fields] at hs
    cases hb : s.status.busy with
    | true => exact .inr (.inr (.inr (.inl ⟨a, v, rest, rfl, rfl, by rw [hs, hb]; rfl⟩)))
    | false =>
      by_cases ha : a = cmdAddr
      · subst ha
        simp only [hb, Bool.false_eq_true, if_false, if_true, acceptCommand] at hs
        cases hd : decode v with
        | ok i => exact .inr (.inr (.inr (.inr (.inr (.inl ⟨v, rest, i, rfl, rfl, hd, by rw [hs, hd]⟩)))))
        | error e => exact .inr (.inr (.inr (.inr (.inr (.inr ⟨v, rest, e, rfl, rfl, hd, by rw [hs, hd]⟩)))))
      · exact .inr (.inr (.inr (.inr (.inl ⟨a, v, rest, rfl, rfl, ha, by rw [hs, hb]; simp [ha]⟩))))

/-- The illegal command changes the report alone (R232). -/
theorem illegalCommand_eq (s : State) : illegalCommand s = .next (reportError .illegalCommand s) := rfl

/-- Taking the two fields of a port address apart gives what it was made of (R70). -/
@[simp] theorem portSpace_portAddr (space : BitVec 4) (index : BitVec 32) :
    portSpace (portAddr space index) = space.toNat := by
  have : (portAddr space index).extractLsb' 32 4 = space := by
    unfold portAddr
    ext i hi
    simp only [BitVec.getElem_extractLsb']
    exact (BitVec.getLsbD_append (x := space) (y := index)).trans (by simp [hi])
  rw [portSpace, this]

@[simp] theorem portIndex_portAddr (space : BitVec 4) (index : BitVec 32) :
    portIndex (portAddr space index) = index.toNat := by
  have : (portAddr space index).extractLsb' 0 32 = index := by
    unfold portAddr
    ext i hi
    simp only [BitVec.getElem_extractLsb']
    exact (BitVec.getLsbD_append (x := space) (y := index)).trans (by simp [hi])
  rw [portIndex, this]

/-- While the block is idle the port reads the addressed element (R70). -/
theorem portRead_idle {s : State} (h : s.status.busy = false) (space : BitVec 4) (index : BitVec 32) :
    portRead s (portAddr space index) = readElement s space.toNat index.toNat := by simp [portRead, h]

/-- The free value a read answers, in the terms of the claims. -/
theorem freeElement_eq (s : State) (width : Nat) : freeElement s width = freeWord s width := rfl

theorem nodeFieldWidth_eq (f : Nat) : nodeFieldWidth f = fieldWidth f := by
  rcases f with _ | _ | _ | _ | _ | _ | f <;> rfl

/-- A bit of a buffer past its length is free (R73). -/
theorem readBit_of_le {s : State} {b : Bits} {i : Nat} (h : b.length ≤ i) : readBit s b i = freeElement s 1 := by
  simp [readBit, h]

/-- A bit a buffer holds reads as it is (R71). -/
theorem readBit_of_some {s : State} {b : Bits} {i : Nat} {d : Bool} (h : b[i]? = some d) :
    readBit s b i = bitWord d := by simp [readBit, h]

/-- A record field past the sixth names no element (R73). -/
theorem nodeField_of_le {f : Nat} (h : 6 ≤ f) (n : Node) : nodeField n f = none := by
  unfold nodeField
  split <;> simp_all

/-- A plain write leaves everything but IN, IN_LEN, CUR and FREQ. -/
theorem plainWrite_fields (s : State) (a : PortAddr) (v : Word) :
    plainWrite s a v = { s with
      inMem := (plainWrite s a v).inMem
      inLen := (plainWrite s a v).inLen
      cur := (plainWrite s a v).cur
      freq := (plainWrite s a v).freq } := by
  unfold plainWrite
  split
  · split
    · split <;> rfl
    · rfl
    · rfl
  · split <;> rfl
  · split <;> rfl
  · rfl

@[simp] theorem records_length (t : CodeTree) (base : Nat) : (t.records base).length = t.nodes := by
  induction t generalizing base with
  | leaf s => rfl
  | node l r ihl ihr =>
    simp only [CodeTree.records, List.length_cons, List.length_append, ihl, ihr, CodeTree.nodes]
    omega

/-- Every weight of a deserialised tree is 0 (R166). -/
theorem records_weight {t : CodeTree} {base : Nat} {n : Node} (h : n ∈ t.records base) : n.weight = 0 := by
  induction t generalizing base with
  | leaf s => rw [List.mem_singleton.mp h]; rfl
  | node l r ihl ihr =>
    rcases List.mem_cons.mp h with rfl | h
    · rfl
    · rcases List.mem_append.mp h with h | h
      · exact ihl h
      · exact ihr h

/-- More fuel finds the same tree. -/
theorem treeAt_mono {nodes : List Node} {f g h : Nat} {t : CodeTree} (hfg : f ≤ g) (ht : treeAt nodes f h = some t) :
    treeAt nodes g h = some t := by
  induction f generalizing g h t with
  | zero => simp [treeAt] at ht
  | succ f ih =>
    obtain ⟨g, rfl⟩ : ∃ k, g = k + 1 := ⟨g - 1, by omega⟩
    simp only [treeAt] at ht ⊢
    split at ht
    · cases ht
    · exact ht
    · rename_i l r w hn
      split at ht
      · rename_i tl tr hl hr
        rw [ih (by omega) hl, ih (by omega) hr]
        exact ht
      · cases ht

end Sys2Proof.Machine
end

