-- ==== Sys2Proof/Laws/Records.lean ====
section
/-! SUPPORT. The arena that DESTREE writes (R166): its shape, and that it holds the tree it was written from. -/

namespace Sys2Proof.Machine

theorem nodes_pos (t : CodeTree) : 0 < t.nodes := by cases t <;> simp only [CodeTree.nodes] <;> omega

theorem depth_lt_nodes (t : CodeTree) : t.depth < t.nodes := by
  induction t with
  | leaf s => simp [CodeTree.depth, CodeTree.nodes]
  | node l r ihl ihr =>
    simp only [CodeTree.depth, CodeTree.nodes]
    omega

@[simp] theorem childHandles_nil : childHandles [] = [] := rfl

@[simp] theorem childHandles_cons (n : Node) (rest : List Node) :
    childHandles (n :: rest) = n.children ++ childHandles rest := rfl

@[simp] theorem childHandles_append (xs ys : List Node) :
    childHandles (xs ++ ys) = childHandles xs ++ childHandles ys := by simp [childHandles]

/-- The children in the records of a tree are the handles after its root's. -/
theorem mem_childHandles_records {t : CodeTree} {base c : Nat} (h : c ∈ childHandles (t.records base)) :
    base < c ∧ c < base + t.nodes := by
  induction t generalizing base with
  | leaf s => simp [CodeTree.records, Node.children] at h
  | node l r ihl ihr =>
    have hl := nodes_pos l
    have hr := nodes_pos r
    simp only [CodeTree.records, childHandles_cons, childHandles_append, Node.children, List.mem_append,
      List.mem_cons, List.not_mem_nil, or_false] at h
    simp only [CodeTree.nodes]
    rcases h with (rfl | rfl) | h | h
    · omega
    · omega
    · have := ihl h
      omega
    · have := ihr h
      omega

/-- Each handle is a child at most once. -/
theorem childHandles_records_nodup (t : CodeTree) (base : Nat) : (childHandles (t.records base)).Nodup := by
  induction t generalizing base with
  | leaf s => simp [CodeTree.records, Node.children]
  | node l r ihl ihr =>
    have hl := nodes_pos l
    simp only [CodeTree.records, childHandles_cons, childHandles_append, Node.children]
    rw [List.nodup_append, List.nodup_append]
    refine ⟨?_, ⟨ihl _, ihr _, ?_⟩, ?_⟩
    · simp only [List.nodup_cons, List.mem_singleton, List.not_mem_nil, not_false_eq_true, List.nodup_nil, and_true]
      omega
    · intro a ha b hb
      have := mem_childHandles_records ha
      have := mem_childHandles_records hb
      omega
    · intro a ha b hb
      simp only [List.mem_append, List.mem_cons, List.not_mem_nil, or_false] at ha hb
      rcases hb with hb | hb <;> have := mem_childHandles_records hb <;> omega

/-- Each record's children come after it, within the records of the tree. -/
theorem records_children {t : CodeTree} {base : Nat} {p : Node × Nat} (hp : p ∈ (t.records base).zipIdx base)
    {c : Nat} (hc : c ∈ p.1.children) : p.2 < c ∧ c < base + t.nodes := by
  induction t generalizing base with
  | leaf s =>
    simp only [CodeTree.records, List.zipIdx_cons, List.zipIdx_nil, List.mem_singleton] at hp
    subst hp
    simp [Node.children] at hc
  | node l r ihl ihr =>
    have hl := nodes_pos l
    have hr := nodes_pos r
    simp only [CodeTree.records, List.zipIdx_cons, List.zipIdx_append, records_length, List.mem_cons,
      List.mem_append] at hp
    simp only [CodeTree.nodes]
    rcases hp with rfl | hp | hp
    · simp only [Node.children, List.mem_cons, List.not_mem_nil, or_false] at hc
      omega
    · have := ihl hp
      omega
    · have := ihr hp
      omega

/-- The arena DESTREE leaves keeps R44. -/
theorem arenaWf_records (t : CodeTree) : arenaWf (t.records 0) := by
  refine ⟨.inr fun p hp c hc => ?_, childHandles_records_nodup t 0⟩
  have := records_children hp hc
  rw [records_length]
  omega

/-- The records of a tree, wherever they stand in an arena, hold that tree at their first handle. -/
theorem treeAt_records {t : CodeTree} {base fuel : Nat} {nodes : List Node} (hf : t.depth < fuel)
    (hn : ∀ i, i < t.nodes → nodes[base + i]? = (t.records base)[i]?) : treeAt nodes fuel base = some t := by
  induction t generalizing base fuel with
  | leaf s =>
    obtain ⟨f, rfl⟩ : ∃ f, fuel = f + 1 := ⟨fuel - 1, by omega⟩
    have h0 := hn 0 (by simp [CodeTree.nodes])
    simp only [Nat.add_zero, CodeTree.records, List.getElem?_cons_zero] at h0
    simp only [treeAt, h0]
  | node l r ihl ihr =>
    obtain ⟨f, rfl⟩ : ∃ f, fuel = f + 1 := ⟨fuel - 1, by omega⟩
    simp only [CodeTree.depth] at hf
    have h0 := hn 0 (by simp only [CodeTree.nodes]; omega)
    simp only [Nat.add_zero, CodeTree.records, List.getElem?_cons_zero] at h0
    have hl : treeAt nodes f (base + 1) = some l := by
      refine ihl (by omega) fun i hi => ?_
      have := hn (i + 1) (by simp only [CodeTree.nodes]; omega)
      rw [CodeTree.records, List.getElem?_cons_succ, List.getElem?_append_left (by simpa using hi)] at this
      rw [← this]
      congr 1
      omega
    have hr : treeAt nodes f (base + 1 + l.nodes) = some r := by
      refine ihr (by omega) fun i hi => ?_
      have := hn (l.nodes + i + 1) (by simp only [CodeTree.nodes]; omega)
      rw [CodeTree.records, List.getElem?_cons_succ, List.getElem?_append_right (by simp)] at this
      simp only [records_length, Nat.add_sub_cancel_left] at this
      rw [← this]
      congr 1
      omega
    simp only [treeAt, h0, hl, hr]

/-- The arena DESTREE leaves holds the tree at handle 0. -/
theorem tree?_of_records {s : State} {t : CodeTree} (hn : s.nodes = t.records 0) (hr : s.root = 0) :
    s.tree? = some t := by
  have hd := depth_lt_nodes t
  unfold State.tree?
  rw [hr]
  refine treeAt_records (by simpa [hn] using hd) fun i _ => ?_
  simp [hn]

end Sys2Proof.Machine
end

