-- ==== Sys2Proof/Tests/Slice0.lean ====
section
/-! SUPPORT. The model's own tests (expected values from the spec's vectors, 95_test_vectors.md, and its worked
examples), and a witness for each statement that has hypotheses. -/

namespace Sys2Proof.Tests

open Sys2Proof Sys2Proof.Machine

set_option Elab.async false

/-- The next state of an outcome, if there is one. -/
def nextOf : Host.Outcome State Fault Refusal → Option State
  | .next t => some t
  | .fault _ => none
  | .refused _ => none

/-- The state after a command, if it answers one. -/
def after (i : Instr) (s : State) : Option State := nextOf (exec i s)

theorem exists_next {o : Host.Outcome State Fault Refusal} {p : State → Bool} (h : (nextOf o).any p = true) :
    ∃ t, o = .next t ∧ p t = true := by
  cases o <;> simp_all [nextOf]

/-- The `n` bits of `v`, first bit the most significant. -/
def bitsN (n v : Nat) : Bits := (List.range n).map fun i => v.testBit (n - 1 - i)

/-- A reset state whose IN holds `bytes`. -/
def loaded (bytes : List Byte) : State :=
  { State.reset with
    inMem := bytes.zipIdx.map fun p => (p.2, p.1)
    inLen := BitVec.ofNat 32 bytes.length }

/-- A reset state with a frequency table. -/
def counted (freq : List (Nat × Word)) : State := { State.reset with freq := freq }

/-- A reset state with a built or read tree in the arena. -/
def treed (nodes : List Node) (root : Word) : State :=
  { State.reset with nodes := nodes, root := root, status := { Status.zero with vTree := true } }

/-- A reset state with a stream in SBITS and the cursor at `cur`. -/
def streamed (bits : Bits) (cur : Word) : State :=
  { State.reset with sbits := bits, cur := cur, status := { Status.zero with vSbits := true } }

/-- A reset state with a code table, and `bytes` in IN. -/
def coded (table : List (Nat × Bits)) (bytes : List Byte) : State :=
  { loaded bytes with code := table, status := { Status.zero with vCodes := true } }

/-- A stream and the tree of the arena `nodes` together. -/
def decodable (nodes : List Node) (bits : Bits) (cur : Word) : State :=
  { streamed bits cur with nodes := nodes, status := { Status.zero with vSbits := true, vTree := true } }

/-- "abracadabra" (R123). -/
def abra : List Byte := [0x61, 0x62, 0x72, 0x61, 0x63, 0x61, 0x64, 0x61, 0x62, 0x72, 0x61]

/-- Its frequencies (R123). -/
def abraFreq : List (Nat × Word) := [(0x61, 5), (0x62, 2), (0x63, 1), (0x64, 1), (0x72, 2)]

/-- Its code table (R156). -/
def abraCodes : List (Nat × Bits) :=
  [(0x61, bitsN 1 0b0), (0x62, bitsN 3 0b110), (0x63, bitsN 3 0b100), (0x64, bitsN 3 0b101), (0x72, bitsN 3 0b111)]

/-- Its compressed stream (R205). -/
def abraOut : List Byte := [0x58, 0x4B, 0x1D, 0x91, 0x62, 0xB9, 0x00, 0x37, 0x45, 0x6E]

/-- Node(Leaf a, Leaf b) as DESTREE numbers it (R171 (b)). -/
def abNodes : List Node := [.internal 1 2 0, .leaf 0x61 0, .leaf 0x62 0]

/-- Leaf a. -/
def aNodes : List Node := [.leaf 0x61 0]

/-- A tree whose deepest leaf is `n` edges down. -/
def chain : Nat → CodeTree
  | 0 => .leaf 0
  | n + 1 => .node (.leaf (BitVec.ofNat 8 (n + 1))) (chain n)

/-- A tree with every leaf `n` edges down. -/
def full : Nat → Nat → CodeTree
  | 0, v => .leaf (BitVec.ofNat 8 v)
  | n + 1, v => .node (full n (2 * v)) (full n (2 * v + 1))

/-! ### Well-formedness: each check refuses a term that fails it -/

/-- Capacities from their five values. -/
def caps (inMax outMax nodeMax xbitsMax sbitsMax : Nat) : Config.Capacities where
  inMax := inMax
  outMax := outMax
  nodeMax := nodeMax
  xbitsMax := xbitsMax
  sbitsMax := sbitsMax

theorem test_wf_suggested : Config.suggested.WellFormed := by decide
theorem test_wf_smallest : (caps 1 1 511 1 8).WellFormed := by decide
theorem test_wf_largest :
    (caps (2 ^ 29 - 1) (2 ^ 32 - 1) (2 ^ 24 - 1) (2 ^ 32 - 1) (2 ^ 32 - 8)).WellFormed := by decide
theorem test_wf_inMax_zero : ¬ (caps 0 1 511 1 8).WellFormed := by decide
theorem test_wf_inMax_large : ¬ (caps (2 ^ 29) 1 511 1 (2 ^ 32 - 8)).WellFormed := by decide
theorem test_wf_outMax_zero : ¬ (caps 1 0 511 1 8).WellFormed := by decide
theorem test_wf_outMax_large : ¬ (caps 1 (2 ^ 32) 511 1 8).WellFormed := by decide
theorem test_wf_nodeMax_even : ¬ (caps 1 1 512 1 8).WellFormed := by decide
theorem test_wf_nodeMax_small : ¬ (caps 1 1 509 1 8).WellFormed := by decide
theorem test_wf_nodeMax_large : ¬ (caps 1 1 (2 ^ 24 + 1) 1 8).WellFormed := by decide
theorem test_wf_xbitsMax_zero : ¬ (caps 1 1 511 0 8).WellFormed := by decide
theorem test_wf_xbitsMax_large : ¬ (caps 1 1 511 (2 ^ 32) 8).WellFormed := by decide
theorem test_wf_sbitsMax_ragged : ¬ (caps 1 1 511 1 9).WellFormed := by decide
theorem test_wf_sbitsMax_small : ¬ (caps 2 1 511 1 8).WellFormed := by decide
theorem test_wf_sbitsMax_large : ¬ (caps 1 1 511 1 (2 ^ 32)).WellFormed := by decide

/-- R102, R233: a word with a reserved bit set, and words with an op outside the map. -/
theorem test_word_refused :
    commandWordWellFormed 0x00000122 = false ∧ commandWordWellFormed 0x80000022 = false ∧
    commandWordWellFormed 0x00000000 = false ∧ commandWordWellFormed 0x00000023 = false ∧
    commandWordWellFormed 0xFFFFFFFF = false := by decide

theorem test_word_accepted : commandWordWellFormed 0x00000022 = true ∧ Instr.wellFormed .build = true := by decide

/-! ### Decoding: each command's word written from R101 -/

theorem test_decode_clr : decode 0b00000000000000000000000000000001#32 = .ok .clr := by decide
theorem test_decode_count : decode 0b00000000000000000000000000010000#32 = .ok .count := by decide
theorem test_decode_seed : decode 0b00000000000000000000000000100000#32 = .ok .seed := by decide
theorem test_decode_merge : decode 0b00000000000000000000000000100001#32 = .ok .merge := by decide
theorem test_decode_build : decode 0b00000000000000000000000000100010#32 = .ok .build := by decide
theorem test_decode_codes : decode 0b00000000000000000000000000110000#32 = .ok .codes := by decide
theorem test_decode_sertree : decode 0b00000000000000000000000001000000#32 = .ok .sertree := by decide
theorem test_decode_destree : decode 0b00000000000000000000000001000001#32 = .ok .destree := by decide
theorem test_decode_pack : decode 0b00000000000000000000000001010000#32 = .ok .pack := by decide
theorem test_decode_unpack : decode 0b00000000000000000000000001010001#32 = .ok .unpack := by decide
theorem test_decode_enctext : decode 0b00000000000000000000000001100000#32 = .ok .enctext := by decide
theorem test_decode_assemble : decode 0b00000000000000000000000001100001#32 = .ok .assemble := by decide
theorem test_decode_compress : decode 0b00000000000000000000000001100010#32 = .ok .compress := by decide
theorem test_decode_rdpad : decode 0b00000000000000000000000001110000#32 = .ok .rdpad := by decide
theorem test_decode_dectext : decode 0b00000000000000000000000001110001#32 = .ok .dectext := by decide
theorem test_decode_decompress : decode 0b00000000000000000000000001110010#32 = .ok .decompress := by decide

/-- R102: the illegal words of R233 and section 2.12. -/
theorem test_decode_illegal :
    decode 0x00000000 = .error (.unknownOpcode 0) ∧ decode 0x00000002 = .error (.unknownOpcode 2) ∧
    decode 0x000000FF = .error (.unknownOpcode 0xFF) ∧ decode 0x00000122 = .error .reservedBits := by decide

theorem test_decodeTableWord :
    decodeTableWord 32 0x62 = some .compress ∧ decodeTableWord 32 0x162 = none ∧
    decodeTableWord 8 0x62 = some .compress := by decide

/-! ### One step on small states, a vector of the spec each -/

/-- Section 2.1: COUNT of "abracadabra". -/
theorem test_count : (after .count (loaded abra)).map (·.freq) = some abraFreq := by decide +kernel

/-- Section 2.1: COUNT overwrites an entry the host wrote. -/
theorem test_count_overwrites :
    (after .count { loaded abra with freq := [(0x7A, 9)] }).map (·.freq) = some abraFreq := by decide +kernel

/-- R134: the queue of "abracadabra" after SEED. -/
theorem test_seed : (after .seed (counted abraFreq)).map (fun t => (t.pq, t.nodes.length, t.status.vTree)) =
    some ([2, 3, 1, 4, 0], 5, false) := by decide +kernel

/-- R132: SEED of the empty table. -/
theorem test_seed_empty : (after .seed (treed aNodes 0)).map (fun t => (t.err, t.nodes, t.status.vTree)) =
    some (some .emptyInput, [], false) := by decide +kernel

/-- R139, merge 1: the new node goes after the older nodes of equal weight. -/
theorem test_merge : ((after .seed (counted abraFreq)).bind (after .merge)).map (fun t => (t.pq, t.nodes[5]?)) =
    some ([1, 4, 5, 0], some (.internal 2 3 2)) := by decide +kernel

/-- Section 2.2, last row: the weight of a merge of two full counts has 33 bits. -/
theorem test_merge_weight :
    ((after .seed (counted [(0, 0xFFFFFFFF), (1, 0xFFFFFFFF)])).bind (after .merge)).map (fun t => (t.pq, t.root,
      readElement t 6 (4 * 2 ^ 24 + 2), readElement t 6 (5 * 2 ^ 24 + 2))) =
    some ([2], 2, 0xFFFFFFFE, 0x01) := by decide +kernel

/-- Section 2.2: BUILD of "mississippi". -/
theorem test_build : (after .build (counted [(0x69, 4), (0x6D, 1), (0x70, 2), (0x73, 4)])).map (fun t =>
    (t.nodes.drop 4, t.pq, t.root, statusWord t.status)) =
    some ([.internal 1 2 3, .internal 4 0 7, .internal 3 5 11], [6], 6, 0x0A) := by decide +kernel

/-- Section 2.2: one symbol needs no merge (R134). -/
theorem test_build_one : (after .build (counted [(0x61, 4)])).map (fun t => (t.nodes, t.pq, t.status.vTree)) =
    some ([.leaf 0x61 4], [0], true) := by decide +kernel

/-- R156: the code table of "abracadabra". -/
theorem test_codes : ((after .build (counted abraFreq)).bind (after .codes)).map (·.code) = some abraCodes := by
  decide +kernel

/-- R154: with a repeated symbol the later leaf wins. -/
theorem test_codes_repeated :
    (after .codes (treed [.internal 1 2 0, .leaf 0x61 0, .leaf 0x61 0] 0)).map (·.code) =
    some [(0x61, [true])] := by decide +kernel

/-- R163: the 49 bits of the "abracadabra" tree. -/
theorem test_sertree : ((after .build (counted abraFreq)).bind (after .sertree)).map (·.tbits) =
    some (bitsN 49 0b0101100001001011000111011001000101100010101110010) := by decide +kernel

/-- Section 2.4: no tree. -/
theorem test_sertree_no_tree : (after .sertree State.reset).map (fun t => regRead t 2) = some 6 := by decide +kernel

/-- R171 (b): DESTREE of 58 6C 40 61. -/
theorem test_destree : (after .destree (streamed (bitsN 32 0x586C4061) 0)).map (fun t => (t.nodes, t.root, t.cur)) =
    some (abNodes, 0, 19) := by decide +kernel

/-- Section 2.5: 63 zero bytes run out, 64 fill the arena. -/
theorem test_destree_zeros :
    (after .destree (streamed (List.replicate 504 false) 0)).map (·.err) = some (some .malformedTree) ∧
    (after .destree (streamed (List.replicate 512 false) 0)).map (·.err) = some (some .capacity) := by decide +kernel

/-- R183: PACK of 1011 0000 1000 0001 1000 0000. -/
theorem test_pack : (after .pack (streamed (bitsN 24 0xB08180) 0)).map (·.out) = some [0xB0, 0x81, 0x80] := by
  decide +kernel

/-- Section 2.6: more bytes than OUT holds. -/
theorem test_pack_capacity :
    (after .pack { streamed (bitsN 24 0xB08180) 0 with cap := caps 1 2 511 1 24 }).map (fun t => (t.out, t.err)) =
    some ([], some .capacity) := by decide +kernel

/-- R187: UNPACK of 58 6C 40 61. -/
theorem test_unpack : (after .unpack (loaded [0x58, 0x6C, 0x40, 0x61])).map (fun t => (t.sbits, t.cur)) =
    some (bitsN 32 0b01011000011011000100000001100001, 0) := by decide +kernel

/-- R194 (a): ENCTEXT of "abracadabra". -/
theorem test_enctext : (after .enctext (coded abraCodes abra)).map (·.xbits) =
    some (bitsN 23 0b01101110100010101101110) := by decide +kernel

/-- Section 2.7: a byte without a code. -/
theorem test_enctext_no_code :
    (after .enctext (coded [(0x61, [])] [0x61, 0x62])).map (fun t => (t.err, t.xbits, t.status.vXbits)) =
    some (some .noCode, [], false) := by decide +kernel

/-- R199 (a): ASSEMBLE of Leaf a and four zero bits. -/
theorem test_assemble : (after .assemble { State.reset with
      tbits := bitsN 9 0b101100001
      xbits := bitsN 4 0
      status := { Status.zero with vTbits := true, vXbits := true } }).map (fun t => (t.sbits, t.padCnt)) =
    some (bitsN 24 0xB08180, 3) := by decide +kernel

/-- R213 (a): RDPAD of B0 81 80 at 9. -/
theorem test_rdpad : (after .rdpad (streamed (bitsN 24 0xB08180) 9)).map (fun t => (t.padCnt, t.cur)) =
    some (3, 20) := by decide +kernel

/-- R213 (b), R212: a field of 8, and a cursor near 2^32. -/
theorem test_rdpad_corrupt :
    (after .rdpad (streamed (bitsN 24 0xB08400) 9)).map (fun t => (t.err, t.cur)) = some (some .corruptStream, 9) ∧
    (after .rdpad (streamed (bitsN 24 0xB08180) 0xFFFFFFFF)).map (fun t => (t.err, t.cur)) =
      some (some .corruptStream, 0xFFFFFFFF) := by decide +kernel

/-- Section 2.10: DECTEXT of 58 6C 40 61 at 30. -/
theorem test_dectext : (after .dectext (decodable abNodes (bitsN 32 0x586C4061) 30)).map (·.out) =
    some [0x61, 0x62] := by decide +kernel

/-- R219 (c): a 1 bit under a single-leaf root. -/
theorem test_dectext_leaf : (after .dectext (decodable aNodes (bitsN 4 0b0100) 0)).map (fun t => (t.err, t.out)) =
    some (some .corruptStream, []) := by decide +kernel

/-- R205 and P1: COMPRESS of "abracadabra". -/
theorem test_compress : (after .compress (loaded abra)).map (fun t => (t.out, statusWord t.status, t.root, t.padCnt)) =
    some (abraOut, 0xFA, 8, 0) := by decide +kernel

/-- P3: COMPRESS of "aaaa". -/
theorem test_compress_one : (after .compress (loaded [0x61, 0x61, 0x61, 0x61])).map (·.out) =
    some [0xB0, 0x81, 0x80] := by decide +kernel

/-- R225 (a): DECOMPRESS of the ten bytes. -/
theorem test_decompress : (after .decompress (loaded abraOut)).map (fun t => (t.out, t.cur, t.nodes.length)) =
    some (abra, 57, 9) := by decide +kernel

/-- R225 (h): the stream less its last three bytes. -/
theorem test_decompress_cut : (after .decompress (loaded (abraOut.take 7))).map (fun t =>
    (t.err, t.cur, t.out, statusWord t.status)) = some (some .corruptStream, 49, [], 0x8E) := by decide +kernel

/-- R231: STATUS after CLR, and what CLR keeps. -/
theorem test_clr : (after .clr { loaded abra with errAcc := 0x04, err := some .malformedTree, cur := 9 }).map (fun t =>
    (statusWord t.status, regRead t 2, t.errAcc, t.cur, t.inLen)) = some (0x02, 0, 0, 0, 11) := by decide +kernel

/-- P4: an illegal word after ERRACC 0x0A. -/
theorem test_illegal : (nextOf (illegalCommand { State.reset with errAcc := 0x0A })).map (fun t =>
    (regRead t 2, t.errAcc, statusWord t.status)) = some (5, 0x2A, 0x06) := by decide +kernel

/-! ### The port, and one step of the machine -/

/-- R71: CODELEN and CODEBITS of b in the "abracadabra" table (R156). -/
theorem test_port_code :
    readElement (coded abraCodes []) 5 0x62 = 0x103 ∧ readElement (coded abraCodes []) 4 (256 * 0x62 + 2) = 0 := by
  decide +kernel

/-- R26: an IN_LEN write above IN_MAX is ignored, one at IN_MAX is taken. -/
theorem test_port_inLen :
    (plainWrite State.reset (portAddr 0 4) 65537).inLen = 0 ∧
    (plainWrite State.reset (portAddr 0 4) 65536).inLen = 65536 := by decide +kernel

/-- R76, R42: a FREQ write, and a write of 0 over it. -/
theorem test_port_freq :
    (plainWrite State.reset (portAddr 3 0x61) 4).freq = [(0x61, 4)] ∧
    (plainWrite (counted [(0x61, 4)]) (portAddr 3 0x61) 0).freq = [] := by decide +kernel

/-- R21: registers 14 and above read 0. -/
theorem test_port_reg14 : readElement (loaded abra) 0 14 = 0 ∧ readElement (loaded abra) 0 4 = 11 := by decide +kernel

/-- A step on a fetched CLR word after reset (R231). -/
theorem test_step_clr : (nextOf (step (State.reset.withFetchWord 32 0x01))).map (fun t => (t.cmd, statusWord t.status)) =
    some (0x01, 0x02) := by decide +kernel

/-- A step on a fetched UNPACK word after reset: the empty stream is valid (R186). -/
theorem test_step_unpack : (nextOf (step (State.reset.withFetchWord 32 0x51))).map (fun t =>
    (t.cmd, statusWord t.status)) = some (0x51, 0x82) := by decide +kernel

/-! ### Witnesses: for each statement with hypotheses, a state and operands that meet all of them together -/

/-- The invariant as a few decidable checks. -/
theorem inv_of_check {s : State} (harena : arenaWf s.nodes)
    (hbounds : s.cap.WellFormed ∧ s.status.busy = false ∧ s.inLen.toNat ≤ s.cap.inMax ∧ s.out.length ≤ s.cap.outMax ∧
      s.nodes.length ≤ s.cap.nodeMax ∧ s.pq.length ≤ 256 ∧ s.padCnt.toNat ≤ 7)
    (hbits : s.tbits.length ≤ s.cap.tbitsMax ∧ s.xbits.length ≤ s.cap.xbitsMax ∧ s.sbits.length ≤ s.cap.sbitsMax ∧
      s.sbits.length % 8 = 0 ∧ (s.status.vTbits = false → s.tbits = []) ∧ (s.status.vXbits = false → s.xbits = []) ∧
      (s.status.vSbits = false → s.sbits = []))
    (htree : (s.status.vTree = false → s.root = 0) ∧ (s.status.vTree = true → s.root.toNat < s.nodes.length) ∧
      s.status.errf = s.err.isSome ∧ s.errAcc &&& 0xFFFFFF01#32 = 0)
    (hqueue : queueWf s.nodes s.pq)
    (hcodes : (s.status.vCodes = true → prefixFree s.code ∧ ∀ e ∈ s.code, e.2.length ≤ 255) ∧
      Cells.wf s.code ∧ ∀ e ∈ s.code, e.1 < 256)
    (hcells : Freq.wf s.freq ∧ Memory.wf s.inMem ∧ ∀ c ∈ s.inMem, c.1 < s.cap.inMax) : s.Inv := by
  obtain ⟨h1, h2, h3, h4, h5, h6, h7⟩ := hbounds
  obtain ⟨h8, h9, h10, h11, h12, h13, h14⟩ := hbits
  obtain ⟨h15, h16, h18, h19⟩ := htree
  exact ⟨h1, h2, h3, h4, h5, h6, h7, h8, h9, h10, h11, h12, h13, h14, h15, h16, harena, hqueue, h18, h19, hcodes.1,
    hcodes.2, hcells.1, hcells.2⟩

theorem inv_reset : State.reset.Inv := by apply inv_of_check <;> decide +kernel

theorem witness_DecodeAndEncodeAgree : decode 0x00000072 = .ok .decompress := by decide

/-- A legal word, and while BUSY is 1. -/
theorem witness_CommandWriteRunsDecodedCommand :
    (∃ s : State, s.host = .write cmdAddr 0x22 :: [] ∧ s.status.busy = false ∧ decode 0x22 = .ok .build ∧
      ∃ t, step s = .next t) ∧
    (∃ s : State, s.host = .write cmdAddr 0x122 :: [] ∧ s.status.busy = false ∧ decode 0x122 = .error .reservedBits) ∧
    (∃ s : State, s.host = .write cmdAddr 0x22 :: [] ∧ s.status.busy = true) :=
  ⟨⟨{ State.reset with host := [.write cmdAddr 0x22] }, rfl, rfl, by decide,
      (exists_next (p := fun _ => true) (by decide +kernel)).imp fun _ h => h.1⟩,
    ⟨{ State.reset with host := [.write cmdAddr 0x122] }, rfl, rfl, by decide⟩,
    ⟨{ State.reset with host := [.write cmdAddr 0x22], status := { Status.zero with busy := true } }, rfl, rfl⟩⟩

/-- One word for each reason a word is illegal. -/
theorem witness_IllegalWordOnlyReportsError :
    ∃ s s' : State, s.host = .write cmdAddr 0x00000122 :: [] ∧ s.status.busy = false ∧
      (0x00000122#32).extractLsb' 8 24 ≠ 0 ∧
      s'.host = .write cmdAddr 0x00000000 :: [] ∧ s'.status.busy = false ∧
      (0x00000000#32).extractLsb' 0 8 ∉ implementedOps :=
  ⟨{ State.reset with host := [.write cmdAddr 0x00000122] }, { State.reset with host := [.write cmdAddr 0x00000000] },
    rfl, rfl, by decide, rfl, rfl, by decide⟩

/-- MERGE with one handle queued is the boundary of R136. -/
theorem witness_SequenceErrorChangesNothing :
    commandReady .codes State.reset = false ∧ commandReady .merge { State.reset with pq := [0] } = false ∧
    ∃ t, exec .merge { State.reset with pq := [0] } = .next t ∧ t.err = some .sequence := by
  refine ⟨by decide, by decide, ?_⟩
  obtain ⟨t, h, ht⟩ := exists_next (p := fun t => t.err = some .sequence)
    (o := exec .merge { State.reset with pq := [0] }) (by decide +kernel)
  exact ⟨t, h, by simpa using ht⟩

theorem witness_EveryCommandReportsCompletion : ∃ t, exec .count (loaded abra) = .next t := ⟨_, rfl⟩

/-- A command, a step on an illegal word, and a step on a read with a bit of ERRACC set. -/
theorem witness_ErrAccAccumulatesUntilClr :
    (∃ t, exec .pack State.reset = .next t ∧ t.err ≠ none) ∧
    (∃ s t : State, step s = .next t ∧ s.host.head? ≠ some .reset ∧
      s.host.head? ≠ some (.write cmdAddr (encode .clr)) ∧ s.errAcc.getLsbD 7 = true ∧
      s.errAcc &&& 0xFFFFFF01#32 = 0) := by
  refine ⟨⟨_, rfl, by decide⟩, { State.reset with host := [.read cmdAddr], errAcc := 0x80 }, _, rfl, ?_, ?_, ?_, ?_⟩ <;> decide

theorem witness_NoCommandWritesInput : ∃ t, exec .unpack (loaded abra) = .next t := ⟨_, rfl⟩

theorem witness_CommandsKeepMemoriesOutsideTheirReach : ∃ t, exec .unpack (loaded abra) = .next t := ⟨_, rfl⟩

theorem witness_EveryCommandAnswers : State.reset.Inv := inv_reset

theorem witness_CountsAddUpToInputLength : (∃ t, exec .count (loaded abra) = .next t) ∧ (loaded abra).Inv :=
  ⟨⟨_, rfl⟩, by apply inv_of_check <;> decide +kernel⟩

/-- The empty table, and a table with the last symbol alone. -/
theorem witness_SeedRaisesOnlyOnEmptyTable :
    (∀ b, Freq.count State.reset.freq b = 0) ∧ Freq.count (counted [(255, 1)]).freq 255 ≠ 0 :=
  ⟨fun _ => rfl, by decide⟩

theorem witness_SeedMakesLeavesAndQueue :
    presentSymbols (counted [(255, 1)]).freq ≠ [] ∧ presentSymbols State.reset.freq = [] := by decide +kernel

/-- Two leaves queued (the last merge), three leaves queued, and one. -/
theorem witness_MergeJoinsTwoLeastNodes :
    ({ State.reset with nodes := [.leaf 0x61 2, .leaf 0x62 1], pq := [1, 0] } : State).Inv ∧
    ({ State.reset with nodes := [.leaf 0x61 2, .leaf 0x62 1, .leaf 0x63 1], pq := [1, 2, 0] } : State).Inv ∧
    ({ State.reset with nodes := [.leaf 0x61 2], pq := [0] } : State).pq.length < 2 :=
  ⟨by apply inv_of_check <;> decide +kernel, by apply inv_of_check <;> decide +kernel, by decide⟩

/-- The fewest and the most leaves. -/
theorem witness_MergesAfterSeedCompleteTheTree :
    (presentSymbols (counted [(0, 1), (255, 1)]).freq).length = 2 ∧
    (presentSymbols (counted ((List.range 256).map fun n => (n, 1))).freq).length = 256 := by decide +kernel

theorem witness_BuildLeavesValidTree :
    (∀ b, Freq.count State.reset.freq b = 0) ∧ presentSymbols (counted [(0x61, 4)]).freq = [0x61] ∧
    presentSymbols (counted [(0, 1), (255, 1)]).freq ≠ [] :=
  ⟨fun _ => rfl, by decide +kernel, by decide +kernel⟩

theorem witness_BuildRefinesAbstractMerging : presentSymbols (counted abraFreq).freq ≠ [] := by decide +kernel

/-- A tree as deep as a code may be long. -/
theorem witness_CodesTabulatesTheTree :
    (treed ((chain 255).records 0) 0).Inv ∧ (treed ((chain 255).records 0) 0).status.vTree = true ∧
    (treed ((chain 255).records 0) 0).tree? = some (chain 255) ∧ (chain 255).depth ≤ 255 :=
  ⟨by apply inv_of_check (arenaWf_records _) <;> decide +kernel, rfl, tree?_of_records rfl rfl, by decide +kernel⟩

/-- No tree, a tree one edge too deep, and a build. -/
theorem witness_CodesErrors :
    State.reset.status.vTree = false ∧
    ((treed ((chain 256).records 0) 0).status.vTree = true ∧
      (treed ((chain 256).records 0) 0).tree? = some (chain 256) ∧ 255 < (chain 256).depth) ∧
    ∃ t, runCommands [.build, .codes] (counted abraFreq) = .next t := by
  refine ⟨rfl, ⟨rfl, tree?_of_records rfl rfl, by decide +kernel⟩, ?_⟩
  exact (exists_next (p := fun _ => true) (by decide +kernel)).imp fun _ h => h.1

theorem witness_CodesArePrefixFreeAndComplete :
    ∃ t, exec .codes (treed abNodes 0) = .next t ∧ t.err = none ∧
      (Code.entry t.code 0x61 = some [false] ∧ Code.entry t.code 0x62 = some [true]) ∧
      (treed abNodes 0).tree? = some (.node (.leaf 0x61) (.leaf 0x62)) ∧
      (CodeTree.node (.leaf 0x61) (.leaf 0x62)).symbols.Nodup ∧ 2 ≤ (CodeTree.node (.leaf 0x61) (.leaf 0x62)).leaves := by
  obtain ⟨t, h, ht⟩ := exists_next (p := fun t => t.err = none ∧
    (Code.entry t.code 0x61 = some [false] ∧ Code.entry t.code 0x62 = some [true]))
    (o := exec .codes (treed abNodes 0)) (by decide +kernel)
  have ht := of_decide_eq_true ht
  exact ⟨t, h, ht.1, ht.2, by decide +kernel, by decide, by decide⟩

theorem witness_SertreeSerialisesTheTree :
    State.reset.status.vTree = false ∧ (treed abNodes 0).Inv ∧ (treed abNodes 0).status.vTree = true :=
  ⟨rfl, by apply inv_of_check <;> decide +kernel, rfl⟩

theorem witness_SerialisedTreeDelimitsItself :
    (chain 1).ser <+: (chain 1).ser ∧ (full 8 0).leaves = 256 := ⟨List.prefix_refl _, by decide +kernel⟩

theorem witness_ReadTreeInvertsSerialisation :
    (CodeTree.leaf 0x61).nodes ≤ 1 ∧
    readTree 1 (bitsN 16 0xB081) = .ok (.leaf 0x61, bitsN 7 1, 1) := by decide +kernel

/-- A tree and what follows it, and a tree that fills the smallest arena and the stream but for one bit. -/
theorem witness_DestreeReadsTreeAtCursor :
    ((streamed (bitsN 32 0x586C4061) 0).Inv ∧ (streamed (bitsN 32 0x586C4061) 0).streamFromCur =
      (CodeTree.node (.leaf 0x61) (.leaf 0x62)).ser ++ bitsN 13 97) ∧
    ((streamed ((full 8 0).ser ++ [false]) 0).Inv ∧
      (streamed ((full 8 0).ser ++ [false]) 0).streamFromCur = (full 8 0).ser ++ [false] ∧ (full 8 0).nodes = 511) :=
  ⟨⟨by apply inv_of_check <;> decide +kernel, by decide +kernel⟩, by apply inv_of_check <;> decide +kernel, rfl, by decide +kernel⟩

/-- An exhausted stream, a tree of 513 nodes in an arena of 511, and runs of zeros that just fit and just do not. -/
theorem witness_DestreeErrors :
    (∀ (tree : CodeTree) (rest : Bits), (streamed [] 0).streamFromCur ≠ tree.ser ++ rest) ∧
    ((streamed ((chain 256).ser ++ [false]) 0).streamFromCur = (chain 256).ser ++ [false] ∧
      Config.suggested.nodeMax < (chain 256).nodes) ∧
    (streamed (List.replicate 511 false) 0).streamFromCur = List.replicate 511 false ∧
    (streamed (List.replicate 512 false) 0).streamFromCur = List.replicate 512 false := by
  refine ⟨fun tree rest h => ?_, ⟨rfl, by decide +kernel⟩, rfl, rfl⟩
  cases tree <;> cases h

/-- No stream, a stream that just fits OUT, and one that just does not. -/
theorem witness_PackMakesBytesOfStream :
    State.reset.status.vSbits = false ∧
    ((streamed (bitsN 24 0xB08180) 0).sbits.length / 8 ≤ (caps 1 3 511 1 24).outMax ∧
      (streamed (bitsN 24 0xB08180) 0).status.vSbits = true) ∧
    (caps 1 2 511 1 24).outMax < (streamed (bitsN 24 0xB08180) 0).sbits.length / 8 := by decide +kernel

theorem witness_UnpackMakesStreamOfInput : (loaded abraOut).Inv := by apply inv_of_check <;> decide +kernel

theorem witness_PackAndUnpackAreInverse :
    (loaded abra).inLen.toNat ≤ (loaded abra).cap.outMax ∧ (bitsN 24 0xB08180).length % 8 = 0 := by decide +kernel

/-- An empty code, and text that just fits XBITS. -/
theorem witness_EnctextConcatenatesCodes :
    ∃ s : State, s.cap.xbitsMax = 2 ∧ s.status.vCodes = true ∧
      (∀ b ∈ inputBytes s, (Code.entry s.code b).isSome = true) ∧ textLength s.code (inputBytes s) ≤ s.cap.xbitsMax :=
  ⟨{ coded [(0x61, [])] [0x61, 0x61] with cap := caps 2 1 511 2 16 }, rfl, rfl, by decide +kernel, by decide +kernel⟩

/-- No table, a second byte without a code, a second byte without room, and a COMPRESS. -/
theorem witness_EnctextErrors :
    State.reset.status.vCodes = false ∧
    (∃ s : State, s.status.vCodes = true ∧ inputBytes s = [0x61] ++ 0x62 :: [] ∧
      (∀ c ∈ [0x61], (Code.entry s.code c).isSome = true) ∧ textLength s.code [0x61] ≤ s.cap.xbitsMax ∧
      Code.entry s.code 0x62 = none) ∧
    (∃ s : State, s.status.vCodes = true ∧ inputBytes s = [0x61] ++ 0x61 :: [] ∧
      (∀ c ∈ [0x61], (Code.entry s.code c).isSome = true) ∧ textLength s.code [0x61] ≤ s.cap.xbitsMax ∧
      (Code.entry s.code 0x61).isSome = true ∧ s.cap.xbitsMax < textLength s.code [0x61] + pieceLength s.code 0x61) ∧
    ∃ t, exec .compress (loaded [0x61]) = .next t := by
  refine ⟨rfl, ⟨coded [(0x61, [])] [0x61, 0x62], ?_⟩,
    ⟨{ coded [(0x61, [])] [0x61, 0x61] with cap := caps 2 1 511 1 16 }, ?_⟩, ?_⟩
  · decide +kernel
  · decide +kernel
  · exact (exists_next (p := fun _ => true) (by decide +kernel)).imp fun _ h => h.1

/-- A missing part, a stream that just fits SBITS, and one that just does not. -/
theorem witness_AssembleBuildsPaddedStream :
    (State.reset.status.vTbits = false ∨ State.reset.status.vXbits = false) ∧
    ∃ s : State, s.status.vTbits = true ∧ s.status.vXbits = true ∧
      s.tbits.length + 8 + padCount s.tbits.length s.xbits.length + s.xbits.length = (caps 3 1 511 4 24).sbitsMax ∧
      (caps 2 1 511 4 16).sbitsMax < s.tbits.length + 8 + padCount s.tbits.length s.xbits.length + s.xbits.length :=
  ⟨.inl rfl, { State.reset with
    tbits := bitsN 9 0b101100001
    xbits := bitsN 4 0
    status := { Status.zero with vTbits := true, vXbits := true } }, by decide +kernel⟩

/-- No padding, and seven bits of padding that end the stream. -/
theorem witness_RdpadSkipsFieldAndPadding :
    ((streamed (bitsN 24 0xB08000) 9).Inv ∧ (streamed (bitsN 24 0xB08000) 9).streamFromCur =
      bits8 (BitVec.ofNat 8 0) ++ [] ++ bitsN 7 0) ∧
    ((streamed (bitsN 24 0xB08380) 9).Inv ∧ (streamed (bitsN 24 0xB08380) 9).streamFromCur =
      bits8 (BitVec.ofNat 8 7) ++ bitsN 7 0 ++ []) :=
  ⟨⟨by apply inv_of_check <;> decide +kernel, by decide +kernel⟩, by apply inv_of_check <;> decide +kernel, by decide +kernel⟩

/-- No stream, seven bits left, a field of 8, and padding cut by one bit (section 2.9). -/
theorem witness_RdpadErrors :
    State.reset.status.vSbits = false ∧
    ((streamed (bitsN 16 0xB081) 9).status.vSbits = true ∧
      (streamed (bitsN 16 0xB081) 9).sbits.length < (streamed (bitsN 16 0xB081) 9).cur.toNat + 8) ∧
    (streamed (bitsN 24 0xB08400) 9).streamFromCur = bits8 8 ++ bitsN 7 0 ∧ 7 < (8 : Byte).toNat ∧
    (streamed (bitsN 32 0x586C40E1) 19).streamFromCur = bits8 7 ++ bitsN 5 1 ∧ (bitsN 5 1).length < (7 : Byte).toNat := by
  decide +kernel

/-- Two symbols, and no text with the cursor at the end. -/
theorem witness_DectextDecodesLeafPaths :
    (∃ s : State, s.status.vSbits = true ∧ s.status.vTree = true ∧ s.cur.toNat ≤ s.sbits.length ∧
      s.tree? = some (.node (.leaf 0x61) (.leaf 0x62)) ∧
      (∀ p ∈ [([false], 0x61#8), ([true], 0x62#8)], p ∈ (CodeTree.node (.leaf 0x61) (.leaf 0x62)).paths) ∧
      s.streamFromCur = [([false], 0x61#8), ([true], 0x62#8)].flatMap Prod.fst ∧ 2 ≤ s.cap.outMax) ∧
    (decodable abNodes (bitsN 32 0x586C4061) 32).streamFromCur = [] :=
  ⟨⟨decodable abNodes (bitsN 32 0x586C4061) 30, by decide +kernel⟩, by decide +kernel⟩

/-- Four zeros, a one after a zero, and one zero more than OUT holds. -/
theorem witness_DectextUnderLeafRoot :
    (∃ s : State, s.status.vSbits = true ∧ s.status.vTree = true ∧ s.cur.toNat ≤ s.sbits.length ∧
      s.tree? = some (.leaf 0x61) ∧ s.streamFromCur = List.replicate 4 false ∧ 4 ≤ s.cap.outMax) ∧
    (∃ s : State, s.status.vSbits = true ∧ s.status.vTree = true ∧ s.cur.toNat ≤ s.sbits.length ∧
      s.tree? = some (.leaf 0x61) ∧ s.streamFromCur = List.replicate 1 false ++ true :: [false, false] ∧
      1 ≤ s.cap.outMax) ∧
    (∃ s : State, s.status.vSbits = true ∧ s.status.vTree = true ∧ s.cur.toNat ≤ s.sbits.length ∧
      s.tree? = some (.leaf 0x61) ∧ s.streamFromCur = List.replicate 4 false ++ [] ∧ s.cap.outMax < 4) :=
  ⟨⟨decodable aNodes (bitsN 4 0b0000) 0, by decide +kernel⟩, ⟨decodable aNodes (bitsN 4 0b0100) 0, by decide +kernel⟩,
    ⟨{ decodable aNodes (bitsN 4 0b0000) 0 with cap := caps 1 3 511 1 8 }, by decide +kernel⟩⟩

/-- No flags, a cursor one past the end, one symbol more than OUT holds, and text that ends inside a path. -/
theorem witness_DectextErrors :
    State.reset.status.vSbits = false ∧
    (decodable abNodes (bitsN 32 0x586C4061) 32).sbits.length <
      (decodable abNodes (bitsN 32 0x586C4061) 33).cur.toNat ∧
    (∃ s : State, s.status.vSbits = true ∧ s.status.vTree = true ∧
      s.tree? = some (.node (.leaf 0x61) (.leaf 0x62)) ∧
      (∀ p ∈ [([false], 0x61#8)], p ∈ (CodeTree.node (.leaf 0x61) (.leaf 0x62)).paths) ∧
      s.streamFromCur = [([false], 0x61#8)].flatMap Prod.fst ++ [true] ∧
      (∃ p ∈ (CodeTree.node (.leaf 0x61) (.leaf 0x62)).paths, p.1 <+: [true]) ∧ s.cap.outMax = 1) ∧
    (∃ s : State, s.status.vSbits = true ∧ s.status.vTree = true ∧
      s.tree? = some (.node (.leaf 0) (.node (.leaf 1) (.leaf 2))) ∧
      (∀ p ∈ [([false], 0#8)], p ∈ (CodeTree.node (.leaf 0) (.node (.leaf 1) (.leaf 2))).paths) ∧
      s.streamFromCur = [([false], 0#8)].flatMap Prod.fst ++ [true] ∧
      (∀ p ∈ (CodeTree.node (.leaf 0) (.node (.leaf 1) (.leaf 2))).paths, ¬ p.1 <+: [true]) ∧ 1 ≤ s.cap.outMax) :=
  ⟨rfl, by decide +kernel,
    ⟨{ decodable abNodes (bitsN 32 0x586C4061) 30 with cap := caps 1 1 511 1 8 }, by decide +kernel⟩,
    ⟨decodable ((CodeTree.node (.leaf 0) (.node (.leaf 1) (.leaf 2))).records 0) [false, true] 0, by decide +kernel⟩⟩

theorem witness_CompressRefusesEmptyInput : State.reset.inLen = 0 := rfl

/-- One byte with room, and one byte in the smallest block. -/
theorem witness_CompressErrors :
    (loaded [0x61]).inLen ≠ 0 ∧ ({ loaded [0x61] with cap := caps 1 1 511 1 8 } : State).inLen ≠ 0 := by decide

theorem witness_CompressMakesTheEncodedStream :
    (loaded abra).inLen ≠ 0 ∧ 255 * (loaded abra).inLen.toNat ≤ (loaded abra).cap.xbitsMax ∧
    255 * (loaded abra).inLen.toNat + 2574 ≤ (loaded abra).cap.sbitsMax ∧
    255 * (loaded abra).inLen.toNat + 2574 ≤ 8 * (loaded abra).cap.outMax := by decide +kernel

theorem witness_CompressEqualsItsStages : ∃ t, exec .compress (loaded abra) = .next t ∧ t.err = none := by
  obtain ⟨t, h, ht⟩ := exists_next (p := fun t => t.err = none) (o := exec .compress (loaded abra)) (by decide +kernel)
  exact ⟨t, h, by simpa using ht⟩

/-- Five symbols, and one. -/
theorem witness_CompressResult :
    (∃ t, exec .compress (loaded abra) = .next t ∧ t.err = none) ∧
    (allSymbols.filter fun b => (inputBytes (loaded abra)).contains b).length = 5 ∧
    (∃ t, exec .compress (loaded [0x61]) = .next t ∧ t.err = none) ∧
    (allSymbols.filter fun b => (inputBytes (loaded [0x61])).contains b).length = 1 := by
  refine ⟨witness_CompressEqualsItsStages, by decide +kernel, ?_, by decide +kernel⟩
  obtain ⟨t, h, ht⟩ := exists_next (p := fun t => t.err = none) (o := exec .compress (loaded [0x61])) (by decide +kernel)
  exact ⟨t, h, by simpa using ht⟩

/-- The same input after a CODES, with another byte past IN_LEN. -/
theorem witness_CompressDependsOnInputAlone :
    ∃ s₁ s₂ t₁ t₂ : State, s₁ ≠ s₂ ∧ s₁.cap = s₂.cap ∧ inputBytes s₁ = inputBytes s₂ ∧
      exec .compress s₁ = .next t₁ ∧ exec .compress s₂ = .next t₂ := by
  obtain ⟨t₁, h₁, -⟩ := exists_next (p := fun _ => true) (o := exec .compress (loaded [0x61])) (by decide +kernel)
  obtain ⟨t₂, h₂, -⟩ := exists_next (p := fun _ => true)
    (o := exec .compress { coded abraCodes [0x61, 0x62] with inLen := 1 }) (by decide +kernel)
  exact ⟨loaded [0x61], { coded abraCodes [0x61, 0x62] with inLen := 1 }, t₁, t₂, by decide +kernel, rfl,
    by decide +kernel, h₁, h₂⟩

theorem witness_DecompressEqualsItsStages : ∃ t, exec .decompress (loaded abraOut) = .next t ∧ t.err = none := by
  obtain ⟨t, h, ht⟩ := exists_next (p := fun t => t.err = none) (o := exec .decompress (loaded abraOut))
    (by decide +kernel)
  exact ⟨t, h, by simpa using ht⟩

/-- An empty input, a cut tree and a bad field. -/
theorem witness_DecompressErrors :
    State.reset.inLen = 0 ∧ (∃ t, exec .decompress (loaded [0xB0]) = .next t ∧ t.err = some .malformedTree) ∧
    ∃ t, exec .decompress (loaded [0xB0, 0x84, 0x00]) = .next t ∧ t.err = some .corruptStream := by
  refine ⟨rfl, ?_, ?_⟩
  · obtain ⟨t, h, ht⟩ := exists_next (p := fun t => t.err = some .malformedTree)
      (o := exec .decompress (loaded [0xB0])) (by decide +kernel)
    exact ⟨t, h, by simpa using ht⟩
  · obtain ⟨t, h, ht⟩ := exists_next (p := fun t => t.err = some .corruptStream)
      (o := exec .decompress (loaded [0xB0, 0x84, 0x00])) (by decide +kernel)
    exact ⟨t, h, by simpa using ht⟩

/-- Text that just fits OUT, with padding that is not zero (section 2.10, B0 81 C0). -/
theorem witness_DecompressResult :
    ∃ s : State, s.cap.WellFormed ∧ s.inLen.toNat ≤ s.cap.inMax ∧
      unpackBytes (inputBytes s) = (CodeTree.leaf 0x61).ser ++ (bits8 (BitVec.ofNat 8 3) ++ (bitsN 3 0b100 ++ bitsN 4 0)) ∧
      (bitsN 3 0b100).length = 3 ∧ (CodeTree.leaf 0x61).nodes ≤ s.cap.nodeMax ∧
      decodeText (.leaf 0x61) s.cap.outMax (bitsN 4 0) = .ok [0x61, 0x61, 0x61, 0x61] :=
  ⟨{ loaded [0xB0, 0x81, 0xC0] with cap := caps 3 4 511 4 24 }, by decide +kernel⟩

/-- P3: "aaaa" there and back. -/
theorem witness_CompressedInputDecompressesToItself :
    ∃ s t s' : State, s.cap.WellFormed ∧ exec .compress s = .next t ∧ t.err = none ∧ s'.cap = s.cap ∧
      t.out.length ≤ s.cap.inMax ∧ s'.inLen.toNat = t.out.length ∧
      (∀ i, i < t.out.length → Cells.read? s'.inMem i = t.out[i]?) ∧ s.inLen.toNat ≤ s.cap.outMax := by
  obtain ⟨t, h, ht⟩ := exists_next (p := fun t => t.err = none ∧ t.out = [0xB0, 0x81, 0x80])
    (o := exec .compress (loaded [0x61, 0x61, 0x61, 0x61])) (by decide +kernel)
  have ht := of_decide_eq_true ht
  refine ⟨_, t, loaded [0xB0, 0x81, 0x80], ?_, h, ht.1, rfl, ?_⟩
  · decide
  · rw [ht.2]
    decide +kernel

/-- R224's silent case: 58 6C 40 A0 55 55 less its last byte. -/
theorem witness_TruncatedStreamGivesErrorOrProperPrefix :
    ∃ s t s' : State, s.cap.WellFormed ∧ exec .compress s = .next t ∧ t.err = none ∧ s'.cap = s.cap ∧
      t.out.length ≤ s.cap.inMax ∧ s'.inLen.toNat = t.out.length - 1 ∧
      (∀ i, i < t.out.length - 1 → Cells.read? s'.inMem i = t.out[i]?) := by
  obtain ⟨t, h, ht⟩ := exists_next (p := fun t => t.err = none ∧ t.out = [0x58, 0x6C, 0x40, 0xA0, 0x55, 0x55])
    (o := exec .compress (loaded ((List.replicate 8 [0x61, 0x62]).flatten))) (by decide +kernel)
  have ht := of_decide_eq_true ht
  refine ⟨_, t, loaded [0x58, 0x6C, 0x40, 0xA0, 0x55], ?_, h, ht.1, rfl, ?_⟩
  · decide
  · rw [ht.2]
    decide +kernel

/-- The last index of IN, the first past it, and an unimplemented space. -/
theorem witness_ResetClearsRegistersAndCounts :
    (65535#32).toNat < Config.suggested.inMax ∧ ¬ (65536#32).toNat < Config.suggested.inMax ∧ 11 ≤ (11#4).toNat := by
  decide

theorem witness_ResetHasInvariant : (caps 1 1 511 1 8).WellFormed := test_wf_smallest

theorem witness_EveryStepKeepsInvariant :
    ∃ s t : State, s.Inv ∧ s.host ≠ [] ∧ step s = .next t :=
  ⟨{ loaded abra with host := [.write cmdAddr 0x10] }, _, by apply inv_of_check <;> decide +kernel, by decide, rfl⟩

/-- A step on a buffer that is valid and one that is empty. -/
theorem witness_BufferLengthsFollowFlags :
    (∃ s t : State, s.sbits ≠ [] ∧ (s.status.vTbits = false → s.tbits = []) ∧
      (s.status.vXbits = false → s.xbits = []) ∧ (s.status.vSbits = false → s.sbits = []) ∧
      s.sbits.length % 8 = 0 ∧ step s = .next t) ∧
    State.reset.inLen = 0 ∧ ((coded abraCodes []).inLen = 0 ∧ (coded abraCodes []).status.vCodes = true) :=
  ⟨⟨{ streamed (bitsN 24 0xB08180) 0 with host := [.write cmdAddr 0x50] }, _, by decide, fun _ => rfl, fun _ => rfl,
      fun h => (Bool.noConfusion h), by decide, rfl⟩, rfl, rfl, rfl⟩

theorem witness_ResetInputGivesResetState : ({ loaded abra with host := [.reset] } : State).host = .reset :: [] := rfl

theorem witness_HostReadsHaveNoSideEffect :
    ({ loaded abra with host := [.read (portAddr 1 0)] } : State).host = .read (portAddr 1 0) :: [] := rfl

/-- The last byte of IN, the last FREQ entry, IN_LEN, CUR, a read-only register and an unimplemented space. -/
theorem witness_HostWritesChangeOneElement :
    (∃ s : State, s.status.busy = false ∧ s.Inv ∧ s.host = .write (portAddr 1 65535) 0xFF :: []) ∧
    portAddr 1 65535 ≠ cmdAddr ∧ portAddr 3 255 ≠ cmdAddr ∧ portAddr 0 4 ≠ cmdAddr ∧ portAddr 0 6 ≠ cmdAddr ∧
    portAddr 0 1 ≠ cmdAddr ∧ portAddr 15 0xFFFFFFFF ≠ cmdAddr :=
  ⟨⟨{ loaded abra with host := [.write (portAddr 1 65535) 0xFF] }, rfl, by apply inv_of_check <;> decide +kernel, rfl⟩,
    by decide +kernel⟩

theorem witness_BusyBlockIgnoresWrites :
    ∃ s : State, s.host = .write (portAddr 0 6) 1 :: [] ∧ s.status.busy = true :=
  ⟨{ State.reset with host := [.write (portAddr 0 6) 1], status := { Status.zero with busy := true } }, rfl, rfl⟩

/-- Something held in every memory. -/
theorem witness_HostReadsShowTheState :
    ∃ s : State, s.Inv ∧ Cells.read? s.inMem 10 = some 0x61 ∧ s.out[2]? = some 0x80 ∧
      s.nodes[2]? = some (.internal 0 1 0x1FFFFFFFE) ∧ s.nodes[1]? = some (.leaf 1 0xFFFFFFFF) ∧
      s.tbits[0]? = some true ∧ s.xbits[3]? = some false ∧ s.sbits[23]? = some false ∧ s.pq[0]? = some 2 ∧
      s.status.vCodes = true ∧ Code.entry s.code 0x62 = some (bitsN 3 0b110) :=
  ⟨{ coded abraCodes abra with
      out := [0xB0, 0x81, 0x80]
      nodes := [.leaf 0 0xFFFFFFFF, .leaf 1 0xFFFFFFFF, .internal 0 1 0x1FFFFFFFE]
      pq := [2]
      tbits := bitsN 9 0b101100001
      xbits := bitsN 4 0
      sbits := bitsN 24 0xB08180
      status := { Status.zero with vCodes := true, vTbits := true, vXbits := true, vSbits := true } },
    by apply inv_of_check <;> decide +kernel, by decide, rfl, rfl, rfl, rfl, rfl, rfl, rfl, rfl, by decide⟩

/-- An index inside IN and the first outside it, the first bit past a code, a symbol without one, an unimplemented space,
a table without its flag, and a busy block. -/
theorem witness_UnspecifiedReadsAreFree :
    (∃ s : State, s.status.busy = false ∧ (65535#32).toNat < s.cap.inMax ∧ Cells.read? s.inMem (65535#32).toNat = none ∧
      s.cap.inMax ≤ (65536#32).toNat ∧ s.out.length ≤ (0#32).toNat ∧ s.nodes.length ≤ (0#32).toNat % 2 ^ 24 ∧
      6 ≤ (0x06000000#32).toNat / 2 ^ 24 ∧ s.tbits.length ≤ (0#32).toNat ∧ s.xbits.length ≤ (0#32).toNat ∧
      s.sbits.length ≤ (0#32).toNat ∧ s.pq.length ≤ (0#32).toNat ∧ 11 ≤ (11#4).toNat ∧ 256 ≤ (256#32).toNat ∧
      65536 ≤ (65536#32).toNat ∧ s.status.vCodes = true ∧ Code.entry s.code 0 = none ∧
      Code.entry s.code 0x62 = some (bitsN 3 0b110) ∧ (bitsN 3 0b110).length ≤ 3) ∧
    State.reset.status.vCodes = false ∧
    ({ State.reset with status := { Status.zero with busy := true } } : State).status.busy = true :=
  ⟨⟨coded abraCodes [], by decide +kernel⟩, rfl, rfl⟩

end Sys2Proof.Tests
end

section
/-! Every command is `runCommand` of one stage, so what all commands share is said once: what lies on the host's
side, what they report, and how they start. -/

namespace Sys2Proof.Machine

/-- The stage whose run is the command (R85). -/
def commandStage : Instr → State → StageResult
  | .clr => clrStage
  | .count => countStage
  | .seed => seedStage
  | .merge => mergeStage
  | .build => buildStage
  | .codes => codesStage
  | .sertree => sertreeStage
  | .destree => destreeStage
  | .pack => packStage
  | .unpack => unpackStage
  | .enctext => enctextStage
  | .assemble => assembleStage
  | .compress => compressStage
  | .rdpad => rdpadStage
  | .dectext => dectextStage
  | .decompress => decompressStage

theorem exec_eq_runCommand (i : Instr) (s : State) : exec i s = runCommand (commandStage i) s := by
  cases i <;> rfl

/-- CLR's stage touches ERRACC, and nothing else of the host's side or of the report (R230). -/
theorem clrStage_sameSide (s : State) : (clrStage s).Leaves (SameSide { s with errAcc := 0 }) := by
  constructor <;> rfl

/-- No stage touches the host's side or the report, but CLR's clears ERRACC. -/
theorem commandStage_sameSide (i : Instr) (s : State) :
    (commandStage i s).Leaves (SameSide { s with errAcc := if i = .clr then 0 else s.errAcc }) :=
  match i with
  | .clr => clrStage_sameSide s
  | .count => countStage_sameSide s
  | .seed => seedStage_sameSide s
  | .merge => mergeStage_sameSide s
  | .build => buildStage_sameSide s
  | .codes => codesStage_sameSide s
  | .sertree => sertreeStage_sameSide s
  | .destree => destreeStage_sameSide s
  | .pack => packStage_sameSide s
  | .unpack => unpackStage_sameSide s
  | .enctext => enctextStage_sameSide s
  | .assemble => assembleStage_sameSide s
  | .compress => compressStage_sameSide s
  | .rdpad => rdpadStage_sameSide s
  | .dectext => dectextStage_sameSide s
  | .decompress => decompressStage_sameSide s

/-- A command that answers next ends the run of its stage, without error or, if it is not CLR, with one. -/
theorem exec_eq_next_cases {i : Instr} {s t : State} (h : exec i s = .next t) :
    (∃ u, commandStage i (startCommand s) = .done u ∧ t = completeCommand u) ∨
    (∃ e u, i ≠ .clr ∧ commandStage i (startCommand s) = .raised e u ∧ t = takeError e u) := by
  rw [exec_eq_runCommand, runCommand_eq_next_iff] at h
  refine h.imp_right fun ⟨e, u, hu, ht⟩ => ⟨e, u, ?_, hu, ht⟩
  rintro rfl
  exact StageResult.noConfusion hu

/-- What a command's stage leaves of a started command, the command leaves up to its report. -/
theorem exec_leaves {i : Instr} {s t : State} {p : State → Prop} (h : exec i s = .next t)
    (hp : (commandStage i (startCommand s)).Leaves p) :
    ∃ u, p u ∧ (t = completeCommand u ∨ ∃ e, t = takeError e u) :=
  runCommand_leaves (exec_eq_runCommand i s ▸ h) hp

/-- No command writes CMD (R22). -/
theorem exec_cmd {i : Instr} {s t : State} (h : exec i s = .next t) : t.cmd = s.cmd := by
  obtain ⟨u, hu, rfl | ⟨e, rfl⟩⟩ := exec_leaves h (commandStage_sameSide i _) <;> exact hu.cmd

/-- The report of a command that ends (R25): ERRACC is kept where there is no error, and else it gains the error's bit;
CLR ends without error and clears it. -/
theorem exec_err_errAcc {i : Instr} {s t : State} (h : exec i s = .next t) :
    (t.err = none ∧ t.errAcc = if i = .clr then 0 else s.errAcc) ∨
    (∃ e, i ≠ .clr ∧ t.err = some e ∧ t.errAcc = s.errAcc ||| e.accBit) := by
  have hside := commandStage_sameSide i (startCommand s)
  rcases exec_eq_next_cases h with ⟨u, hu, rfl⟩ | ⟨e, u, hi, hu, rfl⟩ <;> rw [hu] at hside
  · exact .inl ⟨hside.err, hside.errAcc⟩
  · refine .inr ⟨e, hi, rfl, ?_⟩
    have hacc : u.errAcc = s.errAcc := by simpa [hi] using hside.errAcc
    simp [hacc]

end Sys2Proof.Machine
end

section
/-! A word that decodes is the word of its command (R101, R102), and taking a CMD write (R22). -/

namespace Sys2Proof.Machine

/-- A row of the opcode map holds its command's word, under a `rsv` field of 0 (R101). -/
theorem encode_of_mem_opcodeMap : ∀ row ∈ opcodeMap, encode row.2 = (0 : BitVec 24) ++ row.1 := by decide

/-- A command word is its two fields (R100). -/
theorem rsvField_append_opField (w : Word) : rsvField w ++ opField w = w :=
  (BitVec.extractLsb'_append_extractLsb'_eq_extractLsb' rfl).trans BitVec.extractLsb'_eq_self

/-- Only the word of a command decodes to it. -/
theorem eq_encode_of_decode {w : Word} {i : Instr} (h : decode w = .ok i) : w = encode i := by
  unfold decode at h
  split at h
  · rename_i hrsv
    split at h
    · rename_i row hrow
      obtain rfl : row.2 = i := Except.ok.inj h
      have hop : row.1 = opField w := by simpa using List.find?_some hrow
      rw [encode_of_mem_opcodeMap row (List.mem_of_find?_eq_some hrow), hop, ← hrsv, rsvField_append_opField]
    · cases h
  · cases h

/-- While the block is idle a step takes a CMD write by accepting the command (R22). -/
theorem step_command {s : State} {w : Word} {rest : List HostOp} (hh : s.host = .write cmdAddr w :: rest)
    (hb : s.status.busy = false) : step s = acceptCommand (taken s rest) w := by
  simp [step_cons hh, transact, hb]

/-- Accepting a word runs the command it decodes to (R22). -/
theorem acceptCommand_of_ok {s : State} {w : Word} {i : Instr} (h : decode w = .ok i) :
    acceptCommand s w = exec i { s with cmd := w } := by simp only [acceptCommand, h]

/-- Accepting a word that encodes no command runs the illegal command (R102). -/
theorem acceptCommand_of_error {s : State} {w : Word} {e : DecodeError} (h : decode w = .error e) :
    acceptCommand s w = illegalCommand { s with cmd := w } := by simp only [acceptCommand, h]

/-- An accepted word stays in CMD (R22). -/
theorem acceptCommand_cmd {s t : State} {w : Word} (h : acceptCommand s w = .next t) : t.cmd = w := by
  cases hd : decode w with
  | ok i =>
    rw [acceptCommand_of_ok hd] at h
    exact exec_cmd h
  | error e =>
    rw [acceptCommand_of_error hd, illegalCommand_eq, Host.Outcome.next.injEq] at h
    subst h
    rfl

/-- While the block is busy a step drops a write (R86). -/
theorem step_write_busy {s : State} {a : PortAddr} {v : Word} {rest : List HostOp} (hh : s.host = .write a v :: rest)
    (hb : s.status.busy = true) : step s = .next (taken s rest) := by
  simp [step_cons hh, transact, hb]

/-- Settles O3: the write is accepted by `acceptCommand`, and no command writes CMD. -/
theorem commandWriteRunsDecodedCommand : Obligations.CommandWriteRunsDecodedCommand := by
  refine ⟨fun s w rest hh hb => ?_, fun s hb => portRead_idle hb 0 0, fun s w rest hh hb => step_write_busy hh hb,
    fun c => ⟨rfl, step_idle rfl⟩⟩
  rw [step_command hh hb]
  exact ⟨fun i hd => acceptCommand_of_ok hd, fun e hd => acceptCommand_of_error hd, fun t ht => acceptCommand_cmd ht⟩

end Sys2Proof.Machine
end

section
/-! ERRACC over commands and steps (R25). -/

namespace Sys2Proof.Machine

/-- The bit an error sets is none of the reserved ones. -/
theorem accBit_and_reserved (e : ErrorKind) : e.accBit &&& 0xFFFFFF01#32 = 0 := by cases e <;> decide

/-- ERR shows the code of the error (R24). -/
theorem errWord_toNat (e : ErrorKind) : (errWord (some e)).toNat = e.code := by cases e <;> rfl

/-- An error is reported by another command than CLR, and its bit of ERRACC is set. -/
theorem exec_errAcc_of_err {i : Instr} {s t : State} {e : ErrorKind} (h : exec i s = .next t) (he : t.err = some e) :
    i ≠ .clr ∧ t.errAcc = s.errAcc ||| e.accBit := by
  rcases exec_err_errAcc h with ⟨hnone, -⟩ | ⟨e', hi, he', hacc⟩
  · simp [hnone] at he
  · obtain rfl : e' = e := Option.some.inj (he' ▸ he)
    exact ⟨hi, hacc⟩

/-- A command without error leaves ERRACC as it is, but CLR clears it. -/
theorem exec_errAcc_of_no_err {i : Instr} {s t : State} (h : exec i s = .next t) (he : t.err = none) :
    t.errAcc = if i = .clr then 0 else s.errAcc := by
  rcases exec_err_errAcc h with ⟨-, hacc⟩ | ⟨e, -, he', -⟩
  · exact hacc
  · simp [he'] at he

/-- A plain write never reaches ERRACC (R21). -/
@[simp] theorem plainWrite_errAcc (s : State) (a : PortAddr) (v : Word) : (plainWrite s a v).errAcc = s.errAcc := by
  rw [plainWrite_fields]

/-- What a step can do to ERRACC: keep it, clear it by a reset or a CLR, or add the bit of an error. -/
theorem step_errAcc {s t : State} (h : step s = .next t) :
    t.errAcc = s.errAcc ∨
    (t.errAcc = 0 ∧ (s.host.head? = some .reset ∨ s.host.head? = some (.write cmdAddr (encode .clr)))) ∨
    (∃ e : ErrorKind, t.errAcc = s.errAcc ||| e.accBit) := by
  rcases step_cases s with ⟨-, hs⟩ | ⟨a, rest, -, hs⟩ | ⟨rest, hh, hs⟩ | ⟨a, v, rest, -, -, hs⟩ |
    ⟨a, v, rest, -, -, -, hs⟩ | ⟨w, rest, i, hh, -, hd, hs⟩ | ⟨w, rest, e, -, -, -, hs⟩ <;> rw [hs] at h
  case inr.inr.inr.inr.inr.inl =>
    rcases exec_err_errAcc h with ⟨-, hacc⟩ | ⟨e, -, -, hacc⟩
    · by_cases hi : i = .clr
      · subst hi
        exact .inr (.inl ⟨hacc, .inr (by simp [hh, eq_encode_of_decode hd])⟩)
      · exact .inl (by simpa [hi] using hacc)
    · exact .inr (.inr ⟨e, hacc⟩)
  all_goals obtain rfl := Host.Outcome.next.inj h
  · exact .inl rfl
  · exact .inl rfl
  · exact .inr (.inl ⟨rfl, .inl (by simp [hh])⟩)
  · exact .inl rfl
  · exact .inl (by simp)
  · exact .inr (.inr ⟨.illegalCommand, rfl⟩)

/-- Settles O7: what a command and what a step can do to ERRACC, and the codes of the seven error kinds. -/
theorem errAccAccumulatesUntilClr : Obligations.ErrAccAccumulatesUntilClr := by
  refine ⟨fun i s t h => ?_, fun i s t h hne => ?_, fun s => ⟨rfl, rfl, rfl, rfl, rfl, rfl, rfl, rfl⟩,
    illegalCommand_eq, fun s t h hreset hclr n hn => ?_, fun s t h hres => ?_, fun s => rfl, fun c => rfl⟩
  · cases he : t.err with
    | none => exact exec_errAcc_of_no_err h he
    | some e =>
      obtain ⟨hi, hacc⟩ := exec_errAcc_of_err h he
      rw [if_neg hi, hacc]
      rfl
  · obtain ⟨e, he⟩ := Option.ne_none_iff_exists'.mp hne
    have hcode : (regRead t 2).toNat = e.code := by rw [← errWord_toNat e, ← he]; rfl
    obtain ⟨-, hacc⟩ := exec_errAcc_of_err h he
    rw [hacc, hcode, ErrorKind.accBit]
  · rcases step_errAcc h with hacc | ⟨-, hhead | hhead⟩ | ⟨e, hacc⟩
    · rwa [hacc]
    · exact absurd hhead hreset
    · exact absurd hhead hclr
    · rw [hacc, BitVec.getLsbD_or, hn, Bool.true_or]
  · rcases step_errAcc h with hacc | ⟨hacc, -⟩ | ⟨e, hacc⟩ <;> rw [hacc]
    · exact hres
    · decide
    · rw [BitVec.and_or_distrib_right, hres, accBit_and_reserved, BitVec.or_self]

end Sys2Proof.Machine
end

section
/-! Every stage keeps the bit buffers in step with their flags (R34). -/

namespace Sys2Proof.Machine

/-- A bit buffer is empty while its flag is 0, and SBITS is a whole number of bytes (R34). -/
def BuffersGuarded (s : State) : Prop :=
  (s.status.vTbits = false → s.tbits = []) ∧ (s.status.vXbits = false → s.xbits = []) ∧
    (s.status.vSbits = false → s.sbits = []) ∧ s.sbits.length % 8 = 0

/-- An empty SBITS needs no flag. -/
theorem buffersGuarded_of_sbits_nil {s : State} (ht : s.status.vTbits = false → s.tbits = [])
    (hx : s.status.vXbits = false → s.xbits = []) (hs : s.sbits = []) : BuffersGuarded s :=
  ⟨ht, hx, fun _ => hs, by simp [hs]⟩

theorem buffersGuarded_resetWith (c : Config.Capacities) : BuffersGuarded (State.resetWith c) :=
  buffersGuarded_of_sbits_nil (fun _ => rfl) (fun _ => rfl) rfl

section
variable {s : State} (h : BuffersGuarded s)
include h

theorem seedStage_buffersGuarded : (seedStage s).Leaves BuffersGuarded := by
  rcases seedStage_cases s with ⟨-, hs⟩ | ⟨-, hs⟩ <;> rw [hs] <;> exact h

theorem mergeStage_buffersGuarded : (mergeStage s).Leaves BuffersGuarded := by
  rcases mergeStage_cases s with ⟨-, hs⟩ | ⟨a, b, rest, -, -, hs⟩ | ⟨-, -, hs⟩ <;> rw [hs]
  · exact h
  · rw [mergeTop_eq]
    exact h
  · trivial

theorem mergeLoop_buffersGuarded (fuel : Nat) : (mergeLoop fuel s).Leaves BuffersGuarded := by
  induction fuel generalizing s with
  | zero => exact h
  | succ fuel ih =>
    rw [mergeLoop]
    split
    · exact (mergeStage_buffersGuarded h).andThen fun _ ht => ih ht
    · exact h

theorem buildStage_buffersGuarded : (buildStage s).Leaves BuffersGuarded :=
  (seedStage_buffersGuarded h).andThen fun _ ht => mergeLoop_buffersGuarded ht _

theorem codesStage_buffersGuarded : (codesStage s).Leaves BuffersGuarded := by
  rcases codesStage_cases s with ⟨-, hs⟩ | ⟨-, -, hs⟩ | ⟨_, _, -, -, -, hs⟩ | ⟨_, _, -, -, -, hs⟩ <;> rw [hs]
  · exact h
  · trivial
  · exact h
  · exact h

theorem sertreeStage_buffersGuarded : (sertreeStage s).Leaves BuffersGuarded := by
  obtain ⟨-, hx, hsb⟩ := id h
  rcases sertreeStage_cases s with ⟨-, hs⟩ | ⟨-, -, hs⟩ | ⟨_, -, -, hs⟩ <;> rw [hs]
  · exact h
  · trivial
  · exact ⟨Bool.noConfusion, hx, hsb⟩

theorem destreeStage_buffersGuarded : (destreeStage s).Leaves BuffersGuarded := by
  rcases destreeStage_cases s with ⟨-, hs⟩ | ⟨_, -, -, hs⟩ | ⟨_, _, _, -, -, hs⟩ <;> rw [hs] <;> exact h

theorem packStage_buffersGuarded : (packStage s).Leaves BuffersGuarded := by
  rcases packStage_cases s with ⟨-, hs⟩ | ⟨-, -, hs⟩ | ⟨-, -, hs⟩ <;> rw [hs] <;> exact h

/-- UNPACK leaves eight bits for each byte (R184). -/
theorem unpackStage_buffersGuarded : (unpackStage s).Leaves BuffersGuarded := by
  obtain ⟨ht, hx, -⟩ := h
  exact ⟨ht, hx, Bool.noConfusion, by simp⟩

theorem enctextStage_buffersGuarded : (enctextStage s).Leaves BuffersGuarded := by
  obtain ⟨ht, -, hsb⟩ := id h
  rcases enctextStage_cases s with ⟨-, hs⟩ | ⟨_, -, -, hs⟩ | ⟨_, -, -, hs⟩ <;> rw [hs]
  · exact h
  · exact ⟨ht, fun _ => rfl, hsb⟩
  · exact ⟨ht, Bool.noConfusion, hsb⟩

/-- ASSEMBLE pads the stream to a whole number of bytes (R196). -/
theorem assembleStage_buffersGuarded : (assembleStage s).Leaves BuffersGuarded := by
  obtain ⟨ht, hx, -⟩ := id h
  rcases assembleStage_cases s with ⟨-, hs⟩ | ⟨-, -, -, hs⟩ | ⟨-, -, -, hs⟩ <;> rw [hs]
  · exact h
  · exact buffersGuarded_of_sbits_nil ht hx rfl
  · exact ⟨ht, hx, Bool.noConfusion, by simpa using padCount_aligns s.tbits.length s.xbits.length⟩

theorem rdpadStage_buffersGuarded : (rdpadStage s).Leaves BuffersGuarded := by
  rcases rdpadStage_cases s with ⟨-, hs⟩ | ⟨-, hs⟩ | ⟨_, -, -, -, -, hs⟩ <;> rw [hs] <;> exact h

theorem dectextStage_buffersGuarded : (dectextStage s).Leaves BuffersGuarded := by
  rcases dectextStage_cases s with ⟨-, hs⟩ | ⟨-, -, -, hs⟩ | ⟨-, -, hs⟩ | ⟨_, _, -, -, -, -, -, hs⟩ |
    ⟨_, _, -, -, -, -, -, hs⟩ <;> rw [hs]
  · exact h
  · exact h
  · trivial
  · exact h
  · exact h

theorem requireInput_buffersGuarded : (requireInput s).Leaves BuffersGuarded := by
  unfold requireInput
  split <;> exact h

theorem decompressStage_buffersGuarded : (decompressStage s).Leaves BuffersGuarded := by
  obtain ⟨ht, hx, -⟩ := h
  have hstart : BuffersGuarded (decompressStart s) := buffersGuarded_of_sbits_nil ht hx rfl
  exact (((unpackStage_buffersGuarded hstart).andThen fun _ => destreeStage_buffersGuarded).andThen
    fun _ => rdpadStage_buffersGuarded).andThen fun _ => dectextStage_buffersGuarded

end

/-- COMPRESS empties every buffer at its start (R200), whatever they held. -/
theorem compressStage_buffersGuarded (s : State) : (compressStage s).Leaves BuffersGuarded := by
  have hcount : (countStage (compressStart s)).Leaves BuffersGuarded :=
    buffersGuarded_of_sbits_nil (fun _ => rfl) (fun _ => rfl) rfl
  exact ((((((hcount.andThen fun _ => requireInput_buffersGuarded).andThen fun _ => buildStage_buffersGuarded).andThen
    fun _ => codesStage_buffersGuarded).andThen fun _ => enctextStage_buffersGuarded).andThen
    fun _ => sertreeStage_buffersGuarded).andThen fun _ => assembleStage_buffersGuarded).andThen
    fun _ => packStage_buffersGuarded

theorem commandStage_buffersGuarded (i : Instr) {s : State} (h : BuffersGuarded s) :
    (commandStage i s).Leaves BuffersGuarded :=
  match i with
  | .clr => buffersGuarded_of_sbits_nil (fun _ => rfl) (fun _ => rfl) rfl
  | .count => h
  | .seed => seedStage_buffersGuarded h
  | .merge => mergeStage_buffersGuarded h
  | .build => buildStage_buffersGuarded h
  | .codes => codesStage_buffersGuarded h
  | .sertree => sertreeStage_buffersGuarded h
  | .destree => destreeStage_buffersGuarded h
  | .pack => packStage_buffersGuarded h
  | .unpack => unpackStage_buffersGuarded h
  | .enctext => enctextStage_buffersGuarded h
  | .assemble => assembleStage_buffersGuarded h
  | .compress => compressStage_buffersGuarded s
  | .rdpad => rdpadStage_buffersGuarded h
  | .dectext => dectextStage_buffersGuarded h
  | .decompress => decompressStage_buffersGuarded h

/-- Every command keeps the buffers guarded. -/
theorem exec_buffersGuarded {i : Instr} {s t : State} (hs : BuffersGuarded s) (h : exec i s = .next t) :
    BuffersGuarded t := by
  have hstart : BuffersGuarded (startCommand s) := hs
  obtain ⟨u, hu, rfl | ⟨e, rfl⟩⟩ := exec_leaves h (commandStage_buffersGuarded i hstart) <;> exact hu

/-- Every step keeps the buffers guarded. -/
theorem step_buffersGuarded {s t : State} (hg : BuffersGuarded s) (h : step s = .next t) : BuffersGuarded t := by
  rcases step_cases s with ⟨-, hs⟩ | ⟨a, rest, -, hs⟩ | ⟨rest, -, hs⟩ | ⟨a, v, rest, -, -, hs⟩ |
    ⟨a, v, rest, -, -, -, hs⟩ | ⟨w, rest, i, -, -, -, hs⟩ | ⟨w, rest, e, -, -, -, hs⟩ <;> rw [hs] at h
  case inr.inr.inr.inr.inr.inl =>
    have htaken : BuffersGuarded { taken s rest with cmd := w } := hg
    exact exec_buffersGuarded htaken h
  all_goals obtain rfl := Host.Outcome.next.inj h
  · exact hg
  · exact hg
  · exact buffersGuarded_resetWith s.cap
  · exact hg
  · rw [plainWrite_fields]
    exact hg
  · exact hg

/-- The input is empty where IN_LEN is 0 (R26). -/
theorem inputBytes_eq_nil {s : State} (h : s.inLen = 0) : inputBytes s = [] := by simp [inputBytes, h]

/-- UNPACK of an empty input leaves a valid and empty stream (R186). -/
theorem exec_unpack_empty {s : State} (h : s.inLen = 0) :
    ∃ t, exec .unpack s = .next t ∧ t.status.vSbits = true ∧ t.sbits = [] := by
  refine ⟨_, runCommand_of_done (unpackStage_eq _), rfl, ?_⟩
  change unpackBytes (inputBytes (startCommand s)) = []
  rw [inputBytes_startCommand, inputBytes_eq_nil h, unpackBytes_nil]

/-- ENCTEXT of an empty input leaves a valid and empty text (R193). -/
theorem exec_enctext_empty {s : State} (h : s.inLen = 0) (hv : s.status.vCodes = true) :
    ∃ t, exec .enctext s = .next t ∧ t.status.vXbits = true ∧ t.xbits = [] := by
  have hstage : enctextStage (startCommand s) = .done { startCommand s with
      xbits := [], status := { (startCommand s).status with vXbits := true } } := by
    simp [enctextStage, inputBytes_eq_nil h, encodeText, hv]
  exact ⟨_, runCommand_of_done hstage, rfl, rfl⟩

/-- Settles O54: every stage keeps the buffers guarded, hence every step does. -/
theorem bufferLengthsFollowFlags : Obligations.BufferLengthsFollowFlags :=
  ⟨buffersGuarded_resetWith, fun _ _ => step_buffersGuarded, fun _ => exec_unpack_empty, fun _ => exec_enctext_empty⟩

end Sys2Proof.Machine
end

section
/-! The length of a serialised tree and its node count, and that a serialised tree ends where its own bits say (R108). -/

namespace Sys2Proof.Machine

theorem leaves_pos (t : CodeTree) : 0 < t.leaves := by
  induction t with
  | leaf s => exact Nat.one_pos
  | node l r ihl _ => exact Nat.add_pos_left ihl _

/-- A leaf takes 9 bits and an internal node one, and there is one internal node less than there are leaves (R108). -/
theorem ser_length_succ (t : CodeTree) : t.ser.length + 1 = 10 * t.leaves := by
  induction t with
  | leaf s => simp [CodeTree.ser, CodeTree.leaves]
  | node l r ihl ihr =>
    simp only [CodeTree.ser, CodeTree.leaves, List.length_cons, List.length_append]
    omega

theorem nodes_succ (t : CodeTree) : t.nodes + 1 = 2 * t.leaves := by
  induction t with
  | leaf s => rfl
  | node l r ihl ihr =>
    simp only [CodeTree.nodes, CodeTree.leaves]
    omega

/-- A serialised tree can be cut off a stream in one way only, whatever bits follow it. -/
theorem ser_append_inj {t u : CodeTree} {a b : Bits} (h : t.ser ++ a = u.ser ++ b) : t = u ∧ a = b := by
  induction t generalizing u a b with
  | leaf s =>
    cases u with
    | leaf s' =>
      obtain ⟨-, htail⟩ := List.cons.inj h
      obtain ⟨hbits, hrest⟩ := List.append_inj htail (by simp)
      exact ⟨congrArg CodeTree.leaf (bits8_injective hbits), hrest⟩
    | node l r => simp [CodeTree.ser] at h
  | node l r ihl ihr =>
    cases u with
    | leaf s => simp [CodeTree.ser] at h
    | node l' r' =>
      have htail : l.ser ++ (r.ser ++ a) = l'.ser ++ (r'.ser ++ b) := by simpa [CodeTree.ser] using h
      obtain ⟨rfl, hright⟩ := ihl htail
      obtain ⟨rfl, hrest⟩ := ihr hright
      exact ⟨rfl, hrest⟩

/-- Settles O24: the two counts by induction on the tree, and self-delimitation from cutting it off in one way only. -/
theorem serialisedTreeDelimitsItself : Obligations.SerialisedTreeDelimitsItself := by
  refine ⟨fun t => ?_, fun t u ⟨rest, h⟩ => ?_, fun b => ?_, fun t h => ?_⟩
  · have hpos := leaves_pos t
    have hser := ser_length_succ t
    have hnodes := nodes_succ t
    omega
  · exact (ser_append_inj (h.trans (List.append_nil u.ser).symm)).1
  · simp [CodeTree.ser]
  · have hser := ser_length_succ t
    omega

end Sys2Proof.Machine
end

section
/-! The word of a command decodes to it (R101). -/

namespace Sys2Proof.Machine

/-- The word of every row of the opcode map decodes to the row's command (R101). -/
theorem decode_encode (i : Instr) : decode (encode i) = .ok i := by cases i <;> decide

/-- Settles O1: a row's word is `encode` of its command, and the three illegal words are evaluated. -/
theorem tableWordsDecode : Obligations.TableWordsDecode :=
  ⟨decode_encode .clr, decode_encode .count, decode_encode .seed, decode_encode .merge, decode_encode .build,
    decode_encode .codes, decode_encode .sertree, decode_encode .destree, decode_encode .pack, decode_encode .unpack,
    decode_encode .enctext, decode_encode .assemble, decode_encode .compress, decode_encode .rdpad,
    decode_encode .dectext, decode_encode .decompress, by decide, by decide, by decide⟩

end Sys2Proof.Machine
end

section
/-! COUNT tabulates the input (R120): each FREQ entry is the number of times its symbol occurs, so the entries add up to
IN_LEN (R121). -/

namespace Sys2Proof.Machine

/-- Counting a list of bytes into canonical FREQ adds to each entry the occurrences of its symbol, modulo 2^32. -/
theorem Freq.count_foldl_bumpCount (bytes : List Byte) {f : List (Nat × Word)} (h : Freq.wf f) (b : Byte) :
    Freq.count (bytes.foldl bumpCount f) b = Freq.count f b + BitVec.ofNat 32 (bytes.count b) := by
  induction bytes generalizing f with
  | nil => simp
  | cons x rest ih =>
    rw [List.foldl_cons, ih (f := bumpCount f x) (Freq.wf_set h x _), bumpCount, Freq.count_set h.1]
    by_cases hx : x = b
    · subst hx
      rw [if_pos rfl, List.count_cons_self, BitVec.add_assoc, Nat.add_comm, BitVec.ofNat_add]
      rfl
    · rw [if_neg hx, List.count_cons_of_ne hx]

/-- COUNT always completes, and writes FREQ only (R120). -/
theorem exec_count (s : State) :
    exec .count s = .next { reportDone s with freq := (inputBytes s).foldl bumpCount [] } := by
  have h := runCommand_of_done (countStage_eq (startCommand s))
  rwa [inputBytes_startCommand] at h

/-- A symbol occurs at most as often as the input is long (R121). -/
theorem inputBytes_count_le (s : State) (b : Byte) : (inputBytes s).count b ≤ s.inLen.toNat :=
  inputBytes_length s ▸ List.count_le_length

/-- No entry wraps, because a symbol occurs at most IN_LEN times (R121). -/
theorem exec_count_freq {s t : State} (h : exec .count s = .next t) (b : Byte) :
    (Freq.count t.freq b).toNat = (inputBytes s).count b := by
  obtain rfl := Host.Outcome.next.inj ((exec_count s).symm.trans h)
  have hlt : (inputBytes s).count b < 2 ^ 32 := (inputBytes_count_le s b).trans_lt s.inLen.isLt
  rw [Freq.count_foldl_bumpCount _ ⟨.nil, by simp⟩, Freq.count_nil, zero_add, BitVec.toNat_ofNat,
    Nat.mod_eq_of_lt hlt]

/-- Occurrences in the input are positions of IN below IN_LEN (R26). -/
theorem inputBytes_count (s : State) (b : Byte) :
    (inputBytes s).count b = ((List.range s.inLen.toNat).filter fun i => s.inByte i == b).length := by
  rw [inputBytes, List.count, List.countP_map, List.countP_eq_length_filter]
  rfl

/-- Settles O11: COUNT is a fold over the input that adds one to an entry for each occurrence of its symbol. -/
theorem countTabulatesInput : Obligations.CountTabulatesInput :=
  ⟨by decide, fun s => ⟨_, exec_count s, fun b => (exec_count_freq (exec_count s) b).trans (inputBytes_count s b), rfl⟩⟩

theorem allSymbols_nodup : allSymbols.Nodup :=
  List.nodup_range.map_on fun a ha b hb hab => by
    have ha' := List.mem_range.mp ha
    have hb' := List.mem_range.mp hb
    simpa [Nat.mod_eq_of_lt ha', Nat.mod_eq_of_lt hb'] using congrArg BitVec.toNat hab

/-- The occurrences of all elements of a list without repetition that lists every element add up to the length. -/
theorem sum_map_count_of_complete {α : Type} [DecidableEq α] {symbols : List α} (hnodup : symbols.Nodup)
    (hall : ∀ a, a ∈ symbols) (l : List α) : (symbols.map l.count).sum = l.length := by
  rw [← List.sum_toFinset _ hnodup]
  simpa using Multiset.sum_count_eq_card (m := (l : Multiset α)) fun a _ => List.mem_toFinset.mpr (hall a)

/-- Settles O12: the entries are the occurrences in the input, whose length the invariant bounds by IN_MAX < 2^29. -/
theorem countsAddUpToInputLength : Obligations.CountsAddUpToInputLength := by
  intro s t h
  have hfreq := exec_count_freq h
  refine ⟨?_, fun b => ?_, fun hinv b => ?_⟩
  · simp only [freqTotal, hfreq]
    exact (sum_map_count_of_complete allSymbols_nodup mem_allSymbols _).trans (inputBytes_length s)
  · rw [hfreq, List.count_pos_iff]
  · have hle := inputBytes_count_le s b
    obtain ⟨⟨-, hmax⟩, -⟩ := hinv.cap
    have hlen := hinv.inLen
    rw [hfreq]
    omega

end Sys2Proof.Machine
end

section
/-! The symbols present in FREQ, and the leaves SEED makes of them (R42, R131, R132). -/

namespace Sys2Proof.Machine

/-- A symbol is present exactly where its count is not 0 (R42). -/
theorem mem_presentSymbols {freq : List (Nat × Word)} {b : Byte} :
    b ∈ presentSymbols freq ↔ Freq.count freq b ≠ 0 := by
  simp [presentSymbols, mem_allSymbols]

/-- The empty table is the one with every count 0 (R132). -/
theorem presentSymbols_eq_nil_iff {freq : List (Nat × Word)} :
    presentSymbols freq = [] ↔ ∀ b, Freq.count freq b = 0 := by
  simp [List.eq_nil_iff_forall_not_mem, mem_presentSymbols]

/-- There are 256 symbols to be present. -/
theorem presentSymbols_length_le (freq : List (Nat × Word)) : (presentSymbols freq).length ≤ 256 :=
  (List.length_filter_le _ _).trans_eq (by simp [allSymbols])

/-- One leaf per symbol present, its weight the count (R131). -/
theorem seedLeaves_eq (freq : List (Nat × Word)) :
    seedLeaves freq = (presentSymbols freq).map fun b => .leaf b ((Freq.count freq b).setWidth 40) := by
  rw [seedLeaves, presentSymbols, ← List.filterMap_eq_map, List.filterMap_filter]
  congr 1
  funext b
  by_cases hb : Freq.count freq b = 0 <;> simp [hb]

@[simp] theorem seedLeaves_length (freq : List (Nat × Word)) :
    (seedLeaves freq).length = (presentSymbols freq).length := by
  simp [seedLeaves_eq]

theorem seedLeaves_eq_nil_iff {freq : List (Nat × Word)} : seedLeaves freq = [] ↔ presentSymbols freq = [] := by
  simp [seedLeaves_eq]

/-- SEED queues every handle it made (R131). -/
theorem seedQueue_perm (nodes : List Node) : (seedQueue nodes).Perm (List.range nodes.length) :=
  foldr_enqueue_perm nodes _

@[simp] theorem seedQueue_length (nodes : List Node) : (seedQueue nodes).length = nodes.length := by
  simpa using (seedQueue_perm nodes).length_eq

/-- SEED's stage on the empty table (R132). -/
theorem seedStage_of_empty {s : State} (h : presentSymbols s.freq = []) :
    seedStage s = .raised .emptyInput (dropTree s) := by
  rcases seedStage_cases s with ⟨-, hs⟩ | ⟨hne, -⟩
  · exact hs
  · exact absurd (seedLeaves_eq_nil_iff.mpr h) hne

/-- SEED's stage where some symbol is present (R131, R134). -/
theorem seedStage_of_present {s : State} (h : presentSymbols s.freq ≠ []) :
    seedStage s = .done { dropTree s with
      nodes := seedLeaves s.freq
      pq := seedQueue (seedLeaves s.freq)
      status := { s.status with vTree := decide ((seedLeaves s.freq).length = 1) } } := by
  rcases seedStage_cases s with ⟨hnil, -⟩ | ⟨-, hs⟩
  · exact absurd (seedLeaves_eq_nil_iff.mp hnil) h
  · exact hs

/-- SEED on the empty table (R132). -/
theorem exec_seed_of_empty {s : State} (h : presentSymbols s.freq = []) :
    exec .seed s = .next (reportError .emptyInput (dropTree s)) :=
  (runCommand_of_raised (seedStage_of_empty (s := startCommand s) h)).trans rfl

/-- SEED where some symbol is present (R131, R134). -/
theorem exec_seed_of_present {s : State} (h : presentSymbols s.freq ≠ []) :
    exec .seed s = .next { reportDone s with
      nodes := seedLeaves s.freq
      pq := seedQueue (seedLeaves s.freq)
      root := 0
      status := { (reportDone s).status with vTree := decide ((seedLeaves s.freq).length = 1) } } :=
  runCommand_of_done (seedStage_of_present (s := startCommand s) h)

/-- Settles O13: SEED's stage raises an error on the empty table only. -/
theorem seedRaisesOnlyOnEmptyTable : Obligations.SeedRaisesOnlyOnEmptyTable :=
  ⟨fun _ h => exec_seed_of_empty (presentSymbols_eq_nil_iff.mpr h),
    fun _ _ hb => ⟨_, exec_seed_of_present (List.ne_nil_of_mem (mem_presentSymbols.mpr hb)), rfl⟩⟩

/-- Settles O14: the leaves are those of the symbols present, and sorting their handles by insertion permutes them. -/
theorem seedMakesLeavesAndQueue : Obligations.SeedMakesLeavesAndQueue :=
  ⟨rfl, fun _ h => exec_seed_of_empty h, fun s h => ⟨_, exec_seed_of_present h, seedLeaves_eq s.freq,
    seedQueue_perm _, foldr_enqueue_pairwise _ List.nodup_range, rfl⟩⟩

end Sys2Proof.Machine
end

section
/-! MERGE (R135): the two least nodes become the children of a new one, which is queued. -/

namespace Sys2Proof.Machine

/-- MERGE with fewer than two handles queued (R136). -/
theorem exec_merge_of_short {s : State} (h : s.pq.length < 2) : exec .merge s = .next (reportError .sequence s) := by
  rcases mergeStage_cases (startCommand s) with ⟨-, hs⟩ | ⟨a, b, rest, hpq, -, -⟩ | ⟨hle, -, -⟩
  · exact (runCommand_of_raised hs).trans rfl
  · simp only [startCommand_fields] at hpq
    simp [hpq] at h
  · exact absurd hle (Nat.not_le.mpr h)

/-- MERGE's stage with two handles or more queued, each with a record (R135). -/
theorem mergeStage_of_cons {s : State} {a b : Nat} {rest : List Nat} (hpq : s.pq = a :: b :: rest)
    (hall : ∀ h ∈ s.pq, h < s.nodes.length) : mergeStage s = .done (mergeTop a b rest s) := by
  rcases mergeStage_cases s with ⟨hlt, -⟩ | ⟨a', b', rest', hpq', -, hs⟩ | ⟨-, ⟨h, hh, hle⟩, -⟩
  · simp [hpq] at hlt
  · obtain ⟨rfl, rfl, rfl⟩ : a' = a ∧ b' = b ∧ rest' = rest := by simpa [hpq] using hpq'.symm
    exact hs
  · exact absurd (hall h hh) (Nat.not_lt.mpr hle)

/-- A new record queued in a queue in key order keeps the order, now by the grown arena's keys (R135). -/
theorem enqueue_new_pairwise {nodes : List Node} {pq : List Nat} (n : Node) (hall : ∀ h ∈ pq, h < nodes.length)
    (hord : pq.Pairwise (keyBelow nodes)) :
    (enqueue (nodes ++ [n]) nodes.length pq).Pairwise (keyBelow (nodes ++ [n])) :=
  enqueue_pairwise (hord.imp_of_mem fun ha hb h => (keyBelow_append (hall _ ha) (hall _ hb)).mpr h)
    fun hm => Nat.lt_irrefl _ (hall _ hm)

/-- Settles O15: the invariant gives every queued handle a record and bounds the sum of the queued weights, so that the
new weight does not wrap. -/
theorem mergeJoinsTwoLeastNodes : Obligations.MergeJoinsTwoLeastNodes := by
  refine ⟨rfl, fun s h => exec_merge_of_short h, fun s a b rest hinv hpq => ?_⟩
  obtain ⟨hord, hrec, hbound⟩ := hinv.queue
  obtain ⟨-, -, hsum⟩ := hbound (by simp [hpq])
  have hall : ∀ h ∈ s.pq, h < s.nodes.length := fun h hh => (hrec h hh).1
  have hexec := runCommand_of_done (mergeStage_of_cons (s := startCommand s) hpq hall)
  rw [mergeTop_eq] at hexec
  rw [hpq] at hsum hall hord
  refine ⟨_, _, hexec, rfl, ?_, enqueue_perm _ _ _, enqueue_new_pairwise _ ?_ hord.tail.tail, ?_, ?_, rfl⟩
  · rw [BitVec.toNat_add]
    simp only [List.map_cons, List.sum_cons] at hsum
    exact Nat.mod_eq_of_lt (by simp only [startCommand_fields]; omega)
  · exact fun h hh => hall h (by simp [hh])
  · rintro rfl
    exact ⟨rfl, rfl, rfl⟩
  · intro hne
    simp [hne]

end Sys2Proof.Machine
end

section
/-! Commands issued one after the other are one command whose stage is the chain of their stages (R140): each writes the
report, and the last one's stays. -/

namespace Sys2Proof.Machine

/-- The stages of a list of commands, chained: the first to raise an error ends the chain. -/
def chainStages : List Instr → State → StageResult
  | [], s => .done s
  | i :: rest, s => (commandStage i s).andThen (chainStages rest)

@[simp] theorem chainStages_nil (s : State) : chainStages [] s = .done s := rfl

@[simp] theorem chainStages_cons (i : Instr) (rest : List Instr) (s : State) :
    chainStages (i :: rest) s = (commandStage i s).andThen (chainStages rest) := rfl

/-- The start of a command changes nothing in a state whose report is already that of a running command (R85). -/
theorem startCommand_eq_self {s : State} (hbusy : s.status.busy = true) (hdone : s.status.done = false)
    (herrf : s.status.errf = false) (herr : s.err = none) : startCommand s = s := by
  obtain ⟨_, _, ⟨⟩⟩ := s
  simp_all [startCommand]

/-- A stage leaves the report of the running command alone, so completing it and starting the next command comes back to
the state it left (R85). -/
theorem startCommand_completeCommand_of_stage {i : Instr} {s u : State}
    (h : commandStage i (startCommand s) = .done u) : startCommand (completeCommand u) = u := by
  have hside := commandStage_sameSide i (startCommand s)
  rw [h] at hside
  exact startCommand_eq_self hside.busy hside.done hside.errf hside.err

/-- A command whose stage completes ends without error. -/
theorem completeCommand_err_of_stage {i : Instr} {s u : State} (h : commandStage i (startCommand s) = .done u) :
    (completeCommand u).err = none := by
  have hside := commandStage_sameSide i (startCommand s)
  rw [h] at hside
  exact hside.err

/-- Running a non-empty list of commands is running the chain of their stages as one command. -/
theorem runCommands_eq_runCommand (i : Instr) (rest : List Instr) (s : State) :
    runCommands (i :: rest) s = runCommand (chainStages (i :: rest)) s := by
  induction rest generalizing i s with
  | nil =>
    rw [runCommands, exec_eq_runCommand]
    unfold runCommand
    cases h : commandStage i (startCommand s) <;> simp [h, runCommands]
  | cons j rest ih =>
    rw [runCommands, exec_eq_runCommand]
    cases h : commandStage i (startCommand s) with
    | done u =>
      rw [runCommand_of_done h]
      simp only [completeCommand_err_of_stage h, if_true, ih]
      simp only [runCommand, startCommand_completeCommand_of_stage h, chainStages_cons, h, andThen_done]
    | raised e u =>
      rw [runCommand_of_raised h]
      simp [runCommand, h]
    | stuck f => simp [runCommand, h]

end Sys2Proof.Machine
end

section
/-! BUILD (R140) is SEED and then MERGE until one handle is queued. -/

namespace Sys2Proof.Machine

/-- One merge takes a handle off the queue (R141). -/
theorem mergeTop_pq_length (a b : Nat) (rest : List Nat) (s : State) :
    (mergeTop a b rest s).pq.length = rest.length + 1 := by
  simp [mergeTop_eq]

/-- One merge makes one record (R135). -/
theorem mergeTop_nodes_length (a b : Nat) (rest : List Nat) (s : State) :
    (mergeTop a b rest s).nodes.length = s.nodes.length + 1 := by
  simp [mergeTop_eq]

/-- The loop of BUILD runs MERGE once less than there are handles queued. -/
theorem mergeLoop_eq_chainStages {fuel : Nat} {s : State} (h : s.pq.length ≤ fuel + 1) :
    mergeLoop fuel s = chainStages (List.replicate (s.pq.length - 1) .merge) s := by
  induction fuel generalizing s with
  | zero => simp [mergeLoop, show s.pq.length - 1 = 0 by omega]
  | succ fuel ih =>
    rw [mergeLoop]
    split
    · rename_i hlt
      obtain ⟨n, hn⟩ : ∃ n, s.pq.length = n + 2 := ⟨s.pq.length - 2, by omega⟩
      rw [hn, show n + 2 - 1 = n + 1 by omega, List.replicate_succ, chainStages_cons, commandStage]
      rcases mergeStage_cases s with ⟨-, hs⟩ | ⟨a, b, rest, hpq, -, hs⟩ | ⟨-, -, hs⟩ <;> rw [hs]
      · rfl
      · have hlen := mergeTop_pq_length a b rest s
        obtain rfl : rest.length = n := by simpa [hpq] using hn
        rw [andThen_done, andThen_done, ih (by omega), hlen, Nat.add_sub_cancel]
      · rfl
    · rename_i hlt
      rw [show s.pq.length - 1 = 0 by omega]
      rfl

/-- BUILD's stage is SEED's and then one of MERGE's for each symbol present but one. -/
theorem buildStage_eq_chainStages (s : State) :
    buildStage s = chainStages (.seed :: List.replicate ((presentSymbols s.freq).length - 1) .merge) s := by
  rw [buildStage, chainStages_cons, commandStage]
  by_cases h : presentSymbols s.freq = []
  · rw [seedStage_of_empty h]
    rfl
  · rw [seedStage_of_present h, andThen_done, andThen_done, mergeLoop_eq_chainStages (Nat.le_succ _)]
    simp

/-- SEED and the merges after it do what BUILD does (R140). -/
theorem runCommands_seed_merges (s : State) :
    runCommands (.seed :: List.replicate ((presentSymbols s.freq).length - 1) .merge) s = exec .build s := by
  rw [runCommands_eq_runCommand, exec_eq_runCommand, runCommand, runCommand, commandStage, buildStage_eq_chainStages]
  rfl

/-- Settles O16: BUILD's stage is the chain of SEED's and MERGE's, and running commands is running their chain. -/
theorem buildEqualsSeedThenMerges : Obligations.BuildEqualsSeedThenMerges :=
  ⟨rfl, runCommands_seed_merges⟩

end Sys2Proof.Machine
end

section
/-! What the builder's queue holds, as items of the abstract queue (R143): what SEED starts from, and what one merge does
to them. -/

namespace Sys2Proof.Machine

/-- The sum over the symbols present is the sum over all symbols. -/
theorem sum_presentSymbols (freq : List (Nat × Word)) :
    ((presentSymbols freq).map fun b => (Freq.count freq b).toNat).sum = freqTotal freq := by
  have hsplit := List.sum_map_filter_add_sum_map_filter_not (fun b => Freq.count freq b ≠ 0)
    (fun b => (Freq.count freq b).toNat) allSymbols
  have hzero :
      ((allSymbols.filter fun b => ¬ Freq.count freq b ≠ 0).map fun b => (Freq.count freq b).toNat).sum = 0 := by
    simp +contextual [List.sum_eq_zero_iff]
  rwa [hzero] at hsplit

/-- The counts of all symbols add up to less than a weight can hold (R8). -/
theorem freqTotal_lt (freq : List (Nat × Word)) : freqTotal freq < 2 ^ 40 := by
  have hle := List.sum_le_card_nsmul (allSymbols.map fun b => (Freq.count freq b).toNat) (2 ^ 32 - 1) fun n hn => by
    obtain ⟨b, -, rfl⟩ := List.mem_map.mp hn
    exact Nat.le_pred_of_lt (Freq.count freq b).isLt
  have hlen : allSymbols.length = 256 := by simp [allSymbols]
  rw [List.length_map, hlen] at hle
  exact hle.trans_lt (by norm_num)

/-- More records after those of an arena leave its trees as they are. -/
theorem treeAt_append {nodes more : List Node} {fuel h : Nat} {t : CodeTree} (ht : treeAt nodes fuel h = some t) :
    treeAt (nodes ++ more) fuel h = some t := by
  induction fuel generalizing h t with
  | zero => simp [treeAt] at ht
  | succ fuel ih =>
    rw [treeAt] at ht ⊢
    split at ht
    · cases ht
    · rename_i hn
      simp only [List.getElem?_append_left (List.getElem?_eq_some_iff.mp hn).1, hn]
      exact ht
    · rename_i l r w hn
      split at ht
      · rename_i tl tr hl hr
        simp only [List.getElem?_append_left (List.getElem?_eq_some_iff.mp hn).1, hn, ih hl, ih hr]
        exact ht
      · cases ht

/-- A handle with a tree is allocated. -/
theorem lt_length_of_treeAt {nodes : List Node} {fuel h : Nat} {t : CodeTree} (ht : treeAt nodes fuel h = some t) :
    h < nodes.length := by
  cases fuel with
  | zero => simp [treeAt] at ht
  | succ fuel =>
    by_contra hlt
    simp [treeAt, List.getElem?_eq_none (Nat.le_of_not_lt hlt)] at ht

/-- The item a queued handle stands for (R143): its weight, itself as the sequence number, its tree. -/
def itemAt (nodes : List Node) (h : Nat) : Option QueueItem :=
  (treeAt nodes nodes.length h).map fun t => { weight := (nodeWeight nodes h).toNat, seq := h, tree := t }

/-- The item that replaces two items merged (R143). -/
def joinItems (n : Nat) (x y : QueueItem) : QueueItem :=
  { weight := x.weight + y.weight, seq := n, tree := .node x.tree y.tree }

theorem itemAt_eq_some_iff {nodes : List Node} {h : Nat} {x : QueueItem} :
    itemAt nodes h = some x ↔
      treeAt nodes nodes.length h = some x.tree ∧ (nodeWeight nodes h).toNat = x.weight ∧ h = x.seq := by
  obtain ⟨weight, seq, tree⟩ := x
  simp only [itemAt, Option.map_eq_some_iff, QueueItem.mk.injEq]
  constructor
  · rintro ⟨t, ht, hw, hs, rfl⟩
    exact ⟨ht, hw, hs⟩
  · rintro ⟨ht, hw, hs⟩
    exact ⟨tree, ht, hw, hs, rfl⟩

/-- An item stays as it is when records are added. -/
theorem itemAt_append {nodes more : List Node} {h : Nat} {x : QueueItem} (hx : itemAt nodes h = some x) :
    itemAt (nodes ++ more) h = some x := by
  obtain ⟨htree, hweight, hseq⟩ := itemAt_eq_some_iff.mp hx
  have hlt := lt_length_of_treeAt htree
  refine itemAt_eq_some_iff.mpr ⟨treeAt_mono (by simp) (treeAt_append htree), ?_, hseq⟩
  rwa [nodeWeight_append hlt]

/-- The record MERGE appends holds the joined item (R135), where the weights' sum does not wrap. -/
theorem itemAt_merged {nodes : List Node} {a b : Nat} {x y : QueueItem} (hx : itemAt nodes a = some x)
    (hy : itemAt nodes b = some y) (hsum : x.weight + y.weight < 2 ^ 40) :
    itemAt (nodes ++ [.internal a b (nodeWeight nodes a + nodeWeight nodes b)]) nodes.length =
      some (joinItems nodes.length x y) := by
  obtain ⟨hxt, hxw, -⟩ := itemAt_eq_some_iff.mp hx
  obtain ⟨hyt, hyw, -⟩ := itemAt_eq_some_iff.mp hy
  refine itemAt_eq_some_iff.mpr ⟨?_, ?_, rfl⟩
  · simp [treeAt, treeAt_append hxt, treeAt_append hyt, joinItems]
  · have hw : nodeWeight (nodes ++ [.internal a b (nodeWeight nodes a + nodeWeight nodes b)]) nodes.length =
        nodeWeight nodes a + nodeWeight nodes b := by
      simp [nodeWeight, Node.weight]
    rw [hw, BitVec.toNat_add, hxw, hyw, Nat.mod_eq_of_lt hsum]
    rfl

/-- The queue of handles `pq` stands for the items `items`, one by one. -/
abbrev QueueHolds (nodes : List Node) (pq : List Nat) (items : List QueueItem) : Prop :=
  List.Forall₂ (fun h x => itemAt nodes h = some x) pq items

/-- A queue that is a permutation of one that stands for items stands for a permutation of them. -/
theorem QueueHolds.of_perm {nodes : List Node} {pq pq' : List Nat} {items : List QueueItem} (hp : pq'.Perm pq)
    (h : QueueHolds nodes pq items) : ∃ items', QueueHolds nodes pq' items' ∧ items'.Perm items :=
  List.perm_comp_forall₂ hp h

/-- A handle that stands for an item is allocated. -/
theorem lt_length_of_itemAt {nodes : List Node} {h : Nat} {x : QueueItem} (hx : itemAt nodes h = some x) :
    h < nodes.length :=
  lt_length_of_treeAt (itemAt_eq_some_iff.mp hx).1

theorem QueueHolds.lt_length {nodes : List Node} {pq : List Nat} {items : List QueueItem}
    (hq : QueueHolds nodes pq items) : ∀ h ∈ pq, h < nodes.length := by
  induction hq with
  | nil => simp
  | cons hx _ ih => exact List.forall_mem_cons.mpr ⟨lt_length_of_itemAt hx, ih⟩

/-- One merge joins the two first items (R135, R143). -/
theorem mergeTop_queueHolds {s : State} {a b : Nat} {rest : List Nat} {x y : QueueItem} {others : List QueueItem}
    (hq : QueueHolds s.nodes (a :: b :: rest) (x :: y :: others)) (hsum : x.weight + y.weight < 2 ^ 40) :
    ∃ items, QueueHolds (mergeTop a b rest s).nodes (mergeTop a b rest s).pq items ∧
      items.Perm (joinItems s.nodes.length x y :: others) := by
  obtain ⟨hx, hq'⟩ := List.forall₂_cons.mp hq
  obtain ⟨hy, hrest⟩ := List.forall₂_cons.mp hq'
  rw [mergeTop_eq]
  exact QueueHolds.of_perm (enqueue_perm _ _ _)
    (.cons (itemAt_merged hx hy hsum) (hrest.imp fun _ _ => itemAt_append))

/-- The leaves SEED makes, by handle, hold the items the abstract builder starts from (R131, R143). -/
theorem seedLeaves_queueHolds (freq : List (Nat × Word)) :
    QueueHolds (seedLeaves freq) (List.range (seedLeaves freq).length) (startItems freq) := by
  refine List.forall₂_iff_get.mpr ⟨by simp [startItems], fun i hi _ => ?_⟩
  have hlt : i < (presentSymbols freq).length := by simpa using hi
  have hnode : (seedLeaves freq)[i]? =
      some (.leaf (presentSymbols freq)[i] ((Freq.count freq (presentSymbols freq)[i]).setWidth 40)) := by
    simp [seedLeaves_eq, hlt]
  obtain ⟨n, hn⟩ : ∃ n, (seedLeaves freq).length = n + 1 :=
    Nat.exists_eq_succ_of_ne_zero (by rw [seedLeaves_length]; exact Nat.ne_zero_of_lt hlt)
  refine itemAt_eq_some_iff.mpr ⟨?_, ?_, ?_⟩
  · simp [hn, treeAt, hnode, startItems]
  · have hcount := (Freq.count freq (presentSymbols freq)[i]).isLt
    simpa [nodeWeight, hnode, startItems, Node.weight] using hcount.trans (by norm_num)
  · simp [startItems]

/-- The weights of the items the abstract builder starts from add up to the counts of all symbols. -/
theorem startItems_weights (freq : List (Nat × Word)) :
    ((startItems freq).map QueueItem.weight).sum = freqTotal freq := by
  have hfst := congrArg (List.map fun b => (Freq.count freq b).toNat) (List.zipIdx_map_fst 0 (presentSymbols freq))
  rw [List.map_map] at hfst
  rw [← sum_presentSymbols, ← hfst, startItems, List.map_map]
  rfl

/-- The trees of the items the abstract builder starts from have the symbols present as their leaves. -/
theorem startItems_symbols (freq : List (Nat × Word)) :
    (startItems freq).flatMap (fun x => x.tree.symbols) = presentSymbols freq := by
  simp only [startItems, List.flatMap_map, CodeTree.symbols]
  exact (List.map_eq_flatMap (f := Prod.fst)).symm.trans (List.zipIdx_map_fst 0 _)

end Sys2Proof.Machine
end

section
/-! The invariant of the builder between SEED and the last MERGE (R138), and the tree it comes to. -/

namespace Sys2Proof.Machine

/-- The builder at work on the table `freq`: the items queued have together the weights and the leaves SEED gave them,
each merge takes a handle off the queue for the record it adds, and a single handle queued is the last record, with
ROOT and V_TREE saying so (R131, R134, R135). -/
structure Building (freq : List (Nat × Word)) (s : State) : Prop where
  holds : ∃ items, QueueHolds s.nodes s.pq items ∧ (items.map QueueItem.weight).sum = freqTotal freq ∧
    (items.flatMap fun x => x.tree.symbols).Perm (presentSymbols freq)
  count : s.nodes.length + s.pq.length = 2 * (presentSymbols freq).length
  nonempty : s.pq ≠ []
  complete : ∀ r, s.pq = [r] → r + 1 = s.nodes.length ∧ s.root = BitVec.ofNat 32 r ∧ s.status.vTree = true

/-- SEED starts the builder (R131, R134). -/
theorem seedStage_building {s : State} (h : presentSymbols s.freq ≠ []) :
    ∃ t, seedStage s = .done t ∧ Building s.freq t := by
  refine ⟨_, seedStage_of_present h, ?_, ?_, ?_, fun r hr => ?_⟩
  · obtain ⟨items, hq, hperm⟩ := (seedLeaves_queueHolds s.freq).of_perm (seedQueue_perm _)
    exact ⟨items, hq, (hperm.map _).sum_eq.trans (startItems_weights _),
      (hperm.flatMap_right _).trans (.of_eq (startItems_symbols _))⟩
  · simp only [seedQueue_length, seedLeaves_length]
    omega
  · simpa [← List.length_eq_zero_iff] using h
  · have hlen : (seedLeaves s.freq).length = 1 := by simpa using congrArg List.length hr
    have hperm := seedQueue_perm (seedLeaves s.freq)
    rw [hlen, List.range_one] at hperm
    obtain rfl : r = 0 := by simpa using hr.symm.trans hperm.eq_singleton
    exact ⟨hlen.symm, rfl, by simpa using hlen⟩

/-- MERGE goes on with the builder's work while two handles or more are queued (R135, R136). -/
theorem Building.mergeStage {freq : List (Nat × Word)} {s : State} (hs : Building freq s) (hlen : 1 < s.pq.length) :
    ∃ t, mergeStage s = .done t ∧ Building freq t ∧ t.pq.length + 1 = s.pq.length := by
  obtain ⟨⟨items, hq, hweights, hsymbols⟩, hcount, -, -⟩ := hs
  obtain ⟨a, b, rest, hpq⟩ : ∃ a b rest, s.pq = a :: b :: rest := by
    match hpq : s.pq with
    | a :: b :: rest => exact ⟨a, b, rest, rfl⟩
    | [_] => simp [hpq] at hlen
    | [] => simp [hpq] at hlen
  have hstage := mergeStage_of_cons hpq hq.lt_length
  rw [hpq] at hq hcount
  obtain ⟨x, _, -, hq', rfl⟩ := List.forall₂_cons_left_iff.mp hq
  obtain ⟨y, others, -, -, rfl⟩ := List.forall₂_cons_left_iff.mp hq'
  simp only [List.map_cons, List.sum_cons] at hweights
  have htotal := freqTotal_lt freq
  obtain ⟨items', hmerged, hperm⟩ := mergeTop_queueHolds hq (by omega)
  refine ⟨_, hstage, ⟨⟨items', hmerged, ?_, ?_⟩, ?_, ?_, fun r hr => ?_⟩, ?_⟩
  · rw [(hperm.map _).sum_eq, ← hweights]
    simp [joinItems, Nat.add_assoc]
  · refine (hperm.flatMap_right _).trans (.trans (.of_eq ?_) hsymbols)
    simp [joinItems, CodeTree.symbols]
  · simp only [List.length_cons] at hcount
    rw [mergeTop_nodes_length, mergeTop_pq_length]
    omega
  · rw [← List.length_pos_iff, mergeTop_pq_length]
    exact Nat.succ_pos _
  · have hnil : rest = [] := by simpa [mergeTop_eq] using congrArg List.length hr
    subst hnil
    obtain rfl : s.nodes.length = r := by simpa [mergeTop_eq, enqueue] using hr
    simp [mergeTop_eq]
  · simp [mergeTop_pq_length, hpq]

/-- The loop of BUILD ends with one handle queued (R140, R141). -/
theorem Building.mergeLoop {freq : List (Nat × Word)} {fuel : Nat} {s : State} (hs : Building freq s)
    (hfuel : s.pq.length ≤ fuel + 1) :
    ∃ t, mergeLoop fuel s = .done t ∧ Building freq t ∧ t.pq.length = 1 := by
  have hpos := List.length_pos_iff.mpr hs.nonempty
  induction fuel generalizing s with
  | zero => exact ⟨s, rfl, hs, by omega⟩
  | succ fuel ih =>
    rw [Machine.mergeLoop]
    split
    · rename_i hlt
      obtain ⟨t, ht, hbuilding, hlen⟩ := hs.mergeStage hlt
      rw [ht, andThen_done]
      exact ih hbuilding (by omega) (by omega)
    · exact ⟨s, rfl, hs, by omega⟩

/-- BUILD's stage completes on every table but the empty one, with one handle queued (R140). -/
theorem buildStage_building {s : State} (h : presentSymbols s.freq ≠ []) :
    ∃ t, buildStage s = .done t ∧ Building s.freq t ∧ t.pq.length = 1 := by
  obtain ⟨u, hu, hbuilding⟩ := seedStage_building h
  rw [buildStage, hu, andThen_done]
  exact hbuilding.mergeLoop (Nat.le_succ _)

/-- A tree has as many leaves as symbols at its leaves. -/
@[simp] theorem symbols_length (t : CodeTree) : t.symbols.length = t.leaves := by
  induction t with
  | leaf s => rfl
  | node l r ihl ihr => simp [CodeTree.symbols, CodeTree.leaves, ihl, ihr]

/-- Where one handle is queued the builder has made the whole tree, at the last of its 2k-1 records (R138). -/
theorem Building.tree {freq : List (Nat × Word)} {s : State} (hs : Building freq s) (hlen : s.pq.length = 1) :
    ∃ r tree, s.pq = [r] ∧ r + 1 = s.nodes.length ∧ s.nodes.length + 1 = 2 * (presentSymbols freq).length ∧
      s.root = BitVec.ofNat 32 r ∧ s.status.vTree = true ∧ s.tree? = some tree ∧
      tree.symbols.Perm (presentSymbols freq) ∧ (nodeWeight s.nodes r).toNat = freqTotal freq := by
  obtain ⟨r, hpq⟩ := List.length_eq_one_iff.mp hlen
  obtain ⟨⟨items, hq, hweights, hsymbols⟩, hcount, -, hcomplete⟩ := hs
  obtain ⟨hr, hroot, hvalid⟩ := hcomplete r hpq
  rw [hlen] at hcount
  rw [hpq] at hq
  obtain ⟨x, _, hx, hnil, rfl⟩ := List.forall₂_cons_left_iff.mp hq
  obtain rfl := List.forall₂_nil_left_iff.mp hnil
  obtain ⟨htree, hweight, -⟩ := itemAt_eq_some_iff.mp hx
  have hsize := presentSymbols_length_le freq
  have hrootNat : s.root.toNat = r := by
    rw [hroot, BitVec.toNat_ofNat]
    exact Nat.mod_eq_of_lt (by omega)
  refine ⟨r, x.tree, hpq, hr, hcount, hroot, hvalid, ?_, by simpa using hsymbols, ?_⟩
  · rw [State.tree?, hrootNat, htree]
  · simpa [hweight] using hweights

/-- Settles O17: SEED and the merges are BUILD, whose stage keeps the builder's invariant down to one handle queued. -/
theorem mergesAfterSeedCompleteTheTree : Obligations.MergesAfterSeedCompleteTheTree := by
  rintro s k rfl hk
  have hpresent : presentSymbols (startCommand s).freq ≠ [] := List.ne_nil_of_length_pos (Nat.zero_lt_of_lt hk)
  obtain ⟨t, hstage, hbuilding, hlen⟩ := buildStage_building hpresent
  obtain ⟨r, tree, hpq, hr, hnodes, hroot, hvalid, htree, hsymbols, hweight⟩ := hbuilding.tree hlen
  simp only [startCommand_fields] at hnodes hsymbols hweight
  have hleaves : tree.leaves = (presentSymbols s.freq).length := by simpa using hsymbols.length_eq
  have hsucc := nodes_succ tree
  obtain rfl : r = 2 * (presentSymbols s.freq).length - 2 := by omega
  rw [runCommands_seed_merges]
  refine ⟨_, runCommand_of_done hstage, completeCommand_err_of_stage (i := .build) hstage, ?_, hpq, hroot, hvalid,
    hweight, ⟨tree, htree, hleaves, ?_, hsymbols⟩, exec_merge_of_short ?_⟩
  · simp only [completeCommand_fields]
    omega
  · omega
  · simp [hlen]

end Sys2Proof.Machine
end

section
/-! CODES (R150, R151): the arena of a state with the invariant holds a tree at ROOT, and the walk of a tree of at most
255 edges' depth records its codes. -/

namespace Sys2Proof.Machine

/-- An arena whose records use allocated children, each of a lower rank than its parent, holds a tree at
every handle. -/
theorem exists_treeAt {nodes : List Node} {rank : Nat → Nat}
    (hdown : ∀ h n, nodes[h]? = some n → ∀ c ∈ n.children, c < nodes.length ∧ rank c < rank h) {fuel h : Nat}
    (hlt : h < nodes.length) (hfuel : rank h < fuel) : ∃ t, treeAt nodes fuel h = some t := by
  induction fuel generalizing h with
  | zero => exact absurd hfuel (Nat.not_lt_zero _)
  | succ fuel ih =>
    have hchild := hdown h nodes[h] (List.getElem?_eq_getElem hlt)
    have below : ∀ c ∈ nodes[h].children, ∃ t, treeAt nodes fuel c = some t := fun c hc =>
      ih (hchild c hc).1 ((hchild c hc).2.trans_le (Nat.le_of_lt_succ hfuel))
    cases hn : nodes[h] with
    | leaf s w => exact ⟨.leaf s, by simp [treeAt, hlt, hn]⟩
    | internal l r w =>
      rw [hn] at below
      obtain ⟨tl, hl⟩ := below l (by simp [Node.children])
      obtain ⟨tr, hr⟩ := below r (by simp [Node.children])
      exact ⟨.node tl tr, by simp [treeAt, hlt, hn, hl, hr]⟩

/-- In a well-formed arena every allocated handle has a tree (R44): handles fall along every path of a built one, and
rise along every path of one read. -/
theorem exists_treeAt_of_arenaWf {nodes : List Node} {h : Nat} (hwf : arenaWf nodes) (hlt : h < nodes.length) :
    ∃ t, treeAt nodes nodes.length h = some t := by
  obtain ⟨hbuilt | hread, -⟩ := hwf
  · refine exists_treeAt (rank := id) (fun i n hn c hc => ?_) hlt hlt
    have hci : c < i := hbuilt (n, i) (List.mem_zipIdx_iff_getElem?.mpr hn) c hc
    exact ⟨hci.trans (List.getElem?_eq_some_iff.mp hn).1, hci⟩
  · refine exists_treeAt (rank := fun i => nodes.length - 1 - i) (fun i n hn c hc => ?_) hlt (by omega)
    obtain ⟨hic, hc⟩ : i < c ∧ c < nodes.length := hread (n, i) (List.mem_zipIdx_iff_getElem?.mpr hn) c hc
    exact ⟨hc, by omega⟩

/-- The invariant makes V_TREE name a tree (R44, R52 (e)). -/
theorem State.Inv.exists_tree? {s : State} (hs : s.Inv) (hv : s.status.vTree = true) : ∃ t, s.tree? = some t :=
  exists_treeAt_of_arenaWf hs.arena (hs.rootAllocated hv)

theorem codesOf_leaf (s b : Byte) : codesOf (.leaf s) b = if s = b then some [] else none := by
  simp only [codesOf, eq_comm]

/-- The codes of a node are those of its children with the edge's bit before them, the right child's winning (R151). -/
theorem codesOf_node (l r : CodeTree) (b : Byte) :
    codesOf (.node l r) b = ((codesOf r b).map (true :: ·)).or ((codesOf l b).map (false :: ·)) := by
  cases hr : codesOf r b <;> cases hl : codesOf l b <;> simp [codesOf, hr, hl]

/-- Where no leaf is deeper than 255 edges the walk records the codes of the tree, each after the path so far, and
leaves the entries of other symbols as they were (R150). -/
theorem walkCodes_of_depth_le {t : CodeTree} {path : Bits} (table : List (Nat × Bits))
    (h : path.length + t.depth ≤ 255) :
    ∃ table', walkCodes t path table = .ok table' ∧
      ∀ b, Code.entry table' b = ((codesOf t b).map (path ++ ·)).or (Code.entry table b) := by
  induction t generalizing path table with
  | leaf s =>
    have hlen : ¬ Config.codeLenMax < path.length := Nat.not_lt.mpr h
    refine ⟨Code.set table s path, by simp only [walkCodes, hlen, if_false], fun b => ?_⟩
    rw [Code.entry_set, codesOf_leaf]
    split <;> simp
  | node l r ihl ihr =>
    simp only [CodeTree.depth] at h
    have hlen (d : Bool) : (path ++ [d]).length = path.length + 1 := List.length_append
    obtain ⟨left, hleft, hentryl⟩ := ihl (path := path ++ [false]) table (by rw [hlen]; omega)
    obtain ⟨right, hright, hentryr⟩ := ihr (path := path ++ [true]) left (by rw [hlen]; omega)
    refine ⟨right, by simp only [walkCodes, hleft, hright], fun b => ?_⟩
    rw [hentryr, hentryl, codesOf_node]
    simp [Option.or_assoc, Option.map_or, Function.comp_def]

/-- CODES' stage where the walk of the tree succeeds (R150). -/
theorem codesStage_of_walk {s : State} {tree : CodeTree} {table : List (Nat × Bits)} (hv : s.status.vTree = true)
    (ht : s.tree? = some tree) (hw : walkCodes tree [] [] = .ok table) :
    codesStage s = .done { s with code := table, status := { s.status with vCodes := true } } := by
  simp only [codesStage, hv, ht, hw, if_true]

/-- Settles O20: R44 gives ROOT a tree, and the walk from the empty path and the empty table records exactly its
codes. -/
theorem codesTabulatesTheTree : Obligations.CodesTabulatesTheTree := by
  refine ⟨rfl, fun s hs hv => ?_⟩
  obtain ⟨tree, htree⟩ := hs.exists_tree? hv
  refine ⟨tree, htree, fun hdepth => ?_⟩
  obtain ⟨table, hwalk, hentry⟩ := walkCodes_of_depth_le (t := tree) (path := []) [] (by simpa using hdepth)
  have hstage := codesStage_of_walk (s := startCommand s) hv htree hwalk
  refine ⟨_, runCommand_of_done hstage, fun b => ?_, rfl⟩
  simpa [Code.entry, Cells.read?] using hentry b

end Sys2Proof.Machine
end

section
/-! SERTREE (R161, R162): the tree at ROOT takes no record of the arena twice, so what it serialises to fits TBITS. -/

namespace Sys2Proof.Machine

/-- `p` is the parent of the handle `c`. -/
def ParentOf (nodes : List Node) (c p : Nat) : Prop := ∃ n, nodes[p]? = some n ∧ c ∈ n.children

/-- The handle `x` is `h` or lies below it. -/
abbrev AtOrBelow (nodes : List Node) (x h : Nat) : Prop := Relation.ReflTransGen (ParentOf nodes) x h

/-- A rank of the arena's handles: every child is allocated and ranks below its parent, so no path comes back. -/
def Ranks (nodes : List Node) (rank : Nat → Nat) : Prop :=
  ∀ c p, ParentOf nodes c p → c < nodes.length ∧ rank c < rank p

/-- A well-formed arena has a rank (R44): the handle itself where it was built, the handle counted from the end where it
was read. -/
theorem exists_ranks {nodes : List Node} (hwf : arenaWf nodes) : ∃ rank, Ranks nodes rank := by
  obtain ⟨hbuilt | hread, -⟩ := hwf
  · refine ⟨id, fun c p ⟨n, hn, hc⟩ => ?_⟩
    have hcp : c < p := hbuilt (n, p) (List.mem_zipIdx_iff_getElem?.mpr hn) c hc
    exact ⟨hcp.trans (List.getElem?_eq_some_iff.mp hn).1, hcp⟩
  · refine ⟨fun i => nodes.length - i, fun c p ⟨n, hn, hc⟩ => ?_⟩
    obtain ⟨hpc, hlt⟩ : p < c ∧ c < nodes.length := hread (n, p) (List.mem_zipIdx_iff_getElem?.mpr hn) c hc
    exact ⟨hlt, Nat.sub_lt_sub_left (hpc.trans hlt) hpc⟩

/-- Where each handle is a child at most once, a handle has one parent (R44). -/
theorem parentOf_rightUnique {nodes : List Node} (hnodup : (childHandles nodes).Nodup) :
    Relator.RightUnique (ParentOf nodes) := by
  have hdisjoint := List.pairwise_iff_getElem.mp (List.nodup_flatMap.mp hnodup).2
  rintro c p q ⟨n, hn, hcn⟩ ⟨m, hm, hcm⟩
  obtain ⟨hp, rfl⟩ := List.getElem?_eq_some_iff.mp hn
  obtain ⟨hq, rfl⟩ := List.getElem?_eq_some_iff.mp hm
  rcases lt_trichotomy p q with hlt | heq | hlt
  · exact absurd hcm (hdisjoint p q hp hq hlt hcn)
  · exact heq
  · exact absurd hcn (hdisjoint q p hq hp hlt hcm)

/-- What holds a node holds its subtrees at the children of an internal record. -/
theorem treeAt_eq_node {nodes : List Node} {fuel h : Nat} {tl tr : CodeTree}
    (ht : treeAt nodes fuel h = some (.node tl tr)) :
    ∃ f l r w, nodes[h]? = some (.internal l r w) ∧ treeAt nodes f l = some tl ∧ treeAt nodes f r = some tr := by
  cases fuel with
  | zero => simp [treeAt] at ht
  | succ fuel =>
    rw [treeAt] at ht
    split at ht
    · cases ht
    · cases ht
    · rename_i l r w hn
      split at ht
      · rename_i hl hr
        cases ht
        exact ⟨fuel, l, r, w, hn, hl, hr⟩
      · cases ht

section
variable {nodes : List Node} {rank : Nat → Nat} (hrank : Ranks nodes rank)
include hrank

/-- Ranks do not fall on the way up. -/
theorem Ranks.le_of_atOrBelow {x h : Nat} (hx : AtOrBelow nodes x h) : rank x ≤ rank h := by
  induction hx with
  | refl => exact Nat.le_refl _
  | tail _ hstep ih => exact ih.trans (Nat.le_of_lt (hrank _ _ hstep).2)

/-- What lies below an allocated handle is allocated. -/
theorem Ranks.lt_length_of_atOrBelow {x h : Nat} (hlt : h < nodes.length) (hx : AtOrBelow nodes x h) :
    x < nodes.length := by
  rcases Relation.ReflTransGen.cases_head hx with rfl | ⟨p, hxp, -⟩
  · exact hlt
  · exact (hrank x p hxp).1

/-- A node does not lie below its own child. -/
theorem Ranks.not_atOrBelow_child {c p : Nat} (hcp : ParentOf nodes c p) : ¬ AtOrBelow nodes p c :=
  fun hpc => absurd (hrank.le_of_atOrBelow hpc) (Nat.not_le.mpr (hrank c p hcp).2)

/-- Of two different children of one node neither lies below the other, as the way up from a child leads through its
one parent. -/
theorem Ranks.not_atOrBelow_sibling (hunique : Relator.RightUnique (ParentOf nodes)) {a b p : Nat}
    (ha : ParentOf nodes a p) (hb : ParentOf nodes b p) (hne : a ≠ b) : ¬ AtOrBelow nodes a b := by
  intro hab
  rcases Relation.ReflTransGen.cases_head hab with heq | ⟨q, haq, hqb⟩
  · exact hne heq
  · obtain rfl := hunique ha haq
    exact hrank.not_atOrBelow_child hb hqb

/-- A tree of the arena takes a handle of its own for each of its nodes, all of them at its root or below: the two
subtrees of a node take different ones, since ways up from a common one would lead from one child through the other. -/
theorem Ranks.exists_handles (hnodup : (childHandles nodes).Nodup) {t : CodeTree} {fuel h : Nat}
    (ht : treeAt nodes fuel h = some t) :
    ∃ handles : Finset Nat, handles.card = t.nodes ∧ ∀ x ∈ handles, AtOrBelow nodes x h := by
  have hunique := parentOf_rightUnique hnodup
  induction t generalizing fuel h with
  | leaf s => exact ⟨{h}, rfl, fun x hx => Finset.mem_singleton.mp hx ▸ .refl⟩
  | node tl tr ihl ihr =>
    obtain ⟨f, l, r, w, hn, htl, htr⟩ := treeAt_eq_node ht
    have hl : ParentOf nodes l h := ⟨_, hn, by simp [Node.children]⟩
    have hr : ParentOf nodes r h := ⟨_, hn, by simp [Node.children]⟩
    have hne : l ≠ r := by
      simpa [Node.children] using (List.nodup_flatMap.mp hnodup).1 _ (List.mem_of_getElem? hn)
    obtain ⟨left, hcardl, hleft⟩ := ihl htl
    obtain ⟨right, hcardr, hright⟩ := ihr htr
    have hdisjoint : Disjoint left right := Finset.disjoint_left.mpr fun x hxl hxr =>
      (Relation.ReflTransGen.total_of_right_unique hunique (hleft x hxl) (hright x hxr)).elim
        (hrank.not_atOrBelow_sibling hunique hl hr hne) (hrank.not_atOrBelow_sibling hunique hr hl hne.symm)
    have hbelow : ∀ x ∈ left ∪ right, ∃ c, ParentOf nodes c h ∧ AtOrBelow nodes x c := fun x hx =>
      (Finset.mem_union.mp hx).elim (fun hx => ⟨l, hl, hleft x hx⟩) fun hx => ⟨r, hr, hright x hx⟩
    have hfresh : h ∉ left ∪ right := fun hh =>
      have ⟨_, hc, hhc⟩ := hbelow h hh
      hrank.not_atOrBelow_child hc hhc
    refine ⟨insert h (left ∪ right), ?_, fun x hx => ?_⟩
    · rw [Finset.card_insert_of_notMem hfresh, Finset.card_union_of_disjoint hdisjoint, hcardl, hcardr,
        CodeTree.nodes]
      omega
    · rcases Finset.mem_insert.mp hx with rfl | hx
      · exact .refl
      · obtain ⟨c, hc, hxc⟩ := hbelow x hx
        exact hxc.tail hc

end

/-- A tree of a well-formed arena has no more nodes than the arena has records (R44). -/
theorem nodes_le_length_of_treeAt {nodes : List Node} (hwf : arenaWf nodes) {t : CodeTree} {fuel h : Nat}
    (ht : treeAt nodes fuel h = some t) : t.nodes ≤ nodes.length := by
  obtain ⟨rank, hrank⟩ := exists_ranks hwf
  obtain ⟨handles, hcard, hhandles⟩ := hrank.exists_handles hwf.2 ht
  have hsub : handles ⊆ Finset.range nodes.length := fun x hx =>
    Finset.mem_range.mpr (hrank.lt_length_of_atOrBelow (lt_length_of_treeAt ht) (hhandles x hx))
  calc t.nodes = handles.card := hcard.symm
    _ ≤ (Finset.range nodes.length).card := Finset.card_le_card hsub
    _ = nodes.length := Finset.card_range _

/-- SERTREE without a tree (R161). -/
theorem exec_sertree_of_no_tree {s : State} (hv : s.status.vTree = false) :
    exec .sertree s = .next (reportError .sequence s) := by
  rcases sertreeStage_cases (startCommand s) with ⟨-, hs⟩ | ⟨hv', -, -⟩ | ⟨_, hv', -, -⟩
  · exact (runCommand_of_raised hs).trans rfl
  · simp [hv] at hv'
  · simp [hv] at hv'

/-- SERTREE with a tree (R161). -/
theorem exec_sertree_of_tree {s : State} {tree : CodeTree} (hv : s.status.vTree = true) (ht : s.tree? = some tree) :
    exec .sertree s = .next
      { reportDone s with tbits := tree.ser, status := { (reportDone s).status with vTbits := true } } := by
  rcases sertreeStage_cases (startCommand s) with ⟨hv', -⟩ | ⟨-, ht', -⟩ | ⟨t, -, ht', hs⟩
  · simp [hv] at hv'
  · simp [ht] at ht'
  · obtain rfl : tree = t := Option.some.inj (ht.symm.trans ht')
    exact runCommand_of_done hs

/-- Settles O23: the length of `ser` counts the tree's leaves and so its nodes, of which each has a record of its own in
the arena. -/
theorem sertreeSerialisesTheTree : Obligations.SertreeSerialisesTheTree := by
  refine ⟨rfl, fun s hv => exec_sertree_of_no_tree hv, fun s hs hv => ?_⟩
  obtain ⟨tree, htree⟩ := hs.exists_tree? hv
  have hser := ser_length_succ tree
  have hnodes := nodes_succ tree
  have harena := nodes_le_length_of_treeAt hs.arena htree
  have hcap := hs.nodeCnt
  refine ⟨tree, _, htree, exec_sertree_of_tree hv htree, rfl, ?_, ?_, ?_, rfl⟩
  · exact Nat.eq_sub_of_add_eq hser
  · dsimp only
    omega
  · rw [Config.Capacities.tbitsMax]
    omega

end Sys2Proof.Machine
end

section
/-! DESTREE (R165, R166) on a stream that holds a tree at the cursor: the reader takes exactly the tree's bits, and every
handle of the arena it writes holds a subtree in pre-order. -/

namespace Sys2Proof.Machine

/-- The reader takes a serialised tree off the front of a stream where the arena has room for it (R165). -/
theorem parseTree_ser_append {t : CodeTree} {room fuel used : Nat} (rest : Bits) (hfuel : t.depth < fuel)
    (hroom : used + t.nodes ≤ room) : parseTree room fuel (t.ser ++ rest) used = .ok (t, rest, used + t.nodes) := by
  induction t generalizing fuel used rest with
  | leaf s =>
    obtain ⟨fuel, rfl⟩ := Nat.exists_eq_succ_of_ne_zero (Nat.ne_zero_of_lt hfuel)
    have hused : used ≠ room := Nat.ne_of_lt hroom
    simp [CodeTree.ser, parseTree, hused, CodeTree.nodes]
  | node l r ihl ihr =>
    obtain ⟨fuel, rfl⟩ := Nat.exists_eq_succ_of_ne_zero (Nat.ne_zero_of_lt hfuel)
    simp only [CodeTree.depth, CodeTree.nodes] at hfuel hroom
    have hused : used ≠ room := by omega
    have hleft := ihl (fuel := fuel) (used := used + 1) (r.ser ++ rest) (by omega) (by omega)
    have hright := ihr (fuel := fuel) (used := used + 1 + l.nodes) rest (by omega) (by omega)
    have hcount : used + (1 + l.nodes + r.nodes) = used + 1 + l.nodes + r.nodes := by omega
    simp only [CodeTree.ser, List.cons_append, List.append_assoc, parseTree, hused, if_false, hleft, hright,
      Bool.false_eq_true, CodeTree.nodes, hcount]

theorem nodes_le_ser_length (t : CodeTree) : t.nodes ≤ t.ser.length := by
  have hser := ser_length_succ t
  have hnodes := nodes_succ t
  omega

theorem readTree_ser_append {t : CodeTree} {room : Nat} (rest : Bits) (hroom : t.nodes ≤ room) :
    readTree room (t.ser ++ rest) = .ok (t, rest, t.nodes) := by
  have hdepth := depth_lt_nodes t
  have hnodes := nodes_le_ser_length t
  have hfuel : t.depth < (t.ser ++ rest).length + 1 := by
    rw [List.length_append]
    omega
  simpa [readTree] using parseTree_ser_append (used := 0) rest hfuel (by simpa using hroom)

/-- The arena holds the records of `t`, numbered from `h`, from handle `h` on (R166). -/
def RecordsAt (nodes : List Node) (t : CodeTree) (h : Nat) : Prop := t.records h <+: nodes.drop h

theorem recordsAt_records (t : CodeTree) : RecordsAt (t.records 0) t 0 := List.prefix_refl _

theorem RecordsAt.nodes_le {nodes : List Node} {t : CodeTree} {h : Nat} (ht : RecordsAt nodes t h) :
    t.nodes ≤ nodes.length := by
  have hle := List.IsPrefix.length_le ht
  rw [records_length, List.length_drop] at hle
  omega

theorem RecordsAt.getElem? {nodes : List Node} {t : CodeTree} {h i : Nat} (ht : RecordsAt nodes t h)
    (hi : i < t.nodes) : nodes[h + i]? = (t.records h)[i]? := by
  have hlt : i < (t.records h).length := (records_length t h).symm ▸ hi
  have hget := List.prefix_iff_getElem?.mp ht i hlt
  rwa [List.getElem?_drop, ← List.getElem?_eq_getElem hlt] at hget

theorem RecordsAt.treeAt_eq {nodes : List Node} {t : CodeTree} {h : Nat} (ht : RecordsAt nodes t h) :
    treeAt nodes nodes.length h = some t :=
  treeAt_records ((depth_lt_nodes t).trans_le ht.nodes_le) fun _ hi => ht.getElem? hi

section
variable {nodes : List Node} {l r : CodeTree} {h : Nat} (ht : RecordsAt nodes (.node l r) h)
include ht

/-- The records under a node: the left subtree's, then the right one's. -/
theorem RecordsAt.tail : l.records (h + 1) ++ r.records (h + 1 + l.nodes) <+: nodes.drop (h + 1) := by
  have htail := List.IsPrefix.drop ht 1
  rwa [List.drop_drop] at htail

theorem RecordsAt.left : RecordsAt nodes l (h + 1) := (List.prefix_append _ _).trans ht.tail

theorem RecordsAt.right : RecordsAt nodes r (h + 1 + l.nodes) := by
  have hright := List.IsPrefix.drop ht.tail l.nodes
  rwa [List.drop_left' (records_length l _), List.drop_drop] at hright

end

/-- Every handle of a tree's records holds the records of a subtree. -/
theorem RecordsAt.exists_subtree {nodes : List Node} {t : CodeTree} {h i : Nat} (ht : RecordsAt nodes t h)
    (hi : i < t.nodes) : ∃ u, RecordsAt nodes u (h + i) := by
  induction t generalizing h i with
  | leaf s =>
    obtain rfl : i = 0 := Nat.lt_one_iff.mp hi
    exact ⟨_, ht⟩
  | node l r ihl ihr =>
    rw [CodeTree.nodes] at hi
    rcases Nat.eq_zero_or_pos i with rfl | hpos
    · exact ⟨_, ht⟩
    · by_cases hil : i ≤ l.nodes
      · obtain ⟨u, hu⟩ := ihl ht.left (i := i - 1) (by omega)
        exact ⟨u, by rwa [show h + 1 + (i - 1) = h + i by omega] at hu⟩
      · obtain ⟨u, hu⟩ := ihr ht.right (i := i - 1 - l.nodes) (by omega)
        exact ⟨u, by rwa [show h + 1 + l.nodes + (i - 1 - l.nodes) = h + i by omega] at hu⟩

/-- An internal record of a tree read stands before its left child, and the right child after the left subtree (R166). -/
theorem children_of_records_internal {t : CodeTree} {h l r : Nat} {w : Weight}
    (hn : (t.records 0)[h]? = some (.internal l r w)) :
    l = h + 1 ∧ ∃ left, treeAt (t.records 0) (t.records 0).length l = some left ∧ r = h + 1 + left.nodes := by
  have hlt : h < t.nodes := by simpa using (List.getElem?_eq_some_iff.mp hn).1
  obtain ⟨u, hu⟩ := (recordsAt_records t).exists_subtree hlt
  rw [Nat.zero_add] at hu
  have hhead : (t.records 0)[h]? = (u.records h)[0]? := hu.getElem? (nodes_pos u)
  cases u with
  | leaf s => simp [hn, CodeTree.records] at hhead
  | node ul ur =>
    obtain ⟨rfl, rfl, -⟩ : l = h + 1 ∧ r = h + 1 + ul.nodes ∧ w = 0 := by
      simpa [hn, CodeTree.records] using hhead
    exact ⟨rfl, ul, hu.left.treeAt_eq, rfl⟩

/-- DESTREE on a stream that holds a tree at the cursor, of no more nodes than the arena has records (R165, R166). -/
theorem exec_destree_of_ser {s : State} {tree : CodeTree} {rest : Bits} (hv : s.status.vSbits = true)
    (hstream : s.streamFromCur = tree.ser ++ rest) (hroom : tree.nodes ≤ s.cap.nodeMax) :
    exec .destree s = .next { reportDone s with
      nodes := tree.records 0
      pq := []
      root := 0
      cur := BitVec.ofNat 32 (s.sbits.length - rest.length)
      status := { (reportDone s).status with vTree := true } } := by
  have hread : readTree (startCommand s).cap.nodeMax (startCommand s).streamFromCur = .ok (tree, rest, tree.nodes) :=
    (congrArg (readTree s.cap.nodeMax) hstream).trans (readTree_ser_append rest hroom)
  rcases destreeStage_cases (startCommand s) with ⟨hv', -⟩ | ⟨e, -, hread', -⟩ | ⟨t, rest', n, -, hread', hs⟩
  · simp [hv] at hv'
  · cases hread.symm.trans hread'
  · cases hread.symm.trans hread'
    exact runCommand_of_done hs

/-- What follows a non-empty front part of the stream from the cursor begins that many bits past the cursor (R29). -/
theorem sbits_length_sub_of_streamFromCur {s : State} {front rest : Bits} (hstream : s.streamFromCur = front ++ rest)
    (hfront : 0 < front.length) : s.sbits.length - rest.length = s.cur.toNat + front.length := by
  have hlen := congrArg List.length hstream
  rw [State.streamFromCur, List.length_drop, List.length_append] at hlen
  omega

/-- Settles O26: the reader takes the tree off the stream, and the records it writes are those of the tree in
pre-order. -/
theorem destreeReadsTreeAtCursor : Obligations.DestreeReadsTreeAtCursor := by
  refine ⟨rfl, fun s tree rest hs hv hstream hroom => ?_⟩
  have hcur := sbits_length_sub_of_streamFromCur hstream ((nodes_pos tree).trans_le (nodes_le_ser_length tree))
  have hlt : s.sbits.length - rest.length < 2 ^ 32 := by
    obtain ⟨-, -, -, -, -, -, hmax⟩ := hs.cap
    have hsbits := hs.sbitsLen
    omega
  refine ⟨_, exec_destree_of_ser hv hstream hroom, tree?_of_records rfl rfl, rfl, records_length tree 0, rfl, ?_,
    fun n hn => records_weight hn, fun h l r w hn => children_of_records_internal hn,
    exec_merge_of_short Nat.two_pos, rfl⟩
  rw [← hcur]
  exact Nat.mod_eq_of_lt hlt

end Sys2Proof.Machine
end

section
/-! The bitstream codec: stream bit 8j+i is bit 7-i of byte j, for the bytes PACK writes (R180) and for those UNPACK
reads (R184). -/

namespace Sys2Proof.Machine

theorem bits8_getD (v : Byte) {i : Nat} (hi : i < 8) : (bits8 v).getD i false = v.getLsbD (7 - i) := by
  have hlt : i < (bits8 v).length := by simpa using hi
  rw [List.getD_eq_getElem _ _ hlt, bits8_getElem]

theorem val8_getLsbD {b : Bits} (h : b.length = 8) {i : Nat} (hi : i < 8) :
    (val8 b).getLsbD (7 - i) = b.getD i false := by
  rw [← bits8_getD (val8 b) hi, bits8_val8 h]

/-- Packing puts bit `8j+i` of the stream in bit `7-i` of byte `j` (R180). -/
theorem packBits_getD_getLsbD {b : Bits} {j i : Nat} (hj : j < (packBits b).length) (hi : i < 8) :
    ((packBits b).getD j 0).getLsbD (7 - i) = b.getD (8 * j + i) false := by
  have hbyte : (packBits b).getD j 0 = val8 ((b.drop (8 * j)).take 8) := by
    rw [List.getD_eq_getElem _ _ hj]
    simp [packBits]
  have height : ((b.drop (8 * j)).take 8).length = 8 := by
    rw [packBits_length] at hj
    rw [List.length_take, List.length_drop]
    omega
  rw [hbyte, val8_getLsbD height hi]
  simp [List.getD_eq_getElem?_getD, List.getElem?_take_of_lt hi]

/-- Unpacking puts bit `7-i` of byte `j` at bit `8j+i` of the stream, and nothing past the last byte (R184). -/
theorem unpackBytes_getD (bytes : List Byte) (j : Nat) {i : Nat} (hi : i < 8) :
    (unpackBytes bytes).getD (8 * j + i) false = (bytes.getD j 0).getLsbD (7 - i) := by
  induction bytes generalizing j with
  | nil => simp
  | cons b rest ih =>
    rw [unpackBytes_cons]
    cases j with
    | zero =>
      rw [List.getD_append _ _ _ _ (by simpa using hi), Nat.mul_zero, Nat.zero_add, bits8_getD b hi,
        List.getD_cons_zero]
    | succ j =>
      have hpast : 8 * (j + 1) + i - (bits8 b).length = 8 * j + i := by
        rw [bits8_length]
        omega
      rw [List.getD_append_right _ _ _ _ (by rw [bits8_length]; omega), hpast, ih, List.getD_cons_succ]

theorem inputBytes_getD {s : State} {j : Nat} (hj : j < s.inLen.toNat) : (inputBytes s).getD j 0 = s.inByte j := by
  rw [List.getD_eq_getElem _ _ (by simpa using hj)]
  simp [inputBytes]

/-- PACK without a stream (R181). -/
theorem exec_pack_of_no_stream {s : State} (hv : s.status.vSbits = false) :
    exec .pack s = .next (reportError .sequence s) := by
  rcases packStage_cases (startCommand s) with ⟨-, hs⟩ | ⟨hv', -, -⟩ | ⟨hv', -, -⟩
  · exact (runCommand_of_raised hs).trans rfl
  · simp [hv] at hv'
  · simp [hv] at hv'

/-- PACK with a stream whose bytes fit OUT (R180). -/
theorem exec_pack_of_room {s : State} (hv : s.status.vSbits = true) (hroom : s.sbits.length / 8 ≤ s.cap.outMax) :
    exec .pack s = .next { reportDone s with out := packBits s.sbits } := by
  rcases packStage_cases (startCommand s) with ⟨hv', -⟩ | ⟨-, hfull, -⟩ | ⟨-, -, hs⟩
  · simp [hv] at hv'
  · exact absurd hroom (Nat.not_le.mpr hfull)
  · exact runCommand_of_done hs

/-- PACK with a stream whose bytes do not fit OUT (R181). -/
theorem exec_pack_of_no_room {s : State} (hv : s.status.vSbits = true) (hfull : s.cap.outMax < s.sbits.length / 8) :
    exec .pack s = .next (reportError .capacity { s with out := [] }) := by
  rcases packStage_cases (startCommand s) with ⟨hv', -⟩ | ⟨-, -, hs⟩ | ⟨-, hroom, -⟩
  · simp [hv] at hv'
  · exact (runCommand_of_raised hs).trans rfl
  · exact absurd hfull (Nat.not_lt.mpr hroom)

/-- UNPACK always completes (R184, R185). -/
theorem exec_unpack (s : State) :
    exec .unpack s = .next { reportDone s with
      sbits := unpackBytes (inputBytes s)
      cur := 0
      status := { (reportDone s).status with vSbits := true } } := by
  have h := runCommand_of_done (unpackStage_eq (startCommand s))
  rwa [inputBytes_startCommand] at h

/-- Settles O28: a byte of OUT is `val8` of its eight stream bits, and `bits8` gives those bits back. -/
theorem packMakesBytesOfStream : Obligations.PackMakesBytesOfStream :=
  ⟨rfl, fun _ hv => exec_pack_of_no_stream hv,
    fun s hv hroom => ⟨_, exec_pack_of_room hv hroom, packBits_length s.sbits,
      fun _ _ hj hi => packBits_getD_getLsbD hj hi, rfl⟩,
    fun _ hv hfull => exec_pack_of_no_room hv hfull⟩

/-- Settles O29: the stream is `bits8` of each input byte in turn, and 8 * IN_MAX bits fit SBITS by R7. -/
theorem unpackMakesStreamOfInput : Obligations.UnpackMakesStreamOfInput := by
  refine ⟨rfl, fun s => ?_⟩
  have hlength : (unpackBytes (inputBytes s)).length = 8 * s.inLen.toNat := by
    rw [unpackBytes_length, inputBytes_length]
  refine ⟨_, exec_unpack s, rfl, hlength, fun j i hj hi => ?_, fun hs => ?_, rfl⟩
  · exact (unpackBytes_getD _ j hi).trans (congrArg (·.getLsbD (7 - i)) (inputBytes_getD hj))
  · obtain ⟨-, -, -, -, -, hfits, -⟩ := hs.cap
    calc (unpackBytes (inputBytes s)).length = 8 * s.inLen.toNat := hlength
      _ ≤ 8 * s.cap.inMax := Nat.mul_le_mul_left 8 hs.inLen
      _ ≤ s.cap.sbitsMax := hfits

end Sys2Proof.Machine
end

section
/-! ASSEMBLE (R195, R197): the pad count makes the stream a whole number of bytes, which SBITS takes where they fit. -/

namespace Sys2Proof.Machine

/-- ASSEMBLE without the tree bits or without the text bits (R197). -/
theorem exec_assemble_of_missing {s : State} (h : s.status.vTbits = false ∨ s.status.vXbits = false) :
    exec .assemble s = .next (reportError .sequence s) := by
  rcases assembleStage_cases (startCommand s) with ⟨-, hs⟩ | ⟨ht, hx, -, -⟩ | ⟨ht, hx, -, -⟩
  · exact (runCommand_of_raised hs).trans rfl
  · rcases h with h | h <;> simp [h] at ht hx
  · rcases h with h | h <;> simp [h] at ht hx

/-- ASSEMBLE of a stream that fits SBITS (R195). -/
theorem exec_assemble_of_room {s : State} (ht : s.status.vTbits = true) (hx : s.status.vXbits = true)
    (hroom : (assembleStream s.tbits s.xbits).length ≤ s.cap.sbitsMax) :
    exec .assemble s = .next { reportDone s with
      sbits := assembleStream s.tbits s.xbits
      padCnt := BitVec.ofNat 32 (padCount s.tbits.length s.xbits.length)
      cur := 0
      status := { (reportDone s).status with vSbits := true } } := by
  rcases assembleStage_cases (startCommand s) with ⟨hmissing, -⟩ | ⟨-, -, hfull, -⟩ | ⟨-, -, -, hs⟩
  · simp [ht, hx] at hmissing
  · exact absurd hroom (Nat.not_le.mpr hfull)
  · exact runCommand_of_done hs

/-- ASSEMBLE of a stream that does not fit SBITS (R197). -/
theorem exec_assemble_of_no_room {s : State} (ht : s.status.vTbits = true) (hx : s.status.vXbits = true)
    (hfull : s.cap.sbitsMax < (assembleStream s.tbits s.xbits).length) :
    exec .assemble s = .next (reportError .capacity
      { s with sbits := [], cur := 0, status := { s.status with vSbits := false } }) := by
  rcases assembleStage_cases (startCommand s) with ⟨hmissing, -⟩ | ⟨-, -, -, hs⟩ | ⟨-, -, hroom, -⟩
  · simp [ht, hx] at hmissing
  · exact (runCommand_of_raised hs).trans rfl
  · exact absurd hfull (Nat.not_lt.mpr hroom)

/-- Settles O33: the pad count is at most 7 and aligns the stream, and its length against SBITS_MAX decides. -/
theorem assembleBuildsPaddedStream : Obligations.AssembleBuildsPaddedStream := by
  refine ⟨rfl, fun _ h => exec_assemble_of_missing h, fun s ht hx => ?_⟩
  have hlength := assembleStream_length s.tbits s.xbits
  exact ⟨_, _, rfl, rfl, padCount_le _ _, padCount_aligns _ _,
    fun hroom => ⟨_, exec_assemble_of_room ht hx (hlength.trans_le hroom), hlength, rfl⟩,
    fun hfull => exec_assemble_of_no_room ht hx (hfull.trans_eq hlength.symm)⟩

end Sys2Proof.Machine
end

section
/-! The text bits of ENCTEXT (R190) and the order of its errors (R192). -/

namespace Sys2Proof.Machine

/-- The text bits of a byte sequence under the codes `codes`: each byte's code, one 0 bit for an empty one (R190). A
byte without a code counts as one with an empty code. -/
def textOf (codes : Byte → Option Bits) (bytes : List Byte) : Bits :=
  bytes.flatMap fun b => piece ((codes b).getD [])

@[simp] theorem textOf_nil (codes : Byte → Option Bits) : textOf codes [] = [] := rfl

@[simp] theorem textOf_cons (codes : Byte → Option Bits) (b : Byte) (rest : List Byte) :
    textOf codes (b :: rest) = piece ((codes b).getD []) ++ textOf codes rest := rfl

@[simp] theorem textLength_nil (table : List (Nat × Bits)) : textLength table [] = 0 := rfl

@[simp] theorem textLength_cons (table : List (Nat × Bits)) (b : Byte) (rest : List Byte) :
    textLength table (b :: rest) = pieceLength table b + textLength table rest := List.sum_cons

/-- A byte with a code takes as many text bits as its piece has (R193). -/
theorem piece_length_of_entry {table : List (Nat × Bits)} {b : Byte} {code : Bits}
    (h : Code.entry table b = some code) : (piece code).length = pieceLength table b := by
  rw [piece_length, pieceLength, h]

/-- The text bits of bytes with codes are as many as their pieces have together (R193). -/
theorem textOf_entry_length {table : List (Nat × Bits)} {bytes : List Byte}
    (h : ∀ b ∈ bytes, (Code.entry table b).isSome = true) :
    (textOf (Code.entry table) bytes).length = textLength table bytes := by
  induction bytes with
  | nil => rfl
  | cons b rest ih =>
    obtain ⟨hb, hrest⟩ := List.forall_mem_cons.mp h
    obtain ⟨code, hcode⟩ := Option.isSome_iff_exists.mp hb
    rw [textOf_cons, List.length_append, ih hrest, textLength_cons, hcode, Option.getD_some,
      piece_length_of_entry hcode]

section
variable {table : List (Nat × Bits)} {room used : Nat} {b : Byte} {rest : List Byte}

/-- The loop at a byte without a code (R192). -/
theorem encodeText_of_no_code (h : Code.entry table b = none) :
    encodeText table room used (b :: rest) = .error .noCode := by
  simp only [encodeText, h]

/-- The loop at a byte whose piece does not fit (R192). -/
theorem encodeText_of_no_room (h : (Code.entry table b).isSome = true)
    (hfull : room < used + pieceLength table b) : encodeText table room used (b :: rest) = .error .capacity := by
  obtain ⟨code, hcode⟩ := Option.isSome_iff_exists.mp h
  simp only [encodeText, hcode, piece_length_of_entry hcode, hfull, if_true]

/-- The loop at a byte whose piece fits (R190). -/
theorem encodeText_of_room (h : (Code.entry table b).isSome = true)
    (hroom : used + pieceLength table b ≤ room) :
    encodeText table room used (b :: rest) =
      (encodeText table room (used + pieceLength table b) rest).map (piece ((Code.entry table b).getD []) ++ ·) := by
  obtain ⟨code, hcode⟩ := Option.isSome_iff_exists.mp h
  simp only [encodeText, hcode, piece_length_of_entry hcode, Nat.not_lt.mpr hroom, if_false, Option.getD_some]
  cases encodeText table room (used + pieceLength table b) rest <;> rfl

end

/-- The loop runs through bytes with codes whose text bits fit, and goes on with the bytes after them (R190). -/
theorem encodeText_append {table : List (Nat × Bits)} {room used : Nat} {before : List Byte} (after : List Byte)
    (hcoded : ∀ b ∈ before, (Code.entry table b).isSome = true) (hroom : used + textLength table before ≤ room) :
    encodeText table room used (before ++ after) =
      (encodeText table room (used + textLength table before) after).map (textOf (Code.entry table) before ++ ·) := by
  induction before generalizing used with
  | nil =>
    cases h : encodeText table room used after <;> simp [h, Except.map]
  | cons b rest ih =>
    obtain ⟨hb, hrest⟩ := List.forall_mem_cons.mp hcoded
    rw [textLength_cons, ← Nat.add_assoc] at hroom ⊢
    rw [List.cons_append, encodeText_of_room hb (le_of_add_le_left hroom), ih hrest hroom, textOf_cons]
    cases encodeText table room (used + pieceLength table b + textLength table rest) after <;>
      simp [Except.map]

/-- Bytes with codes are encoded, or do not fit (R192). -/
theorem encodeText_cases {table : List (Nat × Bits)} {room used : Nat} {bytes : List Byte}
    (hcoded : ∀ b ∈ bytes, (Code.entry table b).isSome = true) :
    encodeText table room used bytes = .error .capacity ∨
      encodeText table room used bytes = .ok (textOf (Code.entry table) bytes) := by
  induction bytes generalizing used with
  | nil => exact .inr (by simp [encodeText])
  | cons b rest ih =>
    obtain ⟨hb, hrest⟩ := List.forall_mem_cons.mp hcoded
    rcases Nat.lt_or_ge room (used + pieceLength table b) with hfull | hroom
    · exact .inl (encodeText_of_no_room hb hfull)
    · rw [encodeText_of_room hb hroom]
      exact (ih hrest).imp (fun h => by rw [h]; rfl) fun h => by rw [h]; rfl

/-- ENCTEXT without a code table (R192). -/
theorem exec_enctext_of_no_codes {s : State} (hv : s.status.vCodes = false) :
    exec .enctext s = .next (reportError .sequence s) := by
  rcases enctextStage_cases (startCommand s) with ⟨-, hs⟩ | ⟨_, hv', -, -⟩ | ⟨_, hv', -, -⟩
  · exact (runCommand_of_raised hs).trans rfl
  · simp [hv] at hv'
  · simp [hv] at hv'

/-- ENCTEXT's stage takes the error of its loop (R192). -/
theorem enctextStage_of_error {s : State} {e : ErrorKind} (hv : s.status.vCodes = true)
    (he : encodeText s.code s.cap.xbitsMax 0 (inputBytes s) = .error e) :
    enctextStage s = .raised e { s with xbits := [], status := { s.status with vXbits := false } } := by
  simp only [enctextStage, hv, he, if_true]

/-- ENCTEXT takes the error of its loop (R192). -/
theorem exec_enctext_of_error {s : State} {e : ErrorKind} (hv : s.status.vCodes = true)
    (he : encodeText s.code s.cap.xbitsMax 0 (inputBytes s) = .error e) :
    exec .enctext s = .next (reportError e { s with xbits := [], status := { s.status with vXbits := false } }) :=
  (runCommand_of_raised (enctextStage_of_error (s := startCommand s) hv he)).trans rfl

/-- The loop fails at the first byte that makes it fail, the bytes before it having codes whose text bits fit. -/
theorem encodeText_error_of_append {table : List (Nat × Bits)} {room : Nat} {before after : List Byte} {e : ErrorKind}
    (hcoded : ∀ b ∈ before, (Code.entry table b).isSome = true) (hroom : textLength table before ≤ room)
    (he : encodeText table room (textLength table before) after = .error e) :
    encodeText table room 0 (before ++ after) = .error e := by
  rw [encodeText_append after hcoded (by simpa using hroom), Nat.zero_add, he]
  rfl

end Sys2Proof.Machine
end

section
/-! Taking one stage of a chain (R200, R220). -/

namespace Sys2Proof.Machine

/-- A chain whose first part completes goes on as its second part does. -/
theorem andThen_of_done {r q : StageResult} {next : State → StageResult} {t : State} (hr : r = .done t)
    (hn : next t = q) : r.andThen next = q := by
  rw [hr, andThen_done, hn]

/-- A chain whose first part raises an error raises it. -/
theorem andThen_of_raised {r : StageResult} {next : State → StageResult} {e : ErrorKind} {t : State}
    (hr : r = .raised e t) : r.andThen next = .raised e t := by
  rw [hr, andThen_raised]

end Sys2Proof.Machine
end

section
/-! Decoding under a tree takes the text bits of its codes back to the bytes (R206, R214, R216). -/

namespace Sys2Proof.Machine

/-- The symbols with a code are those at the leaves (R151). -/
theorem codesOf_isSome_iff {t : CodeTree} {b : Byte} : (codesOf t b).isSome = true ↔ b ∈ t.symbols := by
  induction t with
  | leaf s =>
    rw [codesOf_leaf, CodeTree.symbols, List.mem_singleton, eq_comm (a := b)]
    split <;> simp_all
  | node l r ihl ihr => simp [codesOf_node, CodeTree.symbols, ihl, ihr, or_comm]

/-- A tree is less deep than it has leaves. -/
theorem depth_lt_leaves (t : CodeTree) : t.depth < t.leaves := by
  induction t with
  | leaf s => exact Nat.one_pos
  | node l r ihl ihr =>
    simp only [CodeTree.depth, CodeTree.leaves]
    omega

/-- A code of a node is the bit of an edge and then a code of the child there (R151). -/
theorem codesOf_node_eq_some {l r : CodeTree} {b : Byte} {p : Bits} (h : codesOf (.node l r) b = some p) :
    ∃ d q, p = d :: q ∧ codesOf (if d then r else l) b = some q := by
  rw [codesOf_node, Option.or_eq_some_iff] at h
  rcases h with h | ⟨-, h⟩ <;> obtain ⟨q, hq, rfl⟩ := Option.map_eq_some_iff.mp h
  · exact ⟨true, q, rfl, hq⟩
  · exact ⟨false, q, rfl, hq⟩

/-- The walk from a node along an edge and then a code of the child there finds the code's symbol, and starts again at
the root (R214). -/
theorem decodeWalk_edge_code {root pos : CodeTree × CodeTree} {mid d : Bool} {child : CodeTree} {b : Byte} {q : Bits}
    (room : Nat) (rest : Bits) (hchild : (if d then pos.2 else pos.1) = child) (hq : codesOf child b = some q) :
    decodeWalk root pos mid (room + 1) (d :: (q ++ rest)) = (decodeWalk root root false room rest).map (b :: ·) := by
  induction child generalizing pos mid d q with
  | leaf s =>
    rw [codesOf_leaf, Option.ite_none_right_eq_some, Option.some.injEq] at hq
    obtain ⟨rfl, rfl⟩ := hq
    rw [List.nil_append]
    simp only [decodeWalk, hchild]
    cases decodeWalk root root false room rest <;> rfl
  | node l r ihl ihr =>
    obtain ⟨d', q', rfl, hq'⟩ := codesOf_node_eq_some hq
    rw [decodeWalk]
    simp only [hchild]
    cases d' with
    | false => exact ihl (pos := (l, r)) rfl hq'
    | true => exact ihr (pos := (l, r)) rfl hq'

@[simp] theorem decodeText_nil (t : CodeTree) (room : Nat) : decodeText t room [] = .ok [] := by
  cases t <;> simp [decodeText, decodeWalk, decodeUnderLeaf]

/-- The decoder takes the piece of a symbol's code off the text (R214, R216). -/
theorem decodeText_piece_append {t : CodeTree} {b : Byte} {code : Bits} (room : Nat) (rest : Bits)
    (h : codesOf t b = some code) :
    decodeText t (room + 1) (piece code ++ rest) = (decodeText t room rest).map (b :: ·) := by
  cases t with
  | leaf s =>
    rw [codesOf_leaf, Option.ite_none_right_eq_some, Option.some.injEq] at h
    obtain ⟨rfl, rfl⟩ := h
    simp only [decodeText, piece, if_true, List.singleton_append, decodeUnderLeaf]
    cases decodeUnderLeaf s room rest <;> rfl
  | node l r =>
    obtain ⟨d, q, rfl, hq⟩ := codesOf_node_eq_some h
    exact decodeWalk_edge_code (mid := false) room rest rfl hq

/-- The text bits of a byte sequence under a tree's codes decode to the sequence, where OUT has room for it (R206). -/
theorem decodeText_textOf {t : CodeTree} {bytes : List Byte} {room : Nat} (hsymbols : ∀ b ∈ bytes, b ∈ t.symbols)
    (hroom : bytes.length ≤ room) : decodeText t room (textOf (codesOf t) bytes) = .ok bytes := by
  induction bytes generalizing room with
  | nil => exact decodeText_nil t room
  | cons b rest ih =>
    obtain ⟨hb, hrest⟩ := List.forall_mem_cons.mp hsymbols
    obtain ⟨code, hcode⟩ := Option.isSome_iff_exists.mp (codesOf_isSome_iff.mpr hb)
    obtain ⟨room, rfl⟩ : ∃ n, room = n + 1 := Nat.exists_eq_succ_of_ne_zero (Nat.ne_zero_of_lt hroom)
    rw [textOf_cons, hcode, Option.getD_some, decodeText_piece_append room _ hcode,
      ih hrest (Nat.le_of_succ_le_succ hroom)]
    rfl

end Sys2Proof.Machine
end

section
/-! DECOMPRESS (R220) on a stream of a tree, a pad-count field, padding and text. -/

namespace Sys2Proof.Machine

/-- DESTREE's stage on a stream that holds a tree at the cursor (R165). -/
theorem destreeStage_of_ser {s : State} {tree : CodeTree} {rest : Bits} {c : Nat} (hv : s.status.vSbits = true)
    (hcur : s.cur.toNat = c) (hstream : s.sbits.drop c = tree.ser ++ rest) (hroom : tree.nodes ≤ s.cap.nodeMax) :
    destreeStage s = .done { dropTree s with
      nodes := tree.records 0
      root := 0
      status := { (dropTree s).status with vTree := true }
      cur := BitVec.ofNat 32 (c + tree.ser.length) } := by
  rw [← hcur, ← State.streamFromCur] at hstream
  have hnext := sbits_length_sub_of_streamFromCur hstream ((nodes_pos tree).trans_le (nodes_le_ser_length tree))
  simp only [destreeStage, hv, if_true, hstream, readTree_ser_append rest hroom, hnext, hcur]

/-- RDPAD's stage on a stream that holds a pad-count field and its padding at the cursor (R210). -/
theorem rdpadStage_of_field {s : State} {p c : Nat} {padding rest : Bits} (hv : s.status.vSbits = true)
    (hcur : s.cur.toNat = c) (hstream : s.sbits.drop c = bits8 (BitVec.ofNat 8 p) ++ (padding ++ rest)) (hp : p ≤ 7)
    (hpadding : padding.length = p) :
    rdpadStage s = .done { s with padCnt := BitVec.ofNat 32 p, cur := BitVec.ofNat 32 (c + 8 + p) } := by
  have hlen := congrArg List.length hstream
  simp only [List.length_drop, List.length_append, bits8_length, hpadding] at hlen
  have hfield : (val8 ((s.sbits.drop c).take 8)).toNat = p := by
    rw [hstream, List.take_left' (bits8_length _), val8_bits8, BitVec.toNat_ofNat]
    omega
  simp only [rdpadStage, hv, hcur, hfield, if_true]
  rw [if_neg (by omega), if_neg (by omega), if_neg (by omega)]

/-- DECTEXT's stage where the text decodes (R214). -/
theorem dectextStage_of_text {s : State} {tree : CodeTree} {text : Bits} {out : List Byte} {c : Nat}
    (hs : s.status.vSbits = true) (hv : s.status.vTree = true) (hcur : s.cur.toNat = c) (hle : c ≤ s.sbits.length)
    (htree : s.tree? = some tree) (hstream : s.sbits.drop c = text)
    (htext : decodeText tree s.cap.outMax text = .ok out) : dectextStage s = .done { s with out := out } := by
  simp only [dectextStage, State.streamFromCur, hs, hv, Bool.and_self, if_true, hcur, Nat.not_lt.mpr hle, if_false,
    htree, hstream, htext]

/-- DECOMPRESS's stage on an input whose bits are a tree, a pad-count field, padding and text that decodes, short enough
for the cursor to reach its end (R222). -/
theorem decompressStage_of_stream {s : State} {tree : CodeTree} {p : Nat} {padding text : Bits} {out : List Byte}
    (hstream : unpackBytes (inputBytes s) = tree.ser ++ (bits8 (BitVec.ofNat 8 p) ++ (padding ++ text)))
    (hlength : (unpackBytes (inputBytes s)).length < 2 ^ 32) (hp : p ≤ 7) (hpadding : padding.length = p)
    (hroom : tree.nodes ≤ s.cap.nodeMax) (htext : decodeText tree s.cap.outMax text = .ok out) :
    decompressStage s = .done { decompressStart s with
      sbits := unpackBytes (inputBytes s)
      nodes := tree.records 0
      padCnt := BitVec.ofNat 32 p
      cur := BitVec.ofNat 32 (tree.ser.length + 8 + p)
      out := out
      status := { s.status with vSbits := true, vTree := true } } := by
  have hparts := congrArg List.length hstream
  simp only [List.length_append, bits8_length, hpadding] at hparts
  have hfield : (unpackBytes (inputBytes s)).drop tree.ser.length =
      bits8 (BitVec.ofNat 8 p) ++ (padding ++ text) := by
    rw [hstream, List.drop_left]
  have htail : (unpackBytes (inputBytes s)).drop (tree.ser.length + 8 + p) = text := by
    rw [Nat.add_assoc, ← List.drop_drop, hfield, ← List.append_assoc]
    exact List.drop_left' (by rw [List.length_append, bits8_length, hpadding])
  have hle : tree.ser.length + 8 + p ≤ (unpackBytes (inputBytes s)).length := by omega
  have hcur : (BitVec.ofNat 32 (0 + tree.ser.length)).toNat = tree.ser.length := by
    rw [Nat.zero_add]
    exact Nat.mod_eq_of_lt (by omega)
  exact andThen_of_done (andThen_of_done (andThen_of_done (unpackStage_eq _)
    (destreeStage_of_ser (c := 0) rfl rfl hstream hroom)) (rdpadStage_of_field rfl hcur hfield hp hpadding))
    (dectextStage_of_text rfl rfl (Nat.mod_eq_of_lt (by omega)) hle (tree?_of_records rfl rfl) htail htext)

end Sys2Proof.Machine
end

section
/-! What COMPRESS (R200) comes to: EmptyInputError, CapacityError, or the state R203 describes. -/

namespace Sys2Proof.Machine

/-- `t` is `s` but for the arena, the queue, ROOT and V_TREE, all that the builder writes (R131, R135). -/
def SameButTree (s t : State) : Prop :=
  ∃ nodes pq root v, t = { s with nodes := nodes, pq := pq, root := root, status := { s.status with vTree := v } }

theorem SameButTree.rfl {s : State} : SameButTree s s := ⟨_, _, _, _, Eq.refl s⟩

theorem SameButTree.trans {s t u : State} (ht : SameButTree s t) (hu : SameButTree t u) : SameButTree s u := by
  obtain ⟨_, _, _, _, rfl⟩ := ht
  obtain ⟨_, _, _, _, rfl⟩ := hu
  exact ⟨_, _, _, _, Eq.refl _⟩

theorem seedStage_sameButTree (s : State) : (seedStage s).Leaves (SameButTree s) := by
  rcases seedStage_cases s with ⟨-, h⟩ | ⟨-, h⟩ <;> rw [h] <;> exact ⟨_, _, _, _, Eq.refl _⟩

theorem mergeStage_sameButTree (s : State) : (mergeStage s).Leaves (SameButTree s) := by
  rcases mergeStage_cases s with ⟨-, h⟩ | ⟨a, b, rest, -, -, h⟩ | ⟨-, -, h⟩ <;> rw [h]
  · exact SameButTree.rfl
  · rw [mergeTop_eq]
    exact ⟨_, _, _, _, Eq.refl _⟩
  · trivial

theorem mergeLoop_sameButTree (fuel : Nat) (s : State) : (mergeLoop fuel s).Leaves (SameButTree s) := by
  induction fuel generalizing s with
  | zero => exact SameButTree.rfl
  | succ fuel ih =>
    rw [mergeLoop]
    split
    · exact (mergeStage_sameButTree s).andThen fun t ht => (ih t).mono fun _ hu => ht.trans hu
    · exact SameButTree.rfl

theorem buildStage_sameButTree (s : State) : (buildStage s).Leaves (SameButTree s) :=
  (seedStage_sameButTree s).andThen fun t ht => (mergeLoop_sameButTree _ t).mono fun _ hu => ht.trans hu

/-- No entry of the counts of an input wraps, because a symbol occurs at most IN_LEN times (R121). -/
theorem inputCounts_toNat (s : State) (b : Byte) :
    (Freq.count ((inputBytes s).foldl bumpCount []) b).toNat = (inputBytes s).count b :=
  exec_count_freq (exec_count s) b

/-- The symbols present in the counts of an input are the input's bytes. -/
theorem mem_presentSymbols_inputCounts {s : State} {b : Byte} :
    b ∈ presentSymbols ((inputBytes s).foldl bumpCount []) ↔ b ∈ inputBytes s := by
  rw [mem_presentSymbols, ← List.count_pos_iff, ← inputCounts_toNat, Nat.pos_iff_ne_zero]
  exact BitVec.toNat_inj.symm.not

/-- COMPRESS after COUNT: its own fields cleared, and FREQ the counts of the input (R120, R200). -/
def counted (s : State) : State := { compressStart s with freq := (inputBytes s).foldl bumpCount [] }

/-- COMPRESS stops after COUNT where the input is empty, and only there (R200, step 1). -/
theorem count_requireInput (s : State) :
    (countStage (compressStart s)).andThen requireInput =
      if s.inLen = 0 then .raised .emptyInput (counted s) else .done (counted s) := rfl

/-- The counts of a non-empty input name a symbol. -/
theorem presentSymbols_counted_ne_nil {s : State} (h : s.inLen ≠ 0) : presentSymbols (counted s).freq ≠ [] := by
  have hpos : 0 < (inputBytes s).length := by
    rw [inputBytes_length]
    exact Nat.pos_of_ne_zero fun h0 => h (BitVec.eq_of_toNat_eq h0)
  exact List.ne_nil_of_mem (mem_presentSymbols_inputCounts.mpr (List.getElem_mem hpos))

/-- The state `v` COMPRESS has reached after CODES, from a state `s` with an input (R200, R203): the counts of the
input, their tree at the last of 2k-1 records, and the tree's codes. -/
structure CodesReady (s v : State) (tree : CodeTree) : Prop where
  frame : v = { compressStart s with
    freq := (inputBytes s).foldl bumpCount []
    nodes := v.nodes
    pq := v.pq
    root := v.root
    code := v.code
    status := { s.status.clearValid with vTree := true, vCodes := true } }
  tree? : v.tree? = some tree
  symbols : tree.symbols.Perm (presentSymbols ((inputBytes s).foldl bumpCount []))
  pq : v.pq.length = 1
  nodes : v.nodes.length + 1 = 2 * tree.leaves
  root : v.root = BitVec.ofNat 32 (2 * tree.leaves - 2)
  code : Code.entry v.code = codesOf tree

section
variable {s v : State} {tree : CodeTree} (h : CodesReady s v tree)
include h

theorem CodesReady.inputBytes : Machine.inputBytes v = Machine.inputBytes s := by
  rw [h.frame]
  rfl

theorem CodesReady.cap : v.cap = s.cap := by
  rw [h.frame]
  rfl

theorem CodesReady.out : v.out = [] := by
  rw [h.frame]
  rfl

theorem CodesReady.err : v.err = s.err := by
  rw [h.frame]
  rfl

/-- Every byte of the input is at a leaf of the tree. -/
theorem CodesReady.mem_symbols {b : Byte} (hb : b ∈ Machine.inputBytes s) : b ∈ tree.symbols :=
  h.symbols.mem_iff.mpr (mem_presentSymbols_inputCounts.mpr hb)

/-- Every byte of the input has a code, so that NoCodeError "cannot happen inside COMPRESS" (R192). -/
theorem CodesReady.isSome_entry {b : Byte} (hb : b ∈ Machine.inputBytes v) :
    (Code.entry v.code b).isSome = true := by
  rw [h.code, codesOf_isSome_iff]
  exact h.mem_symbols (h.inputBytes ▸ hb)

/-- A tree of the counts of an input has at most 256 leaves. -/
theorem CodesReady.leaves_le : tree.leaves ≤ 256 := by
  rw [← symbols_length, h.symbols.length_eq]
  exact presentSymbols_length_le _

end

/-- CODES' stage completes on a tree of at most 256 leaves (R152). -/
theorem codesStage_of_leaves_le {s : State} {tree : CodeTree} (hv : s.status.vTree = true) (ht : s.tree? = some tree)
    (hleaves : tree.leaves ≤ 256) :
    ∃ table, codesStage s = .done { s with code := table, status := { s.status with vCodes := true } } ∧
      Code.entry table = codesOf tree := by
  have hdepth := depth_lt_leaves tree
  obtain ⟨table, hwalk, hentry⟩ := walkCodes_of_depth_le (t := tree) (path := []) [] (by rw [List.length_nil]; omega)
  exact ⟨table, codesStage_of_walk hv ht hwalk, funext fun b => by simpa [Code.entry, Cells.read?] using hentry b⟩

/-- With an input COMPRESS gets through its first four stages (R200, R201). -/
theorem exists_codesReady {s : State} (h : s.inLen ≠ 0) :
    ∃ v tree, (((countStage (compressStart s)).andThen requireInput).andThen buildStage).andThen codesStage = .done v ∧
      CodesReady s v tree := by
  have hpresent := presentSymbols_counted_ne_nil h
  obtain ⟨u, hbuild, hbuilding, hlen⟩ := buildStage_building hpresent
  obtain ⟨r, tree, -, hr, hnodes, hroot, hvalid, htree, hsymbols, -⟩ := hbuilding.tree hlen
  have hframe := buildStage_sameButTree (counted s)
  rw [hbuild] at hframe
  obtain ⟨nodes, pq, root, vTree, rfl⟩ := hframe
  have hleaves : tree.leaves = (presentSymbols (counted s).freq).length := by simpa using hsymbols.length_eq
  have hle := presentSymbols_length_le (counted s).freq
  obtain ⟨table, hcodes, hentry⟩ := codesStage_of_leaves_le hvalid htree (hleaves.trans_le hle)
  obtain rfl : vTree = true := hvalid
  have hcount := (count_requireInput s).trans (if_neg h)
  refine ⟨_, tree, andThen_of_done (andThen_of_done hcount hbuild) hcodes, Eq.refl _, htree, hsymbols, hlen, ?_, ?_,
    hentry⟩
  · rw [hleaves]
    exact hnodes
  · rw [hroot, hleaves]
    congr 1
    omega

end Sys2Proof.Machine
end

section
/-! COMPRESS (R200) to its end: EmptyInputError, CapacityError, or the state R203 describes. -/

namespace Sys2Proof.Machine

/-- ENCTEXT's stage where its loop runs through (R190). -/
theorem enctextStage_of_ok {s : State} {x : Bits} (hv : s.status.vCodes = true)
    (hx : encodeText s.code s.cap.xbitsMax 0 (inputBytes s) = .ok x) :
    enctextStage s = .done { s with xbits := x, status := { s.status with vXbits := true } } := by
  simp only [enctextStage, hv, hx, if_true]

/-- SERTREE's stage with a tree (R161). -/
theorem sertreeStage_of_tree {s : State} {tree : CodeTree} (hv : s.status.vTree = true) (ht : s.tree? = some tree) :
    sertreeStage s = .done { s with tbits := tree.ser, status := { s.status with vTbits := true } } := by
  simp only [sertreeStage, hv, ht, if_true]

/-- The text bits of the input of `v` under the codes of the tree (R190). -/
abbrev inputText (v : State) (tree : CodeTree) : Bits := textOf (codesOf tree) (inputBytes v)

/-- COMPRESS after SERTREE, from the state `v` after CODES: the text bits and the tree bits (R190, R161). -/
def serialised (v : State) (tree : CodeTree) : State :=
  { v with
    xbits := inputText v tree
    tbits := tree.ser
    status := { v.status with vXbits := true, vTbits := true } }

/-- COMPRESS after ASSEMBLE: also the stream (R195). -/
def assembled (v : State) (tree : CodeTree) : State :=
  { serialised v tree with
    sbits := assembleStream tree.ser (inputText v tree)
    padCnt := BitVec.ofNat 32 (padCount tree.ser.length (inputText v tree).length)
    cur := 0
    status := { (serialised v tree).status with vSbits := true } }

/-- COMPRESS after PACK: also the stream's bytes (R180). -/
def packed (v : State) (tree : CodeTree) : State :=
  { assembled v tree with out := packBits (assembled v tree).sbits }

/-- ENCTEXT and SERTREE after CODES: every byte has a code, so that CapacityError is the one error (R192). -/
theorem CodesReady.enctext_sertree {s v : State} {tree : CodeTree} (h : CodesReady s v tree) :
    (∃ u, (enctextStage v).andThen sertreeStage = .raised .capacity u ∧ u.out = []) ∨
    (enctextStage v).andThen sertreeStage = .done (serialised v tree) := by
  have hcodes : v.status.vCodes = true := by rw [h.frame]
  have htree : v.status.vTree = true := by rw [h.frame]
  rcases encodeText_cases (room := v.cap.xbitsMax) (used := 0) (fun _ => h.isSome_entry) with he | hx
  · exact .inl ⟨_, andThen_of_raised (enctextStage_of_error hcodes he), h.out⟩
  · rw [h.code] at hx
    exact .inr (andThen_of_done (enctextStage_of_ok hcodes hx) (sertreeStage_of_tree htree h.tree?))

/-- ASSEMBLE and PACK after SERTREE: CapacityError is the one error (R197, R181). -/
theorem assemble_pack_serialised {v : State} {tree : CodeTree} (hout : v.out = []) :
    (∃ u, (assembleStage (serialised v tree)).andThen packStage = .raised .capacity u ∧ u.out = []) ∨
    ((assembled v tree).sbits.length ≤ v.cap.sbitsMax ∧
      (assembleStage (serialised v tree)).andThen packStage = .done (packed v tree)) := by
  rcases assembleStage_cases (serialised v tree) with ⟨hmissing, -⟩ | ⟨-, -, -, hs⟩ | ⟨-, -, hroom, hs⟩
  · rcases hmissing with h | h <;> cases h
  · exact .inl ⟨_, andThen_of_raised hs, hout⟩
  · rcases packStage_cases (assembled v tree) with ⟨hmissing, -⟩ | ⟨-, -, hp⟩ | ⟨-, -, hp⟩
    · cases hmissing
    · exact .inl ⟨_, andThen_of_done hs hp, rfl⟩
    · exact .inr ⟨hroom, andThen_of_done hs hp⟩

/-- What COMPRESS's stage can come to (R200, R201, R203). -/
theorem compressStage_cases (s : State) :
    (s.inLen = 0 ∧ compressStage s = .raised .emptyInput (counted s)) ∨
    (∃ u, compressStage s = .raised .capacity u ∧ u.out = []) ∨
    (∃ v tree, CodesReady s v tree ∧ (assembled v tree).sbits.length ≤ s.cap.sbitsMax ∧
      compressStage s = .done (packed v tree)) := by
  by_cases h : s.inLen = 0
  · refine .inl ⟨h, ?_⟩
    rw [compressStage, count_requireInput, if_pos h]
    rfl
  · obtain ⟨v, tree, hchain, hv⟩ := exists_codesReady h
    rw [compressStage, hchain, andThen_done]
    rcases hv.enctext_sertree with ⟨u, hs, hu⟩ | hs <;> rw [hs]
    · exact .inr (.inl ⟨u, rfl, hu⟩)
    · rcases assemble_pack_serialised hv.out with hfull | ⟨hroom, hp⟩
      · exact .inr (.inl hfull)
      · exact .inr (.inr ⟨v, tree, hv, hv.cap ▸ hroom, hp⟩)

/-- What COMPRESS can come to (R200, R201, R203). -/
theorem exec_compress_cases {s t : State} (h : exec .compress s = .next t) :
    t.err = some .emptyInput ∨ t.err = some .capacity ∨
    (∃ v tree, CodesReady (startCommand s) v tree ∧ (assembled v tree).sbits.length ≤ s.cap.sbitsMax ∧
      t = completeCommand (packed v tree)) := by
  rw [exec_eq_runCommand, runCommand, commandStage] at h
  rcases compressStage_cases (startCommand s) with ⟨-, hs⟩ | ⟨u, hs, -⟩ | ⟨v, tree, hv, hroom, hs⟩ <;>
    rw [hs] at h <;> obtain rfl := Host.Outcome.next.inj h
  · exact .inl rfl
  · exact .inr (.inl rfl)
  · exact .inr (.inr ⟨v, tree, hv, hroom, rfl⟩)

/-- A COMPRESS without error ends in the state R203 describes, and its stream fits SBITS. -/
theorem exec_compress_of_no_err {s t : State} (h : exec .compress s = .next t) (he : t.err = none) :
    ∃ v tree, CodesReady (startCommand s) v tree ∧ (assembled v tree).sbits.length ≤ s.cap.sbitsMax ∧
      t = completeCommand (packed v tree) := by
  rcases exec_compress_cases h with herr | herr | hdone
  · simp [he] at herr
  · simp [he] at herr
  · exact hdone

/-- COMPRESS never ends in NoCodeError (R192). -/
theorem exec_compress_err_ne_noCode {s t : State} (h : exec .compress s = .next t) : t.err ≠ some .noCode := by
  rcases exec_compress_cases h with herr | herr | ⟨v, tree, hv, -, rfl⟩
  · simp [herr]
  · simp [herr]
  · have herr : (completeCommand (packed v tree)).err = none := hv.err
    exact ne_of_eq_of_ne herr (Option.some_ne_none _).symm

end Sys2Proof.Machine
end

section
/-! What COMPRESS leaves (R192, R203), and that DECOMPRESS takes it back to the input (R206). -/

namespace Sys2Proof.Machine

/-- Settles O32: the loop runs to the first byte that fails it, and inside COMPRESS every byte has a code. -/
theorem enctextErrors : Obligations.EnctextErrors := by
  refine ⟨fun _ hv => exec_enctext_of_no_codes hv, fun s before after b hv hinput hcoded hfits => ⟨fun hnone => ?_,
    fun hcode hfull => ?_⟩, fun _ _ h => exec_compress_err_ne_noCode h⟩
  · refine exec_enctext_of_error hv ?_
    rw [hinput]
    exact encodeText_error_of_append hcoded hfits (encodeText_of_no_code hnone)
  · refine exec_enctext_of_error hv ?_
    rw [hinput]
    exact encodeText_error_of_append hcoded hfits (encodeText_of_no_room hcode hfull)

/-- A sum over a list counts each element's term as often as the element occurs. -/
theorem sum_map_eq_sum_count_mul {α : Type} [DecidableEq α] {symbols : List α} (hnodup : symbols.Nodup)
    (hall : ∀ a, a ∈ symbols) (f : α → Nat) (l : List α) :
    (l.map f).sum = (symbols.map fun a => l.count a * f a).sum := by
  rw [Finset.sum_list_map_count, ← List.sum_toFinset _ hnodup]
  refine Finset.sum_subset (fun a _ => List.mem_toFinset.mpr (hall a)) fun a _ ha => ?_
  rw [List.count_eq_zero_of_not_mem (mt List.mem_toFinset.mpr ha), zero_smul]

/-- The symbols present in the counts of an input are the distinct bytes of the input. -/
theorem presentSymbols_inputCounts (s : State) :
    presentSymbols ((inputBytes s).foldl bumpCount []) = allSymbols.filter fun b => (inputBytes s).contains b := by
  refine List.filter_congr fun b _ => ?_
  rw [Bool.eq_iff_iff, decide_eq_true_iff, List.contains_iff_mem, ← mem_presentSymbols,
    mem_presentSymbols_inputCounts]

section
variable {s v : State} {tree : CodeTree} (h : CodesReady s v tree)
include h

/-- The tree has a leaf for each distinct byte of the input (R203). -/
theorem CodesReady.leaves : tree.leaves = (allSymbols.filter fun b => (Machine.inputBytes s).contains b).length := by
  rw [← symbols_length, h.symbols.length_eq, presentSymbols_inputCounts]

theorem CodesReady.count (b : Byte) : (Freq.count v.freq b).toNat = (Machine.inputBytes s).count b := by
  rw [h.frame]
  exact inputCounts_toNat s b

/-- The tree fits the arena of every implementation, which holds 511 records at least (R7). -/
theorem CodesReady.nodes_le : tree.nodes ≤ 511 := by
  have hleaves := h.leaves_le
  have hnodes := nodes_succ tree
  omega

/-- The text bits decode to the input, where OUT has room for it (R206). -/
theorem CodesReady.decodeText_inputText {room : Nat} (hroom : (Machine.inputBytes s).length ≤ room) :
    decodeText tree room (inputText v tree) = .ok (Machine.inputBytes s) := by
  rw [inputText, h.inputBytes]
  exact decodeText_textOf (fun _ => h.mem_symbols) hroom

/-- The text bits are as many as the counts times the code lengths, a code counting one bit at least (R193, R203). -/
theorem CodesReady.inputText_length :
    (inputText v tree).length =
      (allSymbols.map fun b => (Freq.count v.freq b).toNat * pieceLength v.code b).sum := by
  simp only [h.count]
  rw [inputText, ← h.code, textOf_entry_length fun _ => h.isSome_entry, h.inputBytes]
  exact sum_map_eq_sum_count_mul allSymbols_nodup mem_allSymbols _ _

end

/-- Settles O44: COMPRESS ends in `packed`, whose tree has a leaf for each distinct byte. -/
theorem compressResult : Obligations.CompressResult := by
  rintro s t k h he rfl
  obtain ⟨v, tree, hv, -, rfl⟩ := exec_compress_of_no_err h he
  have hleaves := hv.leaves
  have hcount := hv.count
  simp only [inputBytes_startCommand] at hleaves hcount
  have hstatus : v.status = { (startCommand s).status.clearValid with vTree := true, vCodes := true } := by
    rw [hv.frame]
  have htbits : tree.ser.length = 10 * tree.leaves - 1 := Nat.eq_sub_of_add_eq (ser_length_succ tree)
  have hpad := padCount_le tree.ser.length (inputText v tree).length
  have hpadCnt : (packed v tree).padCnt.toNat = padCount tree.ser.length (inputText v tree).length :=
    Nat.mod_eq_of_lt (by omega)
  rw [← hleaves]
  refine ⟨hcount, Nat.eq_sub_of_add_eq hv.nodes, hv.pq, hv.root, ?_, htbits, hv.inputText_length, hpadCnt, ?_,
    packBits_length _, rfl⟩
  · simp [packed, assembled, serialised, hstatus]
  · simp only [completeCommand_fields, hpadCnt, ← htbits]
    exact assembleStream_length tree.ser (inputText v tree)

/-- Packing whole bytes and unpacking them gives the bits back (R182). -/
theorem unpackBytes_packBits {b : Bits} (h : b.length % 8 = 0) : unpackBytes (packBits b) = b := by
  have hlen : (unpackBytes (packBits b)).length = b.length := by
    rw [unpackBytes_length, packBits_length]
    omega
  refine List.ext_getElem hlen fun n hn hb => ?_
  have hj : n / 8 < (packBits b).length := by
    rw [packBits_length]
    omega
  have hi : n % 8 < 8 := Nat.mod_lt n (by norm_num)
  have hbit := (unpackBytes_getD (packBits b) (n / 8) hi).trans (packBits_getD_getLsbD hj hi)
  rwa [Nat.div_add_mod, List.getD_eq_getElem _ _ hn, List.getD_eq_getElem _ _ hb] at hbit

/-- The input is the byte list that IN holds from its first element on (R40). -/
theorem inputBytes_eq_of_read {s : State} {bytes : List Byte} (hlen : s.inLen.toNat = bytes.length)
    (hread : ∀ i, i < bytes.length → Cells.read? s.inMem i = bytes[i]?) : inputBytes s = bytes := by
  refine List.ext_getElem (by rw [inputBytes_length, hlen]) fun i _ hi => ?_
  have hcell : Cells.read? s.inMem i = some bytes[i] := (hread i hi).trans (List.getElem?_eq_getElem hi)
  simp [inputBytes, State.inByte, hcell]

/-- The stream of ASSEMBLE in its four parts (R109), as DECOMPRESS takes them off one by one. -/
theorem assembleStream_eq (tree text : Bits) :
    assembleStream tree text = tree ++ (bits8 (BitVec.ofNat 8 (padCount tree.length text.length)) ++
      (List.replicate (padCount tree.length text.length) false ++ text)) := by
  simp only [assembleStream, List.append_assoc]

/-- Settles O49: unpacking gives the stream of COMPRESS back, whose tree decodes the text bits of its own codes. -/
theorem compressedInputDecompressesToItself : Obligations.CompressedInputDecompressesToItself := by
  intro s t s' hcap h he hcap' hfits hlen hread hroom
  obtain ⟨v, tree, hv, hsbits, rfl⟩ := exec_compress_of_no_err h he
  obtain ⟨-, -, ⟨-, hnodeMax, -⟩, -, -, -, hsbitsMax⟩ := hcap
  have hunpack : unpackBytes (inputBytes s') = (assembled v tree).sbits := by
    rw [inputBytes_eq_of_read hlen hread]
    exact unpackBytes_packBits ((assembleStream_length _ _).symm ▸ padCount_aligns _ _)
  have hlength : (unpackBytes (inputBytes s')).length < 2 ^ 32 := by
    rw [hunpack]
    omega
  have hnodes : tree.nodes ≤ s'.cap.nodeMax := by
    rw [hcap']
    exact hv.nodes_le.trans hnodeMax
  have htext : decodeText tree s'.cap.outMax (inputText v tree) = .ok (inputBytes s) := by
    rw [hcap', ← inputBytes_startCommand s]
    exact hv.decodeText_inputText (by simpa using hroom)
  have hstage := decompressStage_of_stream (s := startCommand s') (hunpack.trans (assembleStream_eq _ _)) hlength
    (padCount_le _ _) List.length_replicate hnodes htext
  exact ⟨_, runCommand_of_done hstage, rfl, rfl⟩

end Sys2Proof.Machine
end

section
/-! DECOMPRESS to its end (R222), where the input holds a tree, a pad-count field, padding and text that decodes. -/

namespace Sys2Proof.Machine

/-- A serialised tree of n nodes takes 5(n+1) - 1 bits (R108). -/
theorem ser_length_eq_nodes (t : CodeTree) : t.ser.length = 5 * (t.nodes + 1) - 1 := by
  have hser := ser_length_succ t
  have hnodes := nodes_succ t
  omega

/-- The bits of an input that fits IN are few enough for the cursor to reach their end (R7). -/
theorem unpackBytes_inputBytes_length_lt {s : State} (hcap : s.cap.WellFormed) (hlen : s.inLen.toNat ≤ s.cap.inMax) :
    (unpackBytes (inputBytes s)).length < 2 ^ 32 := by
  obtain ⟨⟨-, hinMax⟩, -⟩ := hcap
  rw [unpackBytes_length, inputBytes_length]
  omega

/-- Settles O48: the stage takes the four parts off the input's bits one by one, and no position passes 32 bits. -/
theorem decompressResult : Obligations.DecompressResult := by
  refine ⟨rfl, fun s tree p padding text out hcap hlen hstream hp hpadding hroom htext => ?_⟩
  have hlength := unpackBytes_inputBytes_length_lt hcap hlen
  have hparts := congrArg List.length hstream
  simp only [List.length_append, bits8_length, hpadding] at hparts
  have hstage := decompressStage_of_stream (s := startCommand s) hstream hlength hp hpadding hroom htext
  refine ⟨_, runCommand_of_done hstage, rfl, rfl, records_length tree 0, rfl, rfl, tree?_of_records rfl rfl,
    fun n hn => records_weight hn, Nat.mod_eq_of_lt (by omega), ?_, rfl⟩
  rw [← ser_length_eq_nodes]
  exact Nat.mod_eq_of_lt (by omega)

end Sys2Proof.Machine
end

section
/-! The errors of RDPAD (R211). -/

namespace Sys2Proof.Machine

/-- RDPAD without a stream (R211). -/
theorem exec_rdpad_of_no_stream {s : State} (hv : s.status.vSbits = false) :
    exec .rdpad s = .next (reportError .sequence s) := by
  rcases rdpadStage_cases (startCommand s) with ⟨-, hs⟩ | ⟨hv', -⟩ | ⟨_, hv', -, -, -, -⟩
  · exact (runCommand_of_raised hs).trans rfl
  · simp [hv] at hv'
  · simp [hv] at hv'

/-- RDPAD where the byte at the cursor is no pad count, or the stream ends before the padding does (R211). -/
theorem exec_rdpad_of_corrupt {s : State} (hv : s.status.vSbits = true)
    (hbad : 7 < (val8 (s.streamFromCur.take 8)).toNat ∨
      s.sbits.length < s.cur.toNat + 8 + (val8 (s.streamFromCur.take 8)).toNat) :
    exec .rdpad s = .next (reportError .corruptStream s) := by
  rcases rdpadStage_cases (startCommand s) with ⟨hv', -⟩ | ⟨-, hs⟩ | ⟨_, -, rfl, hp, hfits, -⟩
  · simp [hv] at hv'
  · exact (runCommand_of_raised hs).trans rfl
  · exact absurd ⟨hp, hfits⟩ (not_and_or.mpr (hbad.imp Nat.not_le.mpr Nat.not_le.mpr))

/-- Settles O35: every CorruptStreamError is a field above 7 or a stream too short for the field and its padding. -/
theorem rdpadErrors : Obligations.RdpadErrors := by
  refine fun s => ⟨fun hv => exec_rdpad_of_no_stream hv, fun hv hshort => exec_rdpad_of_corrupt hv (.inr (by omega)),
    fun field rest hv hstream hbad => exec_rdpad_of_corrupt hv ?_⟩
  have hlen := congrArg List.length hstream
  simp only [State.streamFromCur, List.length_drop, List.length_append, bits8_length] at hlen
  rw [hstream, List.take_left' (bits8_length field), val8_bits8]
  omega

end Sys2Proof.Machine
end

section
/-! DECTEXT under a root that is a leaf (R216). -/

namespace Sys2Proof.Machine

/-- Under a leaf of symbol `b` each bit 0 is one `b`, and the bits after the zeros decode into the room left (R216). -/
theorem decodeText_leaf_replicate_append (b : Byte) (n room : Nat) (rest : Bits) :
    decodeText (.leaf b) (n + room) (List.replicate n false ++ rest) =
      (decodeText (.leaf b) room rest).map (List.replicate n b ++ ·) := by
  induction n with
  | zero => cases h : decodeText (.leaf b) room rest <;> simp [h, Except.map]
  | succ n ih =>
    have hcode : codesOf (.leaf b) b = some [] := by simp [codesOf]
    have hstep := decodeText_piece_append (n + room) (List.replicate n false ++ rest) hcode
    rw [ih] at hstep
    rw [Nat.add_right_comm]
    refine hstep.trans ?_
    cases decodeText (.leaf b) room rest <;> rfl

/-- A bit 1 under a leaf is no text (R216). -/
theorem decodeText_leaf_one (b : Byte) (room : Nat) (rest : Bits) :
    decodeText (.leaf b) room (true :: rest) = .error .corruptStream := by
  cases room <;> rfl

/-- A bit 0 under a leaf with OUT full (R217). -/
theorem decodeText_leaf_full (b : Byte) (rest : Bits) :
    decodeText (.leaf b) 0 (false :: rest) = .error .capacity := rfl

section
variable {s : State} {tree : CodeTree} (hs : s.status.vSbits = true) (hv : s.status.vTree = true)
  (hle : s.cur.toNat ≤ s.sbits.length) (htree : s.tree? = some tree)
include hs hv hle htree

/-- DECTEXT's stage takes the error of the text (R217). -/
theorem dectextStage_of_error {e : ErrorKind} (h : decodeText tree s.cap.outMax s.streamFromCur = .error e) :
    dectextStage s = .raised e { s with out := [] } := by
  simp only [dectextStage, hs, hv, Bool.and_self, if_true, Nat.not_lt.mpr hle, if_false, htree, h]

/-- DECTEXT where the text decodes (R214). -/
theorem exec_dectext_of_ok {out : List Byte} (h : decodeText tree s.cap.outMax s.streamFromCur = .ok out) :
    exec .dectext s = .next { reportDone s with out := out } :=
  runCommand_of_done (dectextStage_of_text (s := startCommand s) hs hv rfl hle htree rfl h)

/-- DECTEXT where the text does not decode (R217). -/
theorem exec_dectext_of_error {e : ErrorKind} (h : decodeText tree s.cap.outMax s.streamFromCur = .error e) :
    exec .dectext s = .next (reportError e { s with out := [] }) := by
  have hstage := dectextStage_of_error (s := startCommand s) hs hv hle htree h
  exact (runCommand_of_raised hstage).trans rfl

end

/-- Settles O37: the zeros before the first 1 bit, or before the end of OUT, decode first, and then that bit decides. -/
theorem dectextUnderLeafRoot : Obligations.DectextUnderLeafRoot := by
  refine fun s b n hs hv hle htree => ⟨fun hstream hfits => exec_dectext_of_ok hs hv hle htree ?_,
    fun rest hstream hfits => exec_dectext_of_error hs hv hle htree ?_,
    fun rest hstream hfull => exec_dectext_of_error hs hv hle htree ?_⟩ <;> rw [hstream]
  · obtain ⟨room, hroom⟩ := Nat.exists_eq_add_of_le hfits
    have h := decodeText_leaf_replicate_append b n room []
    rwa [List.append_nil, decodeText_nil, ← hroom, Except.map, List.append_nil] at h
  · obtain ⟨room, hroom⟩ := Nat.exists_eq_add_of_le hfits
    rw [hroom, decodeText_leaf_replicate_append, decodeText_leaf_one]
    rfl
  · obtain ⟨k, rfl⟩ := Nat.exists_eq_add_of_lt hfull
    have h := decodeText_leaf_replicate_append b s.cap.outMax 0 (false :: (List.replicate k false ++ rest))
    rw [decodeText_leaf_full] at h
    rw [Nat.add_assoc, List.replicate_add, List.replicate_succ, List.append_assoc]
    exact h

end Sys2Proof.Machine
end

section
/-! A word that is no command's is illegal, and taking it changes the report alone (R102, R232). -/

namespace Sys2Proof.Machine

/-- The word of every command is legal (R101, R102). -/
theorem encode_legal (i : Instr) : rsvField (encode i) = 0 ∧ opField (encode i) ∈ implementedOps := by
  cases i <;> decide

/-- Only a legal word decodes (R102). -/
theorem legal_of_decode {w : Word} {i : Instr} (h : decode w = .ok i) :
    rsvField w = 0 ∧ opField w ∈ implementedOps :=
  eq_encode_of_decode h ▸ encode_legal i

/-- The decoder rejects every illegal word (R102). -/
theorem decode_eq_error_of_illegal {w : Word} (h : rsvField w ≠ 0 ∨ opField w ∉ implementedOps) :
    ∃ e, decode w = .error e := by
  cases hd : decode w with
  | error e => exact ⟨e, rfl⟩
  | ok i => exact absurd (legal_of_decode hd) (not_and_or.mpr h)

/-- While the block is idle a step takes a CMD write of an illegal word by storing it and reporting the error (R232). -/
theorem step_illegal {s : State} {w : Word} {rest : List HostOp} (hh : s.host = .write cmdAddr w :: rest)
    (hb : s.status.busy = false) (hw : rsvField w ≠ 0 ∨ opField w ∉ implementedOps) :
    step s = .next (reportError .illegalCommand { taken s rest with cmd := w }) := by
  obtain ⟨e, hd⟩ := decode_eq_error_of_illegal hw
  rw [step_command hh hb, acceptCommand_of_error hd, illegalCommand_eq]

/-- Settles O4: the decoder rejects the word, and the registers are read off the reported state. -/
theorem illegalWordOnlyReportsError : Obligations.IllegalWordOnlyReportsError :=
  fun _ _ _ hh hb hw => ⟨_, step_illegal hh hb hw, rfl, rfl, rfl, rfl, rfl, rfl⟩

end Sys2Proof.Machine
end

section
/-! The errors that the loops inside the stages raise (R152, R167 to R169, R192, R216, R217): none of them is
SequenceError. -/

namespace Sys2Proof.Machine

/-- The walk of a tree raises CapacityError alone (R152). -/
theorem walkCodes_error_eq_capacity {t : CodeTree} {path : Bits} {table : List (Nat × Bits)} {e : ErrorKind}
    (h : walkCodes t path table = .error e) : e = .capacity := by
  induction t generalizing path table with
  | leaf b =>
    rw [walkCodes] at h
    split at h
    · exact (Except.error.inj h).symm
    · cases h
  | node l r ihl ihr =>
    rw [walkCodes] at h
    split at h
    next hl =>
      cases h
      exact ihl hl
    next => exact ihr h

/-- Reading a tree raises MalformedTreeError or CapacityError (R167 to R169). -/
theorem parseTree_error_cases {room fuel used : Nat} {b : Bits} {e : ErrorKind}
    (h : parseTree room fuel b used = .error e) : e = .malformedTree ∨ e = .capacity := by
  induction fuel generalizing b used with
  | zero => exact .inl (Except.error.inj h).symm
  | succ fuel ih =>
    cases b with
    | nil => exact .inl (Except.error.inj h).symm
    | cons tag rest =>
      rw [parseTree] at h
      split at h
      · exact .inr (Except.error.inj h).symm
      split at h
      · split at h
        · exact .inl (Except.error.inj h).symm
        · cases h
      split at h
      next hl =>
        cases h
        exact ih hl
      next =>
        split at h
        next hr =>
          cases h
          exact ih hr
        next => cases h

/-- The loop of ENCTEXT raises NoCodeError or CapacityError (R192). -/
theorem encodeText_error_cases {table : List (Nat × Bits)} {room used : Nat} {bytes : List Byte} {e : ErrorKind}
    (h : encodeText table room used bytes = .error e) : e = .noCode ∨ e = .capacity := by
  induction bytes generalizing used with
  | nil => cases h
  | cons b rest ih =>
    rw [encodeText] at h
    split at h
    · exact .inl (Except.error.inj h).symm
    split at h
    · exact .inr (Except.error.inj h).symm
    split at h
    next hrest =>
      cases h
      exact ih hrest
    next => cases h

/-- Decoding under a leaf raises CorruptStreamError or CapacityError (R216, R217). -/
theorem decodeUnderLeaf_error_cases {b : Byte} {room : Nat} {x : Bits} {e : ErrorKind}
    (h : decodeUnderLeaf b room x = .error e) : e = .corruptStream ∨ e = .capacity := by
  induction x generalizing room with
  | nil => cases room <;> cases h
  | cons d rest ih =>
    rw [decodeUnderLeaf.eq_def] at h
    dsimp only at h
    split at h
    · exact .inl (Except.error.inj h).symm
    split at h
    · exact .inr (Except.error.inj h).symm
    split at h
    next hrest =>
      cases h
      exact ih hrest
    next => cases h

/-- The tree walk raises CorruptStreamError or CapacityError (R217). -/
theorem decodeWalk_error_cases {root pos : CodeTree × CodeTree} {mid : Bool} {room : Nat} {x : Bits} {e : ErrorKind}
    (h : decodeWalk root pos mid room x = .error e) : e = .corruptStream ∨ e = .capacity := by
  induction x generalizing pos mid room with
  | nil =>
    rw [decodeWalk] at h
    split at h
    · exact .inl (Except.error.inj h).symm
    · cases h
  | cons d rest ih =>
    rw [decodeWalk] at h
    split at h
    · exact ih h
    split at h
    · exact .inr (Except.error.inj h).symm
    split at h
    next hrest =>
      cases h
      exact ih hrest
    next => cases h

/-- Decoding the text raises CorruptStreamError or CapacityError (R216, R217). -/
theorem decodeText_error_cases {t : CodeTree} {room : Nat} {x : Bits} {e : ErrorKind}
    (h : decodeText t room x = .error e) : e = .corruptStream ∨ e = .capacity := by
  cases t with
  | leaf b => exact decodeUnderLeaf_error_cases h
  | node l r => exact decodeWalk_error_cases h

end Sys2Proof.Machine
end

section
/-! A command raises SequenceError exactly when a structure it needs is absent (R38, R245): one lemma per stage, then
all commands at once. -/

namespace Sys2Proof.Machine

section
variable {s u : State}

/-- MERGE needs two handles queued (R136). -/
theorem mergeStage_eq_raised_sequence_iff :
    mergeStage s = .raised .sequence u ↔ commandReady .merge s = false ∧ u = s := by
  rcases mergeStage_cases s with ⟨hlt, hs⟩ | ⟨_, _, _, hpq, -, hs⟩ | ⟨hle, -, hs⟩
  · simp [commandReady, hs, hlt, eq_comm]
  · simp [commandReady, hs, hpq]
  · simp [commandReady, hs, hle]

/-- CODES needs a tree (R150). -/
theorem codesStage_eq_raised_sequence_iff :
    codesStage s = .raised .sequence u ↔ commandReady .codes s = false ∧ u = s := by
  rcases codesStage_cases s with ⟨hv, hs⟩ | ⟨hv, -, hs⟩ | ⟨_, _, hv, -, he, hs⟩ | ⟨_, _, hv, -, -, hs⟩
  · simp [commandReady, hs, hv, eq_comm]
  · simp [commandReady, hs, hv]
  · simp [commandReady, hs, hv, walkCodes_error_eq_capacity he]
  · simp [commandReady, hs, hv]

/-- SERTREE needs a tree (R161). -/
theorem sertreeStage_eq_raised_sequence_iff :
    sertreeStage s = .raised .sequence u ↔ commandReady .sertree s = false ∧ u = s := by
  rcases sertreeStage_cases s with ⟨hv, hs⟩ | ⟨hv, -, hs⟩ | ⟨_, hv, -, hs⟩
  · simp [commandReady, hs, hv, eq_comm]
  · simp [commandReady, hs, hv]
  · simp [commandReady, hs, hv]

/-- DESTREE needs a stream (R165). -/
theorem destreeStage_eq_raised_sequence_iff :
    destreeStage s = .raised .sequence u ↔ commandReady .destree s = false ∧ u = s := by
  rcases destreeStage_cases s with ⟨hv, hs⟩ | ⟨_, hv, he, hs⟩ | ⟨_, _, _, hv, -, hs⟩
  · simp [commandReady, hs, hv, eq_comm]
  · rcases parseTree_error_cases he with rfl | rfl <;> simp [commandReady, hs, hv]
  · simp [commandReady, hs, hv]

/-- PACK needs a stream (R180). -/
theorem packStage_eq_raised_sequence_iff :
    packStage s = .raised .sequence u ↔ commandReady .pack s = false ∧ u = s := by
  rcases packStage_cases s with ⟨hv, hs⟩ | ⟨hv, -, hs⟩ | ⟨hv, -, hs⟩
  · simp [commandReady, hs, hv, eq_comm]
  · simp [commandReady, hs, hv]
  · simp [commandReady, hs, hv]

/-- ENCTEXT needs a code table (R190). -/
theorem enctextStage_eq_raised_sequence_iff :
    enctextStage s = .raised .sequence u ↔ commandReady .enctext s = false ∧ u = s := by
  rcases enctextStage_cases s with ⟨hv, hs⟩ | ⟨_, hv, he, hs⟩ | ⟨_, hv, -, hs⟩
  · simp [commandReady, hs, hv, eq_comm]
  · rcases encodeText_error_cases he with rfl | rfl <;> simp [commandReady, hs, hv]
  · simp [commandReady, hs, hv]

/-- ASSEMBLE needs a serialised tree and encoded text (R195). -/
theorem assembleStage_eq_raised_sequence_iff :
    assembleStage s = .raised .sequence u ↔ commandReady .assemble s = false ∧ u = s := by
  rcases assembleStage_cases s with ⟨hmissing, hs⟩ | ⟨ht, hx, -, hs⟩ | ⟨ht, hx, -, hs⟩
  · simp only [commandReady, hs, Bool.and_eq_false_iff.mpr hmissing, StageResult.raised.injEq, true_and]
    exact eq_comm
  · simp [commandReady, hs, ht, hx]
  · simp [commandReady, hs, ht, hx]

/-- RDPAD needs a stream (R211). -/
theorem rdpadStage_eq_raised_sequence_iff :
    rdpadStage s = .raised .sequence u ↔ commandReady .rdpad s = false ∧ u = s := by
  rcases rdpadStage_cases s with ⟨hv, hs⟩ | ⟨hv, hs⟩ | ⟨_, hv, -, -, -, hs⟩
  · simp [commandReady, hs, hv, eq_comm]
  · simp [commandReady, hs, hv]
  · simp [commandReady, hs, hv]

/-- DECTEXT needs a stream and a tree (R214). -/
theorem dectextStage_eq_raised_sequence_iff :
    dectextStage s = .raised .sequence u ↔ commandReady .dectext s = false ∧ u = s := by
  cases hready : s.status.vSbits && s.status.vTree with
  | false => simp [dectextStage, commandReady, hready, eq_comm]
  | true =>
    rcases dectextStage_cases s with ⟨hmissing, -⟩ | ⟨-, -, -, hs⟩ | ⟨-, -, hs⟩ | ⟨_, _, -, -, -, -, he, hs⟩ |
      ⟨_, _, -, -, -, -, -, hs⟩
    · simp [Bool.and_eq_false_iff.mpr hmissing] at hready
    · simp [commandReady, hs, hready]
    · simp [commandReady, hs, hready]
    · rcases decodeText_error_cases he with rfl | rfl <;> simp [commandReady, hs, hready]
    · simp [commandReady, hs, hready]

/-- SEED needs no structure (R132). -/
theorem seedStage_ne_raised_sequence : seedStage s ≠ .raised .sequence u := by
  rcases seedStage_cases s with ⟨-, hs⟩ | ⟨-, hs⟩ <;> simp [hs]

/-- BUILD needs no structure: its merges end before the queue is too short for one (R140). -/
theorem buildStage_ne_raised_sequence : buildStage s ≠ .raised .sequence u := by
  by_cases h : presentSymbols s.freq = []
  · simp [buildStage, seedStage_of_empty h]
  · obtain ⟨t, ht, -⟩ := buildStage_building h
    simp [ht]

/-- COMPRESS needs no structure: its stages make what the later ones need (R200). -/
theorem compressStage_ne_raised_sequence : compressStage s ≠ .raised .sequence u := by
  rcases compressStage_cases s with ⟨-, hs⟩ | ⟨_, hs, -⟩ | ⟨_, _, -, -, hs⟩ <;> simp [hs]

/-- DESTREE that completes has read a stream and leaves a tree (R165). -/
theorem destreeStage_done_flags (h : destreeStage s = .done u) : u.status.vSbits = true ∧ u.status.vTree = true := by
  rcases destreeStage_cases s with ⟨-, hs⟩ | ⟨_, -, -, hs⟩ | ⟨_, _, _, hv, -, hs⟩ <;> cases hs.symm.trans h
  exact ⟨hv, rfl⟩

/-- RDPAD that completes leaves STATUS as it is (R210). -/
theorem rdpadStage_done_status (h : rdpadStage s = .done u) : u.status = s.status := by
  rcases rdpadStage_cases s with ⟨-, hs⟩ | ⟨-, hs⟩ | ⟨_, -, -, -, -, hs⟩ <;> cases hs.symm.trans h
  rfl

/-- DECOMPRESS needs no structure: UNPACK makes the stream and DESTREE the tree that the later stages need (R220). -/
theorem decompressStage_ne_raised_sequence : decompressStage s ≠ .raised .sequence u := by
  rw [decompressStage, unpackStage_eq, andThen_done]
  intro h
  simp only [andThen_eq_raised_iff, andThen_eq_done_iff] at h
  obtain (htree | ⟨a, ha, hpad⟩) | ⟨b, ⟨a, ha, hb⟩, htext⟩ := h
  · obtain ⟨hready, -⟩ := destreeStage_eq_raised_sequence_iff.mp htree
    cases hready
  · obtain ⟨hready, -⟩ := rdpadStage_eq_raised_sequence_iff.mp hpad
    simp [commandReady, destreeStage_done_flags ha] at hready
  · obtain ⟨hready, -⟩ := dectextStage_eq_raised_sequence_iff.mp htext
    simp [commandReady, rdpadStage_done_status hb, destreeStage_done_flags ha] at hready

/-- A command's stage raises SequenceError exactly when the command is not ready, and then it leaves the state as it
is. -/
theorem commandStage_eq_raised_sequence_iff (i : Instr) :
    commandStage i s = .raised .sequence u ↔ commandReady i s = false ∧ u = s :=
  match i with
  | .clr => by simp [commandStage, commandReady, clrStage]
  | .count => by simp [commandStage, commandReady, countStage_eq]
  | .seed => by simp [commandStage, commandReady, seedStage_ne_raised_sequence]
  | .merge => mergeStage_eq_raised_sequence_iff
  | .build => by simp [commandStage, commandReady, buildStage_ne_raised_sequence]
  | .codes => codesStage_eq_raised_sequence_iff
  | .sertree => sertreeStage_eq_raised_sequence_iff
  | .destree => destreeStage_eq_raised_sequence_iff
  | .pack => packStage_eq_raised_sequence_iff
  | .unpack => by simp [commandStage, commandReady, unpackStage_eq]
  | .enctext => enctextStage_eq_raised_sequence_iff
  | .assemble => assembleStage_eq_raised_sequence_iff
  | .compress => by simp [commandStage, commandReady, compressStage_ne_raised_sequence]
  | .rdpad => rdpadStage_eq_raised_sequence_iff
  | .dectext => dectextStage_eq_raised_sequence_iff
  | .decompress => by simp [commandStage, commandReady, decompressStage_ne_raised_sequence]

end

/-- The start of a command takes no structure away (R85). -/
@[simp] theorem commandReady_startCommand (i : Instr) (s : State) :
    commandReady i (startCommand s) = commandReady i s := by
  cases i <;> rfl

/-- A command that is not ready raises SequenceError and changes the report alone (R245). -/
theorem exec_of_not_ready {i : Instr} {s : State} (h : commandReady i s = false) :
    exec i s = .next (reportError .sequence s) := by
  have hstage := (commandStage_eq_raised_sequence_iff i).mpr ⟨(commandReady_startCommand i s).trans h, rfl⟩
  rw [exec_eq_runCommand, runCommand_of_raised hstage, takeError_startCommand]

/-- A command that ends with SequenceError was not ready (R245). -/
theorem not_ready_of_exec_sequence {i : Instr} {s t : State} (h : exec i s = .next t) (he : t.err = some .sequence) :
    commandReady i s = false := by
  rcases exec_eq_next_cases h with ⟨u, hu, rfl⟩ | ⟨e, u, -, hu, rfl⟩
  · cases (completeCommand_err_of_stage hu).symm.trans he
  · obtain rfl : e = .sequence := Option.some.inj he
    obtain ⟨hready, -⟩ := (commandStage_eq_raised_sequence_iff i).mp hu
    rwa [commandReady_startCommand] at hready

/-- Settles O5: a stage raises SequenceError in the one branch that its command's readiness guards, before it writes
anything. -/
theorem sequenceErrorChangesNothing : Obligations.SequenceErrorChangesNothing :=
  ⟨fun _ _ h => exec_of_not_ready h, fun _ _ _ h he => not_ready_of_exec_sequence h he, illegalCommand_eq⟩

end Sys2Proof.Machine
end

section
/-! Reading a tree (R160, R165) is the inverse of serialising it: what the reader takes off a stream is the serialised
form of what it answers. Where it answers no tree, the room left and the bits left say which error it raises (R167 to
R169). -/

namespace Sys2Proof.Machine

/-- What the reader takes off a stream is the serialised form of the tree it answers, and the records it counts are the
tree's nodes, for which there was room. -/
theorem parseTree_eq_ok {room fuel used n : Nat} {b rest : Bits} {t : CodeTree} (hused : used ≤ room)
    (h : parseTree room fuel b used = .ok (t, rest, n)) : b = t.ser ++ rest ∧ n = used + t.nodes ∧ n ≤ room := by
  induction fuel generalizing b used t rest n with
  | zero => cases h
  | succ fuel ih =>
    cases b with
    | nil => cases h
    | cons tag bits =>
      rw [parseTree] at h
      split at h
      next => cases h
      next hroom =>
        have hlt : used + 1 ≤ room := Nat.lt_of_le_of_ne hused hroom
        split at h
        next htag =>
          split at h
          next => cases h
          next hlen =>
            obtain ⟨rfl, rfl, rfl⟩ : _ ∧ _ ∧ _ := by simpa using h
            have hbyte : (bits.take 8).length = 8 := List.length_take_of_le (Nat.le_of_not_lt hlen)
            refine ⟨?_, rfl, hlt⟩
            rw [CodeTree.ser, bits8_val8 hbyte, List.cons_append, List.take_append_drop, htag]
        next htag =>
          split at h
          next => cases h
          next l bits' used' hl =>
            obtain ⟨rfl, rfl, hused'⟩ := ih hlt hl
            split at h
            next => cases h
            next r bits'' used'' hr =>
              obtain ⟨rfl, rfl, hused''⟩ := ih hused' hr
              obtain ⟨rfl, rfl, rfl⟩ : _ ∧ _ ∧ _ := by simpa using h
              refine ⟨?_, ?_, hused''⟩
              · simp [CodeTree.ser, htag]
              · rw [CodeTree.nodes]
                omega

theorem readTree_eq_ok {room n : Nat} {b rest : Bits} {t : CodeTree} (h : readTree room b = .ok (t, rest, n)) :
    b = t.ser ++ rest ∧ n = t.nodes ∧ n ≤ room := by
  simpa using parseTree_eq_ok (Nat.zero_le room) h

/-- Settles O25: serialising and reading back follow the tree, and what the reader answers it has taken off the stream,
by induction on its fuel. -/
theorem readTreeInvertsSerialisation : Obligations.ReadTreeInvertsSerialisation :=
  ⟨fun _ rest _ hroom => readTree_ser_append rest hroom, fun _ _ _ _ _ h => readTree_eq_ok h⟩

/-- The reader needs more bits than there is room for records to run out of room, as each record takes a bit (R168). -/
theorem lt_length_of_parseTree_capacity {room fuel used : Nat} {b : Bits} (hused : used ≤ room)
    (h : parseTree room fuel b used = .error .capacity) : room < used + b.length := by
  induction fuel generalizing b used with
  | zero => cases h
  | succ fuel ih =>
    cases b with
    | nil => cases h
    | cons tag bits =>
      rw [List.length_cons]
      rw [parseTree] at h
      split at h
      next hroom => omega
      next hroom =>
        have hlt : used + 1 ≤ room := Nat.lt_of_le_of_ne hused hroom
        split at h
        next => split at h <;> cases h
        next =>
          split at h
          next e hl =>
            cases h
            have := ih hlt hl
            omega
          next l bits' used' hl =>
            obtain ⟨rfl, rfl, hused'⟩ := parseTree_eq_ok hlt hl
            split at h
            next e hr =>
              cases h
              have hbits := ih hused' hr
              have hnodes := nodes_le_ser_length l
              rw [List.length_append]
              omega
            next => cases h

/-- The reader runs out of room on a serialised tree of more nodes than there is room for (R168). -/
theorem parseTree_ser_append_of_no_room {t : CodeTree} {room fuel used : Nat} (rest : Bits) (hfuel : t.depth < fuel)
    (hused : used ≤ room) (hroom : room < used + t.nodes) :
    parseTree room fuel (t.ser ++ rest) used = .error .capacity := by
  induction t generalizing fuel used rest with
  | leaf s =>
    obtain ⟨fuel, rfl⟩ := Nat.exists_eq_succ_of_ne_zero (Nat.ne_zero_of_lt hfuel)
    obtain rfl : used = room := Nat.le_antisymm hused (Nat.le_of_lt_succ hroom)
    simp [CodeTree.ser, parseTree]
  | node l r ihl ihr =>
    obtain ⟨fuel, rfl⟩ := Nat.exists_eq_succ_of_ne_zero (Nat.ne_zero_of_lt hfuel)
    simp only [CodeTree.depth, CodeTree.nodes] at hfuel hroom
    simp only [CodeTree.ser, List.cons_append, List.append_assoc, parseTree, Bool.false_eq_true, if_false]
    by_cases hfull : used = room
    · rw [if_pos hfull]
    rw [if_neg hfull]
    by_cases hleft : room < used + 1 + l.nodes
    · rw [ihl (r.ser ++ rest) (by omega) (by omega) hleft]
    · rw [parseTree_ser_append (r.ser ++ rest) (by omega) (Nat.le_of_not_lt hleft)]
      dsimp only
      rw [ihr rest (by omega) (by omega) (by omega)]

/-- A run of 0 bits is a path of internal nodes that never ends: the bits or the room run out first (R167, R168). -/
theorem parseTree_zeros {room fuel used n : Nat} (hfuel : n < fuel) (hused : used ≤ room) :
    parseTree room fuel (List.replicate n false) used =
      .error (if used + n ≤ room then .malformedTree else .capacity) := by
  induction n generalizing fuel used with
  | zero =>
    obtain ⟨fuel, rfl⟩ := Nat.exists_eq_succ_of_ne_zero (Nat.ne_zero_of_lt hfuel)
    simp [parseTree, hused]
  | succ n ih =>
    obtain ⟨fuel, rfl⟩ := Nat.exists_eq_succ_of_ne_zero (Nat.ne_zero_of_lt hfuel)
    rw [List.replicate_succ, parseTree]
    by_cases hfull : used = room
    · rw [if_pos hfull, if_neg (by omega)]
    · simp only [hfull, if_false, Bool.false_eq_true, ih (Nat.lt_of_succ_lt_succ hfuel)
        (Nat.lt_of_le_of_ne hused hfull), Nat.add_right_comm used 1 n, ← Nat.add_assoc]

theorem readTree_ser_append_of_no_room {t : CodeTree} {room : Nat} (rest : Bits) (hroom : room < t.nodes) :
    readTree room (t.ser ++ rest) = .error .capacity := by
  have hdepth := depth_lt_nodes t
  have hnodes := nodes_le_ser_length t
  refine parseTree_ser_append_of_no_room rest ?_ (Nat.zero_le room) (by simpa using hroom)
  rw [List.length_append]
  omega

theorem readTree_zeros (room n : Nat) :
    readTree room (List.replicate n false) = .error (if n ≤ room then .malformedTree else .capacity) := by
  simpa [readTree] using parseTree_zeros (fuel := (List.replicate n false).length + 1) (by simp) (Nat.zero_le room)

/-- DESTREE where the reader raises an error (R167, R168). -/
theorem exec_destree_of_error {s : State} {e : ErrorKind} (hv : s.status.vSbits = true)
    (he : readTree s.cap.nodeMax s.streamFromCur = .error e) :
    exec .destree s = .next (reportError e (dropTree s)) := by
  rcases destreeStage_cases (startCommand s) with ⟨hv', -⟩ | ⟨e', -, he', hs⟩ | ⟨_, _, _, -, hok, -⟩
  · simp [hv] at hv'
  · obtain rfl : e' = e := Except.error.inj (he'.symm.trans he)
    exact (runCommand_of_raised hs).trans rfl
  · cases hok.symm.trans he

/-- Settles O27: where no tree can be read the reader raises one of its two errors, CapacityError only past NODE_MAX
bits, and a tree too large for the arena or a run of zeros runs out of room. -/
theorem destreeErrors : Obligations.DestreeErrors := by
  intro s hv
  refine ⟨fun hnone => ?_, fun tree rest hstream hroom => exec_destree_of_error hv ?_,
    fun n hstream => exec_destree_of_error hv ?_⟩
  · cases hread : readTree s.cap.nodeMax s.streamFromCur with
    | ok r =>
      obtain ⟨t, rest, n⟩ := r
      exact absurd (readTree_eq_ok hread).1 (hnone t rest)
    | error e =>
      rcases parseTree_error_cases hread with rfl | rfl
      · exact .inl (exec_destree_of_error hv hread)
      · exact .inr ⟨exec_destree_of_error hv hread,
          by simpa using lt_length_of_parseTree_capacity (Nat.zero_le _) hread⟩
  · rw [hstream, readTree_ser_append_of_no_room rest hroom]
  · rw [hstream, readTree_zeros]

end Sys2Proof.Machine
end

section
/-! The codes of a tree are root-to-leaf paths (R111, R151), none of which begins another, and they fill the code space
where no symbol repeats (R155). CODES succeeds exactly on trees of at most 255 edges' depth (R152). -/

namespace Sys2Proof.Machine

theorem mem_paths_leaf {s : Byte} {p : Bits × Byte} : p ∈ (CodeTree.leaf s).paths ↔ p = ([], s) := by
  simp [CodeTree.paths]

/-- A path of a node is an edge and then a path of the child there (R111). -/
theorem mem_paths_node {l r : CodeTree} {p : Bits × Byte} :
    p ∈ (CodeTree.node l r).paths ↔ ∃ d q, p = (d :: q.1, q.2) ∧ q ∈ (if d then r else l).paths := by
  simp only [CodeTree.paths, List.mem_append, List.mem_map]
  constructor
  · rintro (⟨q, hq, rfl⟩ | ⟨q, hq, rfl⟩)
    · exact ⟨false, q, rfl, hq⟩
    · exact ⟨true, q, rfl, hq⟩
  · rintro ⟨d, q, rfl, hq⟩
    cases d with
    | false => exact .inl ⟨q, hq, rfl⟩
    | true => exact .inr ⟨q, hq, rfl⟩

/-- A path ends at a leaf, so that it begins no other path of the tree. -/
theorem eq_of_paths_prefix {t : CodeTree} {p q : Bits × Byte} (hp : p ∈ t.paths) (hq : q ∈ t.paths)
    (h : p.1 <+: q.1) : p = q := by
  induction t generalizing p q with
  | leaf s => rw [mem_paths_leaf.mp hp, mem_paths_leaf.mp hq]
  | node l r ihl ihr =>
    obtain ⟨d, p', rfl, hp'⟩ := mem_paths_node.mp hp
    obtain ⟨d', q', rfl, hq'⟩ := mem_paths_node.mp hq
    obtain ⟨rfl, h'⟩ := List.cons_prefix_cons.mp h
    cases d with
    | false => rw [ihl hp' hq' h']
    | true => rw [ihr hp' hq' h']

/-- The code of a symbol is the path to one of its leaves (R151). -/
theorem mem_paths_of_codesOf {t : CodeTree} {b : Byte} {p : Bits} (h : codesOf t b = some p) : (p, b) ∈ t.paths := by
  induction t generalizing p with
  | leaf s =>
    rw [codesOf_leaf, Option.ite_none_right_eq_some, Option.some.injEq] at h
    obtain ⟨rfl, rfl⟩ := h
    exact mem_paths_leaf.mpr rfl
  | node l r ihl ihr =>
    obtain ⟨d, q, rfl, hq⟩ := codesOf_node_eq_some h
    refine mem_paths_node.mpr ⟨d, (q, b), rfl, ?_⟩
    cases d with
    | false => exact ihl hq
    | true => exact ihr hq

/-- No symbol's code begins another symbol's (R155). -/
theorem codesOf_not_prefix {t : CodeTree} {a b : Byte} {p q : Bits} (hab : a ≠ b) (hp : codesOf t a = some p)
    (hq : codesOf t b = some q) : ¬ p <+: q := fun h =>
  hab (congrArg Prod.snd (eq_of_paths_prefix (mem_paths_of_codesOf hp) (mem_paths_of_codesOf hq) h))

/-- A code is no longer than the tree is deep. -/
theorem codesOf_length_le {t : CodeTree} {b : Byte} {p : Bits} (h : codesOf t b = some p) : p.length ≤ t.depth := by
  induction t generalizing p with
  | leaf s =>
    rw [codesOf_leaf, Option.ite_none_right_eq_some, Option.some.injEq] at h
    simp [← h.2]
  | node l r ihl ihr =>
    obtain ⟨d, q, rfl, hq⟩ := codesOf_node_eq_some h
    rw [List.length_cons, CodeTree.depth]
    cases d with
    | false =>
      have := ihl hq
      omega
    | true =>
      have := ihr hq
      omega

/-- The part of the code space `2^D` that the code of one symbol takes. -/
def codeShare (D : Nat) : Option Bits → Nat
  | some p => 2 ^ (D - p.length)
  | none => 0

/-- One more edge before a code halves the part of the code space it takes. -/
theorem codeShare_map_cons (D : Nat) (d : Bool) (c : Option Bits) :
    codeShare (D + 1) (c.map (d :: ·)) = codeShare D c := by
  cases c <;> simp [codeShare]

theorem codesOf_eq_none {t : CodeTree} {b : Byte} (h : b ∉ t.symbols) : codesOf t b = none :=
  Option.not_isSome_iff_eq_none.mp (mt codesOf_isSome_iff.mp h)

/-- In a node no symbol of which repeats, a symbol takes the part of the code space that it takes in the child that
has it. -/
theorem codeShare_codesOf_node {l r : CodeTree} (hdisjoint : ∀ b ∈ l.symbols, b ∉ r.symbols) (D : Nat) (b : Byte) :
    codeShare (D + 1) (codesOf (.node l r) b) = codeShare D (codesOf l b) + codeShare D (codesOf r b) := by
  rw [codesOf_node]
  by_cases hl : b ∈ l.symbols
  · rw [codesOf_eq_none (hdisjoint b hl), Option.map_none, Option.none_or, codeShare_map_cons]
    rfl
  · rw [codesOf_eq_none hl, Option.map_none, Option.or_none, codeShare_map_cons]
    exact (Nat.zero_add _).symm

/-- The codes of a tree fill the code space where no symbol repeats (R155). -/
theorem sum_codeShare {t : CodeTree} {D : Nat} (hnodup : t.symbols.Nodup) (hdepth : t.depth ≤ D) :
    (allSymbols.map fun b => codeShare D (codesOf t b)).sum = 2 ^ D := by
  induction t generalizing D with
  | leaf s =>
    have hshare (b : Byte) : codeShare D (codesOf (.leaf s) b) = if b = s then 2 ^ D else 0 := by
      rw [codesOf]
      split <;> rfl
    simp only [hshare]
    rw [← List.sum_toFinset _ allSymbols_nodup]
    simp [mem_allSymbols]
  | node l r ihl ihr =>
    obtain ⟨hl, hr, hdisjoint⟩ := List.nodup_append'.mp hnodup
    rw [CodeTree.depth] at hdepth
    obtain ⟨D, rfl⟩ : ∃ n, D = n + 1 := ⟨D - 1, by omega⟩
    simp only [codeShare_codesOf_node fun b hb => hdisjoint hb, List.sum_map_add]
    rw [ihl hl (by omega), ihr hr (by omega), Nat.pow_succ]
    omega

/-- A walk that succeeds has met no leaf deeper than 255 edges (R152). -/
theorem depth_le_of_walkCodes {t : CodeTree} {path : Bits} {table table' : List (Nat × Bits)}
    (h : walkCodes t path table = .ok table') : path.length + t.depth ≤ 255 := by
  induction t generalizing path table table' with
  | leaf s =>
    rw [walkCodes] at h
    split at h
    next => cases h
    next hlen => exact Nat.le_of_not_lt hlen
  | node l r ihl ihr =>
    rw [walkCodes] at h
    split at h
    next => cases h
    next left hl =>
      have hleft := ihl hl
      have hright := ihr h
      simp only [List.length_append, List.length_singleton] at hleft hright
      rw [CodeTree.depth]
      omega

/-- A walk of the whole tree that succeeds records its codes, none longer than 255 bits (R150, R151). -/
theorem walkCodes_eq_ok {t : CodeTree} {table : List (Nat × Bits)} (h : walkCodes t [] [] = .ok table) :
    t.depth ≤ 255 ∧ Code.entry table = codesOf t := by
  have hdepth : t.depth ≤ 255 := by simpa using depth_le_of_walkCodes h
  obtain ⟨table', hwalk, hentry⟩ := walkCodes_of_depth_le (t := t) (path := []) [] (by simpa using hdepth)
  obtain rfl : table' = table := Except.ok.inj (hwalk.symm.trans h)
  exact ⟨hdepth, funext fun b => by simpa [Code.entry, Cells.read?] using hentry b⟩

/-- A walk of a deeper tree raises CapacityError (R152). -/
theorem walkCodes_of_lt_depth {t : CodeTree} (h : 255 < t.depth) : walkCodes t [] [] = .error .capacity := by
  cases hwalk : walkCodes t [] [] with
  | ok table => exact absurd (walkCodes_eq_ok hwalk).1 (Nat.not_le.mpr h)
  | error e => rw [walkCodes_error_eq_capacity hwalk]

/-- CODES without a tree (R152). -/
theorem exec_codes_of_no_tree {s : State} (hv : s.status.vTree = false) :
    exec .codes s = .next (reportError .sequence s) := exec_of_not_ready hv

/-- CODES of a tree with a leaf deeper than 255 edges (R152). -/
theorem exec_codes_of_lt_depth {s : State} {tree : CodeTree} (hv : s.status.vTree = true)
    (htree : s.tree? = some tree) (hdepth : 255 < tree.depth) :
    exec .codes s = .next (reportError .capacity
      { s with code := [], status := { s.status with vCodes := false } }) := by
  rcases codesStage_cases (startCommand s) with ⟨hv', -⟩ | ⟨-, htree', -⟩ | ⟨t, e, -, htree', he, hs⟩ |
    ⟨t, _, -, htree', hok, -⟩
  · simp [hv] at hv'
  · simp [htree] at htree'
  · obtain rfl : tree = t := Option.some.inj (htree.symm.trans htree')
    rw [walkCodes_of_lt_depth hdepth, Except.error.injEq] at he
    subst he
    exact (runCommand_of_raised hs).trans rfl
  · obtain rfl : tree = t := Option.some.inj (htree.symm.trans htree')
    cases (walkCodes_of_lt_depth hdepth).symm.trans hok

/-- A CODES that ends without error leaves the codes of the tree at ROOT, none longer than 255 bits (R150, R151). -/
theorem exec_codes_of_no_err {s t : State} (h : exec .codes s = .next t) (he : t.err = none) :
    ∃ tree, s.tree? = some tree ∧ tree.depth ≤ 255 ∧ Code.entry t.code = codesOf tree := by
  rcases exec_eq_next_cases h with ⟨u, hu, rfl⟩ | ⟨e, u, -, -, rfl⟩
  · rcases codesStage_cases (startCommand s) with ⟨-, hs⟩ | ⟨-, -, hs⟩ | ⟨_, _, -, -, -, hs⟩ |
      ⟨tree, table, -, htree, hok, hs⟩ <;> cases hs.symm.trans hu
    obtain ⟨hdepth, hentry⟩ := walkCodes_eq_ok hok
    exact ⟨tree, htree, hdepth, hentry⟩
  · cases he

/-- BUILD and then CODES: EmptyInputError, or a built tree, which is never too deep for its codes (R152). -/
theorem build_codes_err {s t : State} (h : runCommands [.build, .codes] s = .next t) : t.err ≠ some .capacity := by
  rw [runCommands_eq_runCommand] at h
  by_cases hpresent : presentSymbols (startCommand s).freq = []
  · have hchain : chainStages [.build, .codes] (startCommand s) = .raised .emptyInput (dropTree (startCommand s)) :=
      andThen_of_raised (andThen_of_raised (seedStage_of_empty hpresent))
    rw [runCommand_of_raised hchain, Host.Outcome.next.injEq] at h
    simp [← h]
  · obtain ⟨u, hbuild, hbuilding, hlen⟩ := buildStage_building hpresent
    obtain ⟨_, tree, -, -, -, -, hvalid, htree, hsymbols, -⟩ := hbuilding.tree hlen
    have hleaves : tree.leaves ≤ 256 := by
      rw [← symbols_length, hsymbols.length_eq]
      exact presentSymbols_length_le _
    obtain ⟨table, hcodes, -⟩ := codesStage_of_leaves_le hvalid htree hleaves
    have herr : u.err = none := (hbuild ▸ buildStage_sameSide (startCommand s) :).err
    have hchain : chainStages [.build, .codes] (startCommand s) = _ :=
      andThen_of_done hbuild (andThen_of_done hcodes rfl)
    rw [runCommand_of_done hchain, Host.Outcome.next.injEq] at h
    simp [← h, herr]

/-- Settles O21: the walk meets a leaf deeper than 255 edges exactly in a tree that deep, and a built tree has at most
256 leaves. -/
theorem codesErrors : Obligations.CodesErrors :=
  ⟨fun _ hv => exec_codes_of_no_tree hv, fun _ _ hv htree hdepth => exec_codes_of_lt_depth hv htree hdepth,
    fun _ _ h => build_codes_err h⟩

/-- Settles O22: the table holds the codes of a tree, which are paths to different leaves, and each node shares its part
of the code space between its children. -/
theorem codesArePrefixFreeAndComplete : Obligations.CodesArePrefixFreeAndComplete := by
  refine ⟨fun s t h he a b p q hab hp hq => ?_, fun s t tree h he htree hnodup _ => ?_⟩ <;>
    obtain ⟨tree', htree', hdepth, hentry⟩ := exec_codes_of_no_err h he
  · exact codesOf_not_prefix hab (hentry ▸ hp) (hentry ▸ hq)
  · obtain rfl : tree = tree' := Option.some.inj (htree.symm.trans htree')
    rw [hentry]
    exact sum_codeShare hnodup hdepth

end Sys2Proof.Machine
end

section
/-! What the stages need to keep the invariant of the idle block (R52): the arena and the queue that SEED and MERGE leave
(R44, R52 (f)), the code table that CODES leaves (R52 (h)), and the room the loops keep within (R52 (a), (b)). -/

namespace Sys2Proof.Machine

theorem arenaWf_nil : arenaWf [] := ⟨.inl (by simp), .nil⟩

/-- An empty queue is well formed over every arena. -/
theorem queueWf_nil (nodes : List Node) : queueWf nodes [] := ⟨.nil, by simp, by simp⟩

/-- The leaves SEED makes have no children (R131). -/
theorem children_eq_nil_of_mem_seedLeaves {freq : List (Nat × Word)} {n : Node} (h : n ∈ seedLeaves freq) :
    n.children = [] := by
  rw [seedLeaves_eq] at h
  obtain ⟨b, -, rfl⟩ := List.mem_map.mp h
  rfl

@[simp] theorem childHandles_seedLeaves (freq : List (Nat × Word)) : childHandles (seedLeaves freq) = [] :=
  List.flatMap_eq_nil_iff.mpr fun _ => children_eq_nil_of_mem_seedLeaves

theorem builtArena_seedLeaves (freq : List (Nat × Word)) : builtArena (seedLeaves freq) := fun p hp c hc => by
  simp [children_eq_nil_of_mem_seedLeaves (List.fst_mem_of_mem_zipIdx hp)] at hc

theorem arenaWf_seedLeaves (freq : List (Nat × Word)) : arenaWf (seedLeaves freq) :=
  ⟨.inl (builtArena_seedLeaves freq), by simp⟩

/-- The weights of the handles queued are those of the items they stand for. -/
theorem QueueHolds.map_nodeWeight {nodes : List Node} {pq : List Nat} {items : List QueueItem}
    (hq : QueueHolds nodes pq items) :
    (pq.map fun h => (nodeWeight nodes h).toNat) = items.map QueueItem.weight := by
  induction hq with
  | nil => rfl
  | cons hx _ ih => rw [List.map_cons, List.map_cons, ih, (itemAt_eq_some_iff.mp hx).2.1]

/-- The weights SEED queues add up to the counts of all symbols. -/
theorem sum_nodeWeight_seedQueue (freq : List (Nat × Word)) :
    ((seedQueue (seedLeaves freq)).map fun h => (nodeWeight (seedLeaves freq) h).toNat).sum = freqTotal freq := by
  rw [((seedQueue_perm _).map _).sum_eq, (seedLeaves_queueHolds freq).map_nodeWeight, startItems_weights]

/-- The queue SEED leaves keeps R52 (f). -/
theorem queueWf_seedQueue (freq : List (Nat × Word)) : queueWf (seedLeaves freq) (seedQueue (seedLeaves freq)) := by
  refine ⟨foldr_enqueue_pairwise _ List.nodup_range, fun h hh => ⟨?_, by simp⟩,
    fun _ => ⟨builtArena_seedLeaves freq, ?_, ?_⟩⟩
  · exact List.mem_range.mp ((seedQueue_perm _).mem_iff.mp hh)
  · have hle := presentSymbols_length_le freq
    simp only [seedQueue_length, seedLeaves_length]
    omega
  · rw [sum_nodeWeight_seedQueue]
    exact freqTotal_lt freq

/-- The arena after a merge of `a` and `b` (R135). -/
abbrev mergedArena (nodes : List Node) (a b : Nat) : List Node :=
  nodes ++ [.internal a b (nodeWeight nodes a + nodeWeight nodes b)]

/-- A merge of allocated handles keeps the builder's arena: the new record's children have smaller handles (R44). -/
theorem builtArena_mergedArena {nodes : List Node} {a b : Nat} (h : builtArena nodes) (ha : a < nodes.length)
    (hb : b < nodes.length) : builtArena (mergedArena nodes a b) := by
  intro p hp c hc
  rw [List.zipIdx_append, List.mem_append] at hp
  rcases hp with hp | hp
  · exact h p hp c hc
  · obtain rfl : p = (.internal a b (nodeWeight nodes a + nodeWeight nodes b), nodes.length) := by simpa using hp
    rcases List.mem_pair.mp hc with rfl | rfl
    · exact ha
    · exact hb

/-- The children in a builder's arena are allocated. -/
theorem lt_length_of_mem_childHandles {nodes : List Node} (h : builtArena nodes) {c : Nat}
    (hc : c ∈ childHandles nodes) : c < nodes.length := by
  obtain ⟨n, hn, hcn⟩ := List.mem_flatMap.mp hc
  obtain ⟨i, hi⟩ := List.mem_iff_getElem?.mp hn
  exact (h (n, i) (List.mem_zipIdx_iff_getElem?.mpr hi) c hcn).trans (List.getElem?_eq_some_iff.mp hi).1

theorem childHandles_mergedArena (nodes : List Node) (a b : Nat) :
    childHandles (mergedArena nodes a b) = childHandles nodes ++ [a, b] := by
  simp [mergedArena, Node.children]

section
variable {nodes : List Node} {a b : Nat} {rest : List Nat} (hq : queueWf nodes (a :: b :: rest))
include hq

/-- A queue in key order names each handle once. -/
theorem queueWf.nodup : (a :: b :: rest).Nodup :=
  List.Pairwise.imp (S := (· ≠ ·)) (fun h he => keyBelow_irrefl nodes _ (he ▸ h)) hq.1

/-- A merge of two queued handles keeps R44: neither was a child before. -/
theorem arenaWf_mergedArena (harena : arenaWf nodes) : arenaWf (mergedArena nodes a b) := by
  obtain ⟨-, hfree, hbuilt⟩ := id hq
  obtain ⟨⟨ha, hac⟩, ⟨hb, hbc⟩, -⟩ : _ ∧ _ ∧ _ := by simpa using hfree
  obtain ⟨hbuilt, -⟩ := hbuilt (by simp)
  have hab : a ≠ b := by
    have := queueWf.nodup hq
    simp_all
  refine ⟨.inl (builtArena_mergedArena hbuilt ha hb), ?_⟩
  rw [childHandles_mergedArena, List.nodup_append']
  refine ⟨harena.2, by simpa using hab, fun c hc hc' => ?_⟩
  rcases List.mem_pair.mp hc' with rfl | rfl
  · exact hac hc
  · exact hbc hc

/-- The weights queued after a merge add up to what they did before, as the new one is the sum of the two taken. -/
theorem sum_nodeWeight_merged :
    ((enqueue (mergedArena nodes a b) nodes.length rest).map fun h => (nodeWeight (mergedArena nodes a b) h).toNat).sum =
      ((a :: b :: rest).map fun h => (nodeWeight nodes h).toNat).sum := by
  obtain ⟨-, hfree, hbuilt⟩ := hq
  obtain ⟨-, -, hsum⟩ := hbuilt (by simp)
  have hnew : nodeWeight (mergedArena nodes a b) nodes.length = nodeWeight nodes a + nodeWeight nodes b := by
    simp [nodeWeight, Node.weight]
  have hold : (rest.map fun h => (nodeWeight (mergedArena nodes a b) h).toNat) =
      rest.map fun h => (nodeWeight nodes h).toNat :=
    List.map_congr_left fun h hh => congrArg BitVec.toNat (nodeWeight_append (hfree h (by simp [hh])).1)
  rw [((enqueue_perm _ _ _).map _).sum_eq, List.map_cons, hold, hnew]
  simp only [List.map_cons, List.sum_cons] at hsum ⊢
  rw [BitVec.toNat_add, Nat.mod_eq_of_lt (by omega), Nat.add_assoc]

/-- A merge of the two first handles queued keeps R52 (f). -/
theorem queueWf_merged :
    queueWf (mergedArena nodes a b) (enqueue (mergedArena nodes a b) nodes.length rest) := by
  have hnodup := queueWf.nodup hq
  have hsum := sum_nodeWeight_merged hq
  obtain ⟨hord, hfree, hbuilt⟩ := hq
  obtain ⟨⟨ha, -⟩, ⟨hb, -⟩, hrest⟩ : _ ∧ _ ∧ _ := by simpa using hfree
  obtain ⟨hbuilt, hcount, hlt⟩ := hbuilt (by simp)
  refine ⟨enqueue_new_pairwise _ (fun h hh => (hrest h hh).1) hord.tail.tail, fun h hh => ?_,
    fun _ => ⟨builtArena_mergedArena hbuilt ha hb, ?_, hsum ▸ hlt⟩⟩
  · rw [childHandles_mergedArena, List.length_append]
    rcases List.mem_cons.mp ((enqueue_perm _ _ _).mem_iff.mp hh) with rfl | hh
    · have hnot : nodes.length ∉ childHandles nodes := fun hc =>
        Nat.lt_irrefl _ (lt_length_of_mem_childHandles hbuilt hc)
      simp [hnot, Nat.ne_of_gt ha, Nat.ne_of_gt hb]
    · obtain ⟨hlen, hnot⟩ := hrest h hh
      have ha' : h ≠ a := by rintro rfl; simp_all
      have hb' : h ≠ b := by rintro rfl; simp_all
      simp [hnot, ha', hb', Nat.lt_succ_of_lt hlen]
  · simp only [List.length_append, enqueue_length, List.length_cons, List.length_nil] at hcount ⊢
    omega

end

/-- The canonical form of CODE: symbols strictly rising, each below 256 (R46). -/
abbrev CodeCellsWf (table : List (Nat × Bits)) : Prop := Cells.wf table ∧ ∀ e ∈ table, e.1 < 256

/-- The walk of a tree keeps the canonical form of CODE. -/
theorem CodeCellsWf.walkCodes {t : CodeTree} {path : Bits} {table table' : List (Nat × Bits)} (hw : CodeCellsWf table)
    (h : walkCodes t path table = .ok table') : CodeCellsWf table' := by
  induction t generalizing path table table' with
  | leaf s =>
    rw [Machine.walkCodes] at h
    split at h
    next => cases h
    next =>
      obtain rfl := Except.ok.inj h
      refine ⟨Cells.wf_write hw.1 _ _, fun e he => ?_⟩
      rcases Cells.mem_write he with rfl | he
      · exact s.isLt
      · exact hw.2 e he
  | node l r ihl ihr =>
    rw [Machine.walkCodes] at h
    split at h
    next => cases h
    next left hl => exact ihr (ihl hw hl) h

/-- What canonical CODE lists is the entry of its symbol. -/
theorem CodeCellsWf.entry_of_mem {table : List (Nat × Bits)} (hw : CodeCellsWf table) {e : Nat × Bits}
    (he : e ∈ table) : Code.entry table (BitVec.ofNat 8 e.1) = some e.2 := by
  rw [Code.entry, BitVec.toNat_ofNat, Nat.mod_eq_of_lt (hw.2 e he)]
  exact (Cells.read?_eq_some_iff hw.1 _ _).mpr he

/-- A canonical table of a tree's codes keeps R52 (h). -/
theorem CodeCellsWf.prefixFree {table : List (Nat × Bits)} {t : CodeTree} (hw : CodeCellsWf table)
    (hentry : Code.entry table = codesOf t) : prefixFree table := by
  refine (List.pairwise_map.mp hw.1).imp_of_mem fun {x y} hx hy hlt => ?_
  have hne : BitVec.ofNat 8 x.1 ≠ BitVec.ofNat 8 y.1 := fun he => by
    have hxy := congrArg BitVec.toNat he
    rw [BitVec.toNat_ofNat, BitVec.toNat_ofNat, Nat.mod_eq_of_lt (hw.2 x hx), Nat.mod_eq_of_lt (hw.2 y hy)] at hxy
    exact Nat.ne_of_lt hlt hxy
  have hxc := hentry ▸ hw.entry_of_mem hx
  have hyc := hentry ▸ hw.entry_of_mem hy
  exact ⟨codesOf_not_prefix hne hxc hyc, codesOf_not_prefix hne.symm hyc hxc⟩

/-- The text bits ENCTEXT makes fit the room it has (R192). -/
theorem encodeText_length_le {table : List (Nat × Bits)} {room used : Nat} {bytes : List Byte} {x : Bits}
    (hused : used ≤ room) (h : encodeText table room used bytes = .ok x) : used + x.length ≤ room := by
  induction bytes generalizing used x with
  | nil =>
    cases h
    exact hused
  | cons b rest ih =>
    rw [encodeText] at h
    split at h
    next => cases h
    next code hcode =>
      split at h
      next => cases h
      next hroom =>
        split at h
        next => cases h
        next x' hrest =>
          cases h
          have := ih (Nat.le_of_not_lt hroom) hrest
          rw [List.length_append]
          omega

theorem decodeUnderLeaf_length_le {b : Byte} {room : Nat} {x : Bits} {out : List Byte}
    (h : decodeUnderLeaf b room x = .ok out) : out.length ≤ room := by
  induction x generalizing room out with
  | nil =>
    cases room <;> cases h <;> exact Nat.zero_le _
  | cons d rest ih =>
    rw [decodeUnderLeaf.eq_def] at h
    dsimp only at h
    split at h
    next => cases h
    next =>
      split at h
      next => cases h
      next room' =>
        split at h
        next => cases h
        next out' hrest =>
          cases h
          exact Nat.succ_le_succ (ih hrest)

theorem decodeWalk_length_le {root pos : CodeTree × CodeTree} {mid : Bool} {room : Nat} {x : Bits} {out : List Byte}
    (h : decodeWalk root pos mid room x = .ok out) : out.length ≤ room := by
  induction x generalizing pos mid room out with
  | nil =>
    rw [decodeWalk] at h
    split at h <;> cases h
    exact Nat.zero_le _
  | cons d rest ih =>
    rw [decodeWalk] at h
    split at h
    next => exact ih h
    next =>
      split at h
      next => cases h
      next room' =>
        split at h
        next => cases h
        next out' hrest =>
          cases h
          exact Nat.succ_le_succ (ih hrest)

/-- The bytes DECTEXT decodes fit OUT (R217). -/
theorem decodeText_length_le {t : CodeTree} {room : Nat} {x : Bits} {out : List Byte}
    (h : decodeText t room x = .ok out) : out.length ≤ room := by
  cases t with
  | leaf b => exact decodeUnderLeaf_length_le h
  | node l r => exact decodeWalk_length_le h

/-- Counting bytes keeps the canonical form of FREQ (R120). -/
theorem Freq.wf_foldl_bumpCount (bytes : List Byte) {f : List (Nat × Word)} (h : Freq.wf f) :
    Freq.wf (bytes.foldl bumpCount f) := by
  induction bytes generalizing f with
  | nil => exact h
  | cons b rest ih => exact ih (Freq.wf_set h b _)

end Sys2Proof.Machine
end

section
/-! The invariant of the idle block (R52) over stages, commands and steps: a stage run from a state that would keep it on
completion ends, and in such a state, so that every command answers and every step keeps the invariant. -/

namespace Sys2Proof.Machine

/-- The invariant inside a command: completed where it stands, the command would leave the invariant of the idle block. -/
abbrev RunInv (s : State) : Prop := (completeCommand s).Inv

/-- A stage ends, completed or with an error, and a property holds of the state it leaves. -/
def StageResult.Ends (r : StageResult) (p : State → Prop) : Prop := r.Leaves p ∧ ∀ f, r ≠ .stuck f

@[simp] theorem ends_done {t : State} {p : State → Prop} : (StageResult.done t).Ends p ↔ p t := by
  simp [StageResult.Ends]

@[simp] theorem ends_raised {e : ErrorKind} {t : State} {p : State → Prop} :
    (StageResult.raised e t).Ends p ↔ p t := by
  simp [StageResult.Ends]

/-- A chain ends where its first part does and its second part does from every state the first part leaves. -/
theorem StageResult.Ends.andThen {r : StageResult} {next : State → StageResult} {p : State → Prop} (hr : r.Ends p)
    (hn : ∀ s, p s → (next s).Ends p) : (r.andThen next).Ends p := by
  cases r with
  | done s => exact hn s hr.1
  | raised e s => exact hr
  | stuck f => exact absurd rfl (hr.2 f)

/-- The invariant after reset (R52, R60): every memory is empty and every register 0. -/
theorem inv_resetWith {c : Config.Capacities} (hc : c.WellFormed) : (State.resetWith c).Inv where
  cap := hc
  idle := rfl
  inLen := Nat.zero_le _
  outLen := Nat.zero_le _
  nodeCnt := Nat.zero_le _
  pqCnt := Nat.zero_le _
  padCnt := Nat.zero_le _
  tbitsLen := Nat.zero_le _
  xbitsLen := Nat.zero_le _
  sbitsLen := Nat.zero_le _
  sbitsAligned := rfl
  tbitsGuard := fun _ => rfl
  xbitsGuard := fun _ => rfl
  sbitsGuard := fun _ => rfl
  rootGuard := fun _ => rfl
  rootAllocated := Bool.noConfusion
  arena := arenaWf_nil
  queue := queueWf_nil []
  errFlag := rfl
  errAccReserved := BitVec.zero_and
  codes := Bool.noConfusion
  codeCells := ⟨.nil, by simp [State.resetWith]⟩
  freqCells := ⟨.nil, by simp [State.resetWith]⟩
  inCells := ⟨.nil, by simp [State.resetWith]⟩

/-- Settles O52: in the reset state every memory is empty and every register 0. -/
theorem resetHasInvariant : Obligations.ResetHasInvariant :=
  ⟨fun _ => inv_resetWith, inv_resetWith (by decide)⟩

/-- The start of a command breaks no more of the invariant than that the block is idle (R85). -/
theorem State.Inv.startCommand {s : State} (h : s.Inv) : RunInv (startCommand s) :=
  { h with idle := rfl, errFlag := rfl }

/-- Taking an error keeps the invariant (R246). -/
theorem inv_takeError {s : State} (h : RunInv s) (e : ErrorKind) : (takeError e s).Inv :=
  { h with
    idle := rfl
    errFlag := rfl
    errAccReserved := by
      have hacc : s.errAcc &&& 0xFFFFFF01#32 = 0 := h.errAccReserved
      rw [takeError, BitVec.and_or_distrib_right, hacc, accBit_and_reserved, BitVec.or_self] }

/-- A pad count as PADCNT holds it (R33). -/
theorem padCnt_le {p : Nat} (hp : p ≤ 7) : (BitVec.ofNat 32 p).toNat ≤ 7 :=
  (BitVec.toNat_ofNat p 32).trans_le ((Nat.mod_le _ _).trans hp)

section
variable {s : State} (h : RunInv s)
include h

theorem clrStage_ends : (clrStage s).Ends RunInv :=
  ends_done.mpr { inv_resetWith h.cap with
    inLen := h.inLen
    errFlag := h.errFlag
    freqCells := ⟨.nil, by simp⟩
    inCells := h.inCells }

theorem countStage_ends : (countStage s).Ends RunInv :=
  ends_done.mpr { h with freqCells := Freq.wf_foldl_bumpCount _ ⟨.nil, by simp⟩ }

theorem runInv_dropTree : RunInv (dropTree s) :=
  { h with
    nodeCnt := Nat.zero_le _
    pqCnt := Nat.zero_le _
    rootGuard := fun _ => rfl
    rootAllocated := Bool.noConfusion
    arena := arenaWf_nil
    queue := queueWf_nil [] }

theorem nodeMax_ge : 511 ≤ s.cap.nodeMax := by
  obtain ⟨-, -, ⟨-, hmin, -⟩, -⟩ := h.cap
  exact hmin

theorem seedStage_ends : (seedStage s).Ends RunInv := by
  rcases seedStage_cases s with ⟨-, hs⟩ | ⟨-, hs⟩ <;> rw [hs]
  · exact ends_raised.mpr (runInv_dropTree h)
  · have hsize := presentSymbols_length_le s.freq
    have hmax := nodeMax_ge h
    refine ends_done.mpr { h with
      nodeCnt := ?_
      pqCnt := ?_
      rootGuard := fun _ => rfl
      rootAllocated := fun hv => ?_
      arena := arenaWf_seedLeaves s.freq
      queue := queueWf_seedQueue s.freq }
    · simp only [completeCommand_fields, dropTree_fields, seedLeaves_length]
      omega
    · simpa using hsize
    · have hone : (seedLeaves s.freq).length = 1 := of_decide_eq_true hv
      exact hone.symm ▸ Nat.one_pos

/-- One merge keeps the invariant (R135): the queue bounds the arena, and the last merge makes ROOT the new record. -/
theorem runInv_mergeTop {a b : Nat} {rest : List Nat} (hpq : s.pq = a :: b :: rest) :
    RunInv (mergeTop a b rest s) := by
  have hq : queueWf s.nodes (a :: b :: rest) := hpq ▸ h.queue
  have hpqCnt : (a :: b :: rest).length ≤ 256 := hpq ▸ h.pqCnt
  have hmax := nodeMax_ge h
  obtain ⟨-, hcount, -⟩ := hq.2.2 (by simp)
  rw [List.length_cons, List.length_cons] at hcount hpqCnt
  rw [mergeTop_eq]
  refine { h with
    nodeCnt := ?_
    pqCnt := ?_
    rootGuard := fun hv => ?_
    rootAllocated := fun hv => ?_
    arena := arenaWf_mergedArena hq h.arena
    queue := queueWf_merged hq }
  · simp only [completeCommand_fields, List.length_append, List.length_singleton]
    omega
  · simp only [completeCommand_fields, enqueue_length]
    omega
  all_goals
    simp only [completeCommand_fields, List.length_append, List.length_singleton] at hv ⊢
    split at hv
  next => cases hv
  next hne =>
    rw [if_neg hne]
    exact h.rootGuard hv
  next hnil =>
    rw [if_pos hnil, BitVec.toNat_ofNat]
    exact Nat.lt_succ_of_le (Nat.mod_le _ _)
  next hne =>
    rw [if_neg hne]
    exact Nat.lt_succ_of_lt (h.rootAllocated hv)

theorem mergeStage_ends : (mergeStage s).Ends RunInv := by
  rcases mergeStage_cases s with ⟨-, hs⟩ | ⟨a, b, rest, hpq, -, hs⟩ | ⟨-, ⟨x, hx, hle⟩, -⟩
  · exact hs ▸ ends_raised.mpr h
  · exact hs ▸ ends_done.mpr (runInv_mergeTop h hpq)
  · exact absurd (h.queue.2.1 x hx).1 (Nat.not_lt.mpr hle)

theorem mergeLoop_ends (fuel : Nat) : (mergeLoop fuel s).Ends RunInv := by
  induction fuel generalizing s with
  | zero => exact ends_done.mpr h
  | succ fuel ih =>
    rw [mergeLoop]
    split
    · exact (mergeStage_ends h).andThen fun _ ht => ih ht
    · exact ends_done.mpr h

theorem buildStage_ends : (buildStage s).Ends RunInv :=
  (seedStage_ends h).andThen fun _ ht => mergeLoop_ends ht _

/-- Inside a command V_TREE names a tree (R44, R52 (e)), so that no stage finds the arena without one. -/
theorem tree?_ne_none (hv : s.status.vTree = true) : s.tree? ≠ none := by
  obtain ⟨t, ht⟩ : ∃ t, (completeCommand s).tree? = some t := h.exists_tree? hv
  have hsame : (completeCommand s).tree? = s.tree? := rfl
  simp [← hsame, ht]

theorem codesStage_ends : (codesStage s).Ends RunInv := by
  rcases codesStage_cases s with ⟨-, hs⟩ | ⟨hv, ht, -⟩ | ⟨_, _, -, -, -, hs⟩ | ⟨_, table, -, -, hw, hs⟩
  · exact hs ▸ ends_raised.mpr h
  · exact absurd ht (tree?_ne_none h hv)
  · exact hs ▸ ends_raised.mpr { h with codes := Bool.noConfusion, codeCells := ⟨.nil, by simp⟩ }
  · obtain ⟨hdepth, hentry⟩ := walkCodes_eq_ok hw
    have hcells : CodeCellsWf table := CodeCellsWf.walkCodes ⟨.nil, by simp⟩ hw
    refine hs ▸ ends_done.mpr { h with
      codes := fun _ => ⟨hcells.prefixFree hentry, fun e he => ?_⟩
      codeCells := hcells }
    exact (codesOf_length_le (hentry ▸ hcells.entry_of_mem he)).trans hdepth

theorem sertreeStage_ends : (sertreeStage s).Ends RunInv := by
  rcases sertreeStage_cases s with ⟨-, hs⟩ | ⟨hv, ht, -⟩ | ⟨t, -, ht, hs⟩
  · exact hs ▸ ends_raised.mpr h
  · exact absurd ht (tree?_ne_none h hv)
  · refine hs ▸ ends_done.mpr { h with tbitsLen := ?_, tbitsGuard := Bool.noConfusion }
    have hser := ser_length_eq_nodes t
    have harena := nodes_le_length_of_treeAt h.arena ht
    have hmax : s.nodes.length ≤ s.cap.nodeMax := h.nodeCnt
    simp only [completeCommand_fields, Config.Capacities.tbitsMax]
    simp only [completeCommand_fields] at harena
    omega

theorem destreeStage_ends : (destreeStage s).Ends RunInv := by
  rcases destreeStage_cases s with ⟨-, hs⟩ | ⟨_, -, -, hs⟩ | ⟨t, rest, n, -, hread, hs⟩ <;> rw [hs]
  · exact ends_raised.mpr h
  · exact ends_raised.mpr (runInv_dropTree h)
  · obtain ⟨-, hn, hroom⟩ := readTree_eq_ok hread
    refine ends_done.mpr { runInv_dropTree h with
      nodeCnt := ?_
      rootGuard := fun _ => rfl
      rootAllocated := fun _ => ?_
      arena := arenaWf_records t
      queue := queueWf_nil _ }
    · simpa [hn] using hroom
    · simpa using nodes_pos t

theorem packStage_ends : (packStage s).Ends RunInv := by
  rcases packStage_cases s with ⟨-, hs⟩ | ⟨-, -, hs⟩ | ⟨-, hroom, hs⟩ <;> rw [hs]
  · exact ends_raised.mpr h
  · exact ends_raised.mpr { h with outLen := Nat.zero_le _ }
  · exact ends_done.mpr { h with outLen := (packBits_length s.sbits).trans_le hroom }

theorem unpackStage_ends : (unpackStage s).Ends RunInv := by
  have hlength : (unpackBytes (inputBytes s)).length = 8 * s.inLen.toNat := by
    rw [unpackBytes_length, inputBytes_length]
  have hinLen : s.inLen.toNat ≤ s.cap.inMax := h.inLen
  obtain ⟨-, -, -, -, -, hfits, -⟩ := h.cap
  exact ends_done.mpr { h with
    sbitsLen := hlength.trans_le ((Nat.mul_le_mul_left 8 hinLen).trans hfits)
    sbitsAligned := hlength ▸ Nat.mul_mod_right 8 _
    sbitsGuard := Bool.noConfusion }

theorem enctextStage_ends : (enctextStage s).Ends RunInv := by
  rcases enctextStage_cases s with ⟨-, hs⟩ | ⟨_, -, -, hs⟩ | ⟨x, -, hx, hs⟩ <;> rw [hs]
  · exact ends_raised.mpr h
  · exact ends_raised.mpr { h with xbitsLen := Nat.zero_le _, xbitsGuard := fun _ => rfl }
  · refine ends_done.mpr { h with xbitsLen := ?_, xbitsGuard := Bool.noConfusion }
    simpa using encodeText_length_le (Nat.zero_le _) hx

theorem assembleStage_ends : (assembleStage s).Ends RunInv := by
  rcases assembleStage_cases s with ⟨-, hs⟩ | ⟨-, -, -, hs⟩ | ⟨-, -, hroom, hs⟩ <;> rw [hs]
  · exact ends_raised.mpr h
  · exact ends_raised.mpr { h with
      sbitsLen := Nat.zero_le _
      sbitsAligned := rfl
      sbitsGuard := fun _ => rfl }
  · exact ends_done.mpr { h with
      padCnt := padCnt_le (padCount_le _ _)
      sbitsLen := hroom
      sbitsAligned := (assembleStream_length _ _).symm ▸ padCount_aligns _ _
      sbitsGuard := Bool.noConfusion }

theorem rdpadStage_ends : (rdpadStage s).Ends RunInv := by
  rcases rdpadStage_cases s with ⟨-, hs⟩ | ⟨-, hs⟩ | ⟨_, -, -, hp, -, hs⟩ <;> rw [hs]
  · exact ends_raised.mpr h
  · exact ends_raised.mpr h
  · exact ends_done.mpr { h with padCnt := padCnt_le hp }

theorem dectextStage_ends : (dectextStage s).Ends RunInv := by
  have hempty : RunInv { s with out := [] } := { h with outLen := Nat.zero_le _ }
  rcases dectextStage_cases s with ⟨-, hs⟩ | ⟨-, -, -, hs⟩ | ⟨hv, ht, -⟩ | ⟨_, _, -, -, -, -, -, hs⟩ |
    ⟨_, out, -, -, -, -, hout, hs⟩
  · exact hs ▸ ends_raised.mpr h
  · exact hs ▸ ends_raised.mpr hempty
  · exact absurd ht (tree?_ne_none h hv)
  · exact hs ▸ ends_raised.mpr hempty
  · exact hs ▸ ends_done.mpr { h with outLen := decodeText_length_le hout }

theorem requireInput_ends : (requireInput s).Ends RunInv := by
  unfold requireInput
  split <;> simpa using h

/-- What COMPRESS clears at its start keeps the invariant (R200). -/
theorem runInv_compressStart : RunInv (compressStart s) :=
  { inv_resetWith h.cap with
    inLen := h.inLen
    padCnt := h.padCnt
    errFlag := h.errFlag
    errAccReserved := h.errAccReserved
    freqCells := h.freqCells
    inCells := h.inCells }

/-- What DECOMPRESS clears at its start keeps the invariant (R220). -/
theorem runInv_decompressStart : RunInv (decompressStart s) :=
  { runInv_dropTree h with
    outLen := Nat.zero_le _
    sbitsLen := Nat.zero_le _
    sbitsAligned := rfl
    sbitsGuard := fun _ => rfl }

theorem compressStage_ends : (compressStage s).Ends RunInv :=
  (((((((countStage_ends (runInv_compressStart h)).andThen fun _ => requireInput_ends).andThen
    fun _ => buildStage_ends).andThen fun _ => codesStage_ends).andThen fun _ => enctextStage_ends).andThen
    fun _ => sertreeStage_ends).andThen fun _ => assembleStage_ends).andThen fun _ => packStage_ends

theorem decompressStage_ends : (decompressStage s).Ends RunInv :=
  (((unpackStage_ends (runInv_decompressStart h)).andThen fun _ => destreeStage_ends).andThen
    fun _ => rdpadStage_ends).andThen fun _ => dectextStage_ends

theorem commandStage_ends (i : Instr) : (commandStage i s).Ends RunInv :=
  match i with
  | .clr => clrStage_ends h
  | .count => countStage_ends h
  | .seed => seedStage_ends h
  | .merge => mergeStage_ends h
  | .build => buildStage_ends h
  | .codes => codesStage_ends h
  | .sertree => sertreeStage_ends h
  | .destree => destreeStage_ends h
  | .pack => packStage_ends h
  | .unpack => unpackStage_ends h
  | .enctext => enctextStage_ends h
  | .assemble => assembleStage_ends h
  | .compress => compressStage_ends h
  | .rdpad => rdpadStage_ends h
  | .dectext => dectextStage_ends h
  | .decompress => decompressStage_ends h

end

/-- From a state with the invariant every command answers, and in a state with the invariant (R52, R280). -/
theorem exec_inv (i : Instr) {s : State} (h : s.Inv) : ∃ t, exec i s = .next t ∧ t.Inv := by
  obtain ⟨hleaves, hstuck⟩ := commandStage_ends h.startCommand i
  rw [exec_eq_runCommand]
  cases hs : commandStage i (startCommand s) with
  | done u =>
    rw [hs] at hleaves
    exact ⟨_, runCommand_of_done hs, hleaves⟩
  | raised e u =>
    rw [hs] at hleaves
    exact ⟨_, runCommand_of_raised hs, inv_takeError hleaves e⟩
  | stuck f => exact absurd hs (hstuck f)

/-- A plain write keeps the invariant: IN_LEN takes no value above IN_MAX, and IN and FREQ stay canonical. -/
theorem inv_plainWrite {s : State} (h : s.Inv) (a : PortAddr) (v : Word) : (plainWrite s a v).Inv := by
  unfold plainWrite
  split
  · split
    · split
      next hle => exact { h with inLen := hle }
      next => exact h
    · exact { h with }
    · exact h
  · split
    next hlt =>
      refine { h with inCells := ⟨Cells.wf_write h.inCells.1 _ _, fun c hc => ?_⟩ }
      rcases Cells.mem_write hc with rfl | hc
      · exact hlt
      · exact h.inCells.2 c hc
    next => exact h
  · split
    next => exact { h with freqCells := Freq.wf_set h.freqCells _ _ }
    next => exact h
  · exact h

/-- Settles O10: a stage is stuck only against R44 or R52 (f). -/
theorem everyCommandAnswers : Obligations.EveryCommandAnswers :=
  fun i _ h => (exec_inv i h).imp fun _ ht => ht.1

/-- Settles O53: a step that takes a command keeps the invariant because every stage does, any other step by what it
writes. -/
theorem everyStepKeepsInvariant : Obligations.EveryStepKeepsInvariant := by
  intro s t h hstep
  have htaken (rest : List HostOp) : (taken s rest).Inv := { h with }
  have hcmd (rest : List HostOp) (w : Word) : ({ taken s rest with cmd := w } : State).Inv := { h with }
  rcases step_cases s with ⟨-, hs⟩ | ⟨a, rest, -, hs⟩ | ⟨rest, -, hs⟩ | ⟨a, v, rest, -, -, hs⟩ |
    ⟨a, v, rest, -, -, -, hs⟩ | ⟨w, rest, i, -, -, -, hs⟩ | ⟨w, rest, e, -, -, -, hs⟩ <;> rw [hs] at hstep
  case inr.inr.inr.inr.inr.inl =>
    obtain ⟨u, hu, hinv⟩ := exec_inv i (hcmd rest w)
    obtain rfl := Host.Outcome.next.inj (hu.symm.trans hstep)
    exact hinv
  all_goals obtain rfl := Host.Outcome.next.inj hstep
  · exact h
  · exact { htaken rest with }
  · exact { inv_resetWith h.cap with }
  · exact htaken rest
  · exact inv_plainWrite (htaken rest) a v
  · exact inv_takeError (hcmd rest w).startCommand .illegalCommand

end Sys2Proof.Machine
end

section
/-! Which words decode (R102), what every command reports (R85, R246), how STATUS shows its fields (R23), and that no
command touches the host's side (R40). -/

namespace Sys2Proof.Machine

/-- The opcodes of the map are the implemented ones (R101). -/
theorem opcodeMap_map_fst : opcodeMap.map Prod.fst = implementedOps := by decide

/-- Every legal word decodes (R102). -/
theorem exists_decode_of_legal {w : Word} (hrsv : rsvField w = 0) (hop : opField w ∈ implementedOps) :
    ∃ i, decode w = .ok i := by
  rw [← opcodeMap_map_fst, List.mem_map] at hop
  obtain ⟨row, hrow, hfst⟩ := hop
  have hfind : (opcodeMap.find? fun row => row.1 == opField w).isSome :=
    List.find?_isSome.mpr ⟨row, hrow, by simp [hfst]⟩
  obtain ⟨row', hrow'⟩ := Option.isSome_iff_exists.mp hfind
  exact ⟨row'.2, by rw [decode, if_pos hrsv, hrow']⟩

/-- Settles O2: a row of the map holds its command's word, and the decoder looks its opcode up there. -/
theorem decodeAndEncodeAgree : Obligations.DecodeAndEncodeAgree :=
  ⟨decode_encode, fun _ _ => eq_encode_of_decode,
    fun _ => ⟨fun ⟨_, h⟩ => legal_of_decode h, fun ⟨hrsv, hop⟩ => exists_decode_of_legal hrsv hop⟩⟩

/-- ERR reads 0 exactly when there is no error (R24). -/
theorem errWord_eq_zero_iff (e : Option ErrorKind) : errWord e = 0 ↔ e = none := by
  cases e with
  | none => simp [errWord]
  | some e => cases e <;> simp [errWord, ErrorKind.code]

/-- What every command that ends reports (R85, R246). -/
theorem exec_report {i : Instr} {s t : State} (h : exec i s = .next t) :
    t.status.busy = false ∧ t.status.done = true ∧ t.status.errf = t.err.isSome := by
  have hside := commandStage_sameSide i (startCommand s)
  rcases exec_eq_next_cases h with ⟨u, hu, rfl⟩ | ⟨e, u, -, hu, rfl⟩
  · rw [hu] at hside
    have herrf : u.status.errf = false := hside.errf
    have herr : u.err = none := hside.err
    simp [herrf, herr]
  · simp

/-- A field of STATUS shows at its own bit alone (R23). -/
theorem flagBit_getLsbD {p : Nat} (hp : p < 32) (b : Bool) (n : Nat) :
    (flagBit p b).getLsbD n = (b && decide (n = p)) := by
  cases b with
  | false => simp [flagBit]
  | true =>
    rw [flagBit, if_pos rfl, BitVec.getLsbD_shiftLeft, BitVec.getLsbD_one, Bool.true_and, Bool.eq_iff_iff]
    simp only [Bool.and_eq_true, decide_eq_true_eq, Bool.not_eq_true', decide_eq_false_iff_not]
    omega

/-- Bit `n` of STATUS (R23). -/
theorem statusWord_getLsbD (f : Status) (n : Nat) :
    (statusWord f).getLsbD n =
      (f.busy && decide (n = 0) || f.done && decide (n = 1) || f.errf && decide (n = 2) ||
        f.vTree && decide (n = 3) || f.vCodes && decide (n = 4) || f.vTbits && decide (n = 5) ||
        f.vXbits && decide (n = 6) || f.vSbits && decide (n = 7)) := by
  simp only [statusWord, BitVec.getLsbD_or]
  repeat rw [flagBit_getLsbD (by decide)]

/-- Settles O6: the stages leave the report alone, and each field of STATUS stands at a bit of its own. -/
theorem everyCommandReportsCompletion : Obligations.EveryCommandReportsCompletion := by
  refine ⟨fun i s t h => ?_, fun s => ?_⟩
  · obtain ⟨hbusy, hdone, herrf⟩ := exec_report h
    have hread : regRead t 2 = errWord t.err := rfl
    refine ⟨hbusy, hdone, ?_, herrf⟩
    rw [herrf, hread, Ne, errWord_eq_zero_iff, Option.isSome_iff_ne_none]
  · have hread : regRead s 1 = statusWord s.status := rfl
    simp only [hread, statusWord_getLsbD]
    refine ⟨by simp, by simp, by simp, by simp, by simp, by simp, by simp, by simp, fun n hn => ?_⟩
    have hne (k : Nat) (hk : k < 8) : n ≠ k := Nat.ne_of_gt (hk.trans_le hn)
    simp [hne]

/-- No command touches the host's side: IN, IN_LEN, CMD, the capacities and the model's own fields (R26, R40). -/
theorem exec_hostSide {i : Instr} {s t : State} (h : exec i s = .next t) :
    t.inMem = s.inMem ∧ t.inLen = s.inLen ∧ t.cmd = s.cmd ∧ t.cap = s.cap ∧ t.host = s.host ∧ t.rdata = s.rdata ∧
      t.draws = s.draws := by
  obtain ⟨u, hu, rfl | ⟨e, rfl⟩⟩ := exec_leaves h (commandStage_sameSide i _) <;>
    exact ⟨hu.inMem, hu.inLen, hu.cmd, hu.cap, hu.host, hu.rdata, hu.draws⟩

/-- Settles O8: no stage touches the host's side. -/
theorem noCommandWritesInput : Obligations.NoCommandWritesInput := by
  intro i s t h
  obtain ⟨hmem, hlen, hcmd, hcap, hhost, hrdata, hdraws⟩ := exec_hostSide h
  exact ⟨fun _ => by rw [hmem], inByte_congr hmem hdraws, hlen, hcmd, hcap, hhost, hrdata, hdraws⟩

end Sys2Proof.Machine
end

section
/-! What each command leaves alone, by the write sets of R92. -/

namespace Sys2Proof.Machine

/-- What command `i` may not change, by the write sets of R92, on the way from `s` to `t`. -/
def KeepsOutsideReach (i : Instr) (s t : State) : Prop :=
  (i ∉ [.pack, .dectext, .compress, .decompress, .clr] → t.out = s.out) ∧
  (i ∉ [.count, .compress, .clr] → t.freq = s.freq) ∧
  (i ∉ [.seed, .merge, .build, .destree, .compress, .decompress, .clr] →
    t.nodes = s.nodes ∧ t.pq = s.pq ∧ t.root = s.root ∧ t.status.vTree = s.status.vTree) ∧
  (i ∉ [.codes, .compress, .clr] → t.status.vCodes = s.status.vCodes ∧ t.code = s.code) ∧
  (i ∉ [.sertree, .compress, .clr] → t.tbits = s.tbits ∧ t.status.vTbits = s.status.vTbits) ∧
  (i ∉ [.enctext, .compress, .clr] → t.xbits = s.xbits ∧ t.status.vXbits = s.status.vXbits) ∧
  (i ∉ [.assemble, .unpack, .compress, .decompress, .clr] →
    t.sbits = s.sbits ∧ t.status.vSbits = s.status.vSbits) ∧
  (i ∉ [.assemble, .unpack, .destree, .rdpad, .compress, .decompress, .clr] → t.cur = s.cur) ∧
  (i ∉ [.assemble, .rdpad, .compress, .decompress, .clr] → t.padCnt = s.padCnt)

theorem KeepsOutsideReach.rfl {i : Instr} {s : State} : KeepsOutsideReach i s s := by simp [KeepsOutsideReach]

/-- The builder's commands write the arena, the queue, ROOT and V_TREE (R131, R135, R140). -/
theorem SameButTree.keepsOutsideReach {i : Instr} {s t : State} (hi : i ∈ [.seed, .merge, .build])
    (h : SameButTree s t) : KeepsOutsideReach i s t := by
  obtain ⟨nodes, pq, root, v, rfl⟩ := h
  have htree : i ∈ [.seed, .merge, .build, .destree, .compress, .decompress, .clr] := by
    simp only [List.mem_cons, List.not_mem_nil] at hi ⊢
    tauto
  simp [KeepsOutsideReach, htree]

theorem codesStage_keepsOutsideReach (s : State) : (codesStage s).Leaves (KeepsOutsideReach .codes s) := by
  rcases codesStage_cases s with ⟨-, hs⟩ | ⟨-, -, hs⟩ | ⟨_, _, -, -, -, hs⟩ | ⟨_, _, -, -, -, hs⟩ <;>
    simp [hs, KeepsOutsideReach]

theorem sertreeStage_keepsOutsideReach (s : State) : (sertreeStage s).Leaves (KeepsOutsideReach .sertree s) := by
  rcases sertreeStage_cases s with ⟨-, hs⟩ | ⟨-, -, hs⟩ | ⟨_, -, -, hs⟩ <;> simp [hs, KeepsOutsideReach]

theorem destreeStage_keepsOutsideReach (s : State) : (destreeStage s).Leaves (KeepsOutsideReach .destree s) := by
  rcases destreeStage_cases s with ⟨-, hs⟩ | ⟨_, -, -, hs⟩ | ⟨_, _, _, -, -, hs⟩ <;> simp [hs, KeepsOutsideReach]

theorem packStage_keepsOutsideReach (s : State) : (packStage s).Leaves (KeepsOutsideReach .pack s) := by
  rcases packStage_cases s with ⟨-, hs⟩ | ⟨-, -, hs⟩ | ⟨-, -, hs⟩ <;> simp [hs, KeepsOutsideReach]

theorem enctextStage_keepsOutsideReach (s : State) : (enctextStage s).Leaves (KeepsOutsideReach .enctext s) := by
  rcases enctextStage_cases s with ⟨-, hs⟩ | ⟨_, -, -, hs⟩ | ⟨_, -, -, hs⟩ <;> simp [hs, KeepsOutsideReach]

theorem assembleStage_keepsOutsideReach (s : State) : (assembleStage s).Leaves (KeepsOutsideReach .assemble s) := by
  rcases assembleStage_cases s with ⟨-, hs⟩ | ⟨-, -, -, hs⟩ | ⟨-, -, -, hs⟩ <;> simp [hs, KeepsOutsideReach]

theorem rdpadStage_keepsOutsideReach (s : State) : (rdpadStage s).Leaves (KeepsOutsideReach .rdpad s) := by
  rcases rdpadStage_cases s with ⟨-, hs⟩ | ⟨-, hs⟩ | ⟨_, -, -, -, -, hs⟩ <;> simp [hs, KeepsOutsideReach]

theorem dectextStage_keepsOutsideReach (s : State) : (dectextStage s).Leaves (KeepsOutsideReach .dectext s) := by
  rcases dectextStage_cases s with ⟨-, hs⟩ | ⟨-, -, -, hs⟩ | ⟨-, -, hs⟩ | ⟨_, _, -, -, -, -, -, hs⟩ |
    ⟨_, _, -, -, -, -, -, hs⟩ <;> simp [hs, KeepsOutsideReach]

/-- A command that DECOMPRESS is made of leaves alone what DECOMPRESS does (R220). -/
theorem KeepsOutsideReach.decompress {i : Instr} {s t : State} (hi : i ∈ [.unpack, .destree, .rdpad, .dectext])
    (h : KeepsOutsideReach i s t) : KeepsOutsideReach .decompress s t := by
  obtain ⟨-, hfreq, -, hcode, htbits, hxbits, -⟩ := h
  simp only [List.mem_cons, List.not_mem_nil, or_false] at hi
  rcases hi with rfl | rfl | rfl | rfl <;> simp_all [KeepsOutsideReach]

/-- What lies outside a command's reach on the way to `t` and from there to `u` is kept on the whole way. -/
theorem KeepsOutsideReach.trans {i : Instr} {s t u : State} (h₁ : KeepsOutsideReach i s t)
    (h₂ : KeepsOutsideReach i t u) : KeepsOutsideReach i s u := by
  obtain ⟨hout₁, hfreq₁, htree₁, hcode₁, htbits₁, hxbits₁, hsbits₁, hcur₁, hpad₁⟩ := h₁
  obtain ⟨hout₂, hfreq₂, htree₂, hcode₂, htbits₂, hxbits₂, hsbits₂, hcur₂, hpad₂⟩ := h₂
  refine ⟨fun hi => (hout₂ hi).trans (hout₁ hi), fun hi => (hfreq₂ hi).trans (hfreq₁ hi), fun hi => ?_, fun hi => ?_,
    fun hi => ?_, fun hi => ?_, fun hi => ?_, fun hi => (hcur₂ hi).trans (hcur₁ hi),
    fun hi => (hpad₂ hi).trans (hpad₁ hi)⟩
  · simp only [htree₂ hi, htree₁ hi, and_self]
  · simp only [hcode₂ hi, hcode₁ hi, and_self]
  · simp only [htbits₂ hi, htbits₁ hi, and_self]
  · simp only [hxbits₂ hi, hxbits₁ hi, and_self]
  · simp only [hsbits₂ hi, hsbits₁ hi, and_self]

theorem decompressStage_keepsOutsideReach (s : State) :
    (decompressStage s).Leaves (KeepsOutsideReach .decompress s) := by
  have hunpack : (unpackStage (decompressStart s)).Leaves (KeepsOutsideReach .decompress s) := by
    simp [unpackStage_eq, KeepsOutsideReach]
  refine ((hunpack.andThen fun t ht => ?_).andThen fun t ht => ?_).andThen fun t ht => ?_
  · exact (destreeStage_keepsOutsideReach t).mono fun _ hu => ht.trans (hu.decompress (by decide))
  · exact (rdpadStage_keepsOutsideReach t).mono fun _ hu => ht.trans (hu.decompress (by decide))
  · exact (dectextStage_keepsOutsideReach t).mono fun _ hu => ht.trans (hu.decompress (by decide))

/-- COMPRESS and CLR may write every memory but IN (R92). -/
theorem keepsOutsideReach_of_all {i : Instr} (hi : i ∈ [.compress, .clr]) (s t : State) : KeepsOutsideReach i s t := by
  simp only [List.mem_cons, List.not_mem_nil, or_false] at hi
  rcases hi with rfl | rfl <;> simp [KeepsOutsideReach]

/-- A property that holds of all states holds of what a stage leaves. -/
theorem leaves_of_forall {p : State → Prop} (r : StageResult) (h : ∀ t, p t) : r.Leaves p := by
  cases r with
  | done t => exact h t
  | raised e t => exact h t
  | stuck f => trivial

theorem commandStage_keepsOutsideReach (i : Instr) (s : State) : (commandStage i s).Leaves (KeepsOutsideReach i s) :=
  match i with
  | .clr => leaves_of_forall _ (keepsOutsideReach_of_all (by decide) s)
  | .count => by simp [commandStage, countStage_eq, KeepsOutsideReach]
  | .seed => (seedStage_sameButTree s).mono fun _ h => h.keepsOutsideReach (by decide)
  | .merge => (mergeStage_sameButTree s).mono fun _ h => h.keepsOutsideReach (by decide)
  | .build => (buildStage_sameButTree s).mono fun _ h => h.keepsOutsideReach (by decide)
  | .codes => codesStage_keepsOutsideReach s
  | .sertree => sertreeStage_keepsOutsideReach s
  | .destree => destreeStage_keepsOutsideReach s
  | .pack => packStage_keepsOutsideReach s
  | .unpack => by simp [commandStage, unpackStage_eq, KeepsOutsideReach]
  | .enctext => enctextStage_keepsOutsideReach s
  | .assemble => assembleStage_keepsOutsideReach s
  | .compress => leaves_of_forall _ (keepsOutsideReach_of_all (by decide) s)
  | .rdpad => rdpadStage_keepsOutsideReach s
  | .dectext => dectextStage_keepsOutsideReach s
  | .decompress => decompressStage_keepsOutsideReach s

/-- No command writes outside its reach (R92); the report is no memory. -/
theorem exec_keepsOutsideReach {i : Instr} {s t : State} (h : exec i s = .next t) : KeepsOutsideReach i s t := by
  obtain ⟨u, hu, rfl | ⟨e, rfl⟩⟩ := exec_leaves h (commandStage_keepsOutsideReach i (startCommand s)) <;> exact hu

/-- Settles O9: no stage writes outside its command's reach. -/
theorem commandsKeepMemoriesOutsideTheirReach : Obligations.CommandsKeepMemoriesOutsideTheirReach := by
  intro i s t h
  obtain ⟨hout, hfreq, htree, hcode, htbits, hxbits, hsbits, hcur, hpad⟩ := exec_keepsOutsideReach h
  exact ⟨hout, fun hi _ => by rw [hfreq hi], htree, fun hi => ⟨(hcode hi).1, fun _ => by rw [(hcode hi).2]⟩, htbits,
    hxbits, hsbits, hcur, hpad⟩

end Sys2Proof.Machine
end

section
/-! The steps that run no command: reset (R60, R270), reads (R71 to R74) and writes (R74, R86), and CLR (R230). -/

namespace Sys2Proof.Machine

/-- CLR always completes, with the reset state but for CMD, DONE, IN_LEN and IN (R230). -/
theorem exec_clr (s : State) :
    exec .clr s = .next { State.resetWith s.cap with
      cmd := s.cmd
      status := { Status.zero with done := true }
      inLen := s.inLen
      inMem := s.inMem
      host := s.host
      rdata := s.rdata
      draws := s.draws } := rfl

/-- CLR right after reset changes CMD and DONE alone (R231). -/
theorem step_clr_resetWith (c : Config.Capacities) :
    step (withCommandWord (State.resetWith c) 0x00000001) = .next { State.resetWith c with
      cmd := 0x00000001
      status := { Status.zero with done := true }
      draws := (State.resetWith c).draws + 1 } :=
  (step_command (rest := []) rfl rfl).trans ((acceptCommand_of_ok (decode_encode .clr)).trans (exec_clr _))

/-- STATUS with DONE alone reads 2 (R23). -/
theorem statusWord_done : statusWord { Status.zero with done := true } = 0x00000002#32 := by decide

/-- Settles O39: CLR's stage writes every field that is not kept, each with its reset value. -/
theorem clrReturnsToResetKeepingInput : Obligations.ClrReturnsToResetKeepingInput :=
  ⟨rfl, fun s => ⟨_, exec_clr s, rfl, statusWord_done, rfl, Freq.count_nil⟩, fun c => ⟨_, step_clr_resetWith c, rfl⟩⟩

/-- COMPRESS of an empty input stops after COUNT (R201). -/
theorem exec_compress_empty {s : State} (h : s.inLen = 0) :
    exec .compress s = .next (takeError .emptyInput (counted (startCommand s))) := by
  have hchain := (count_requireInput (startCommand s)).trans (if_pos h)
  refine runCommand_of_raised ?_
  rw [compressStage, hchain]
  rfl

/-- Settles O40: what COMPRESS has cleared at its start, and the counts of no bytes. -/
theorem compressRefusesEmptyInput : Obligations.CompressRefusesEmptyInput := by
  intro s h
  rw [exec_compress_empty h, counted, inputBytes_startCommand, inputBytes_eq_nil h]
  rfl

/-- Settles O55: the reset input is taken off the host's list. -/
theorem resetInputGivesResetState : Obligations.ResetInputGivesResetState := fun _ _ hh => step_cons hh

/-- Settles O56: a read is answered and nothing else is written. -/
theorem hostReadsHaveNoSideEffect : Obligations.HostReadsHaveNoSideEffect := fun _ _ _ hh => ⟨_, step_cons hh, rfl⟩

/-- While the block is busy STATUS shows it (R86). -/
theorem portRead_status_busy {s : State} (hb : s.status.busy = true) :
    (portRead s (portAddr 0 1)).getLsbD 0 = true := by
  simp [portRead, hb]

/-- Settles O58: a write is dropped, and bit 0 of the word read is set. -/
theorem busyBlockIgnoresWrites : Obligations.BusyBlockIgnoresWrites :=
  ⟨fun _ _ _ _ => step_write_busy, fun _ => portRead_status_busy⟩

end Sys2Proof.Machine
end

section
/-! What the host reads while the block is idle (R71 to R73): an element that is held as it is, anything else as a free
value of the element's width. -/

namespace Sys2Proof.Machine

/-- Spaces 11 to 15 are not implemented (R71). -/
theorem readElement_of_le {s : State} {space : Nat} (h : 11 ≤ space) (index : Nat) :
    readElement s space index = freeWord s 32 := by
  obtain ⟨n, rfl⟩ := Nat.exists_eq_add_of_le' h
  rfl

/-- The index that names a symbol (R71). -/
@[simp] theorem toNat_setWidth_byte (b : Byte) : (b.setWidth 32).toNat = b.toNat := by
  rw [BitVec.toNat_setWidth]
  exact Nat.mod_eq_of_lt (b.isLt.trans (by norm_num))

/-- The index that names bit `j` of the code of symbol `b` (R71). -/
theorem toNat_codeBitIndex (b : Byte) {j : Nat} (hj : j < 256) :
    (BitVec.ofNat 32 (256 * b.toNat + j)).toNat = 256 * b.toNat + j := by
  have hb := b.isLt
  rw [BitVec.toNat_ofNat]
  omega

section
variable {s : State} (hb : s.status.busy = false)
include hb

theorem portRead_reg (index : Word) : portRead s (portAddr 0 index) = regRead s index.toNat :=
  portRead_idle hb 0 index

theorem portRead_in (index : Word) :
    portRead s (portAddr 1 index) =
      if index.toNat < s.cap.inMax then (s.inByte index.toNat).setWidth 32 else freeWord s 8 :=
  portRead_idle hb 1 index

theorem portRead_out_of_le {index : Word} (h : s.out.length ≤ index.toNat) :
    portRead s (portAddr 2 index) = freeWord s 8 := by
  rw [portRead_idle hb]
  simp [readElement, h, freeElement_eq]

theorem portRead_out_of_some {index : Word} {b : Byte} (h : s.out[index.toNat]? = some b) :
    portRead s (portAddr 2 index) = b.setWidth 32 := by
  rw [portRead_idle hb]
  simp [readElement, h]

theorem portRead_freq_of_le {index : Word} (h : 256 ≤ index.toNat) :
    portRead s (portAddr 3 index) = freeWord s 32 := by
  rw [portRead_idle hb]
  simp [readElement, Nat.not_lt.mpr h, freeElement_eq]

theorem portRead_freq (b : Byte) : portRead s (portAddr 3 (b.setWidth 32)) = Freq.count s.freq b := by
  rw [portRead_idle hb, toNat_setWidth_byte]
  simp [readElement, b.isLt]

theorem portRead_codeBit_of_unspecified {index : Word} (h : s.status.vCodes = false ∨ 65536 ≤ index.toNat) :
    portRead s (portAddr 4 index) = freeWord s 1 := by
  rw [portRead_idle hb]
  rcases h with h | h
  · simp [readElement, readCodeBit, h, freeElement_eq]
  · simp [readElement, Nat.not_lt.mpr h, freeElement_eq]

theorem portRead_codeBit (b : Byte) {j : Nat} (hj : j < 256) :
    portRead s (portAddr 4 (BitVec.ofNat 32 (256 * b.toNat + j))) = readCodeBit s b j := by
  have hsym : BitVec.ofNat 8 ((256 * b.toNat + j) / 256) = b := by
    rw [show (256 * b.toNat + j) / 256 = b.toNat by omega, BitVec.ofNat_toNat, BitVec.setWidth_eq]
  have hpos : (256 * b.toNat + j) % 256 = j := by omega
  have hlt : 256 * b.toNat + j < 65536 := by
    have := b.isLt
    omega
  rw [portRead_idle hb, toNat_codeBitIndex b hj]
  simp only [readElement, BitVec.reduceToNat, hlt, if_true, hsym, hpos]

theorem portRead_codeLen_of_unspecified {index : Word} (h : s.status.vCodes = false ∨ 256 ≤ index.toNat) :
    portRead s (portAddr 5 index) = freeWord s 9 := by
  rw [portRead_idle hb]
  rcases h with h | h
  · simp [readElement, readCodeLen, h, freeElement_eq]
  · simp [readElement, Nat.not_lt.mpr h, freeElement_eq]

theorem portRead_codeLen (b : Byte) : portRead s (portAddr 5 (b.setWidth 32)) = readCodeLen s b := by
  rw [portRead_idle hb, toNat_setWidth_byte]
  simp [readElement, b.isLt]

theorem portRead_node_of_unspecified {index : Word}
    (h : s.nodes.length ≤ index.toNat % 2 ^ 24 ∨ 6 ≤ index.toNat / 2 ^ 24) :
    portRead s (portAddr 6 index) = freeWord s (fieldWidth (index.toNat / 2 ^ 24)) := by
  have hnone : (s.nodes[index.toNat % 2 ^ 24]?.bind fun n => nodeField n (index.toNat / 2 ^ 24)) = none := by
    rcases h with h | h
    · rw [List.getElem?_eq_none h, Option.bind_none]
    · exact Option.bind_eq_none_iff.mpr fun n _ => nodeField_of_le h n
  rw [portRead_idle hb]
  simp only [readElement, BitVec.reduceToNat, hnone, nodeFieldWidth_eq, freeElement_eq]

/-- Field `f` of the record of handle `h` (R43, R71). -/
theorem portRead_node_of_some {f h : Nat} {n : Node} {v : Word} (hf : f < 6) (hh : h < 2 ^ 24)
    (hn : s.nodes[h]? = some n) (hv : nodeField n f = some v) :
    portRead s (portAddr 6 (BitVec.ofNat 32 (f * 2 ^ 24 + h))) = v := by
  have hindex : (BitVec.ofNat 32 (f * 2 ^ 24 + h)).toNat = f * 2 ^ 24 + h := by
    rw [BitVec.toNat_ofNat]
    omega
  have hfield : (f * 2 ^ 24 + h) / 2 ^ 24 = f := by omega
  have hhandle : (f * 2 ^ 24 + h) % 2 ^ 24 = h := by omega
  rw [portRead_idle hb, hindex]
  simp only [readElement, BitVec.reduceToNat, hfield, hhandle, hn, Option.bind_some, hv]

theorem portRead_tbits (index : Word) : portRead s (portAddr 7 index) = readBit s s.tbits index.toNat :=
  portRead_idle hb 7 index

theorem portRead_xbits (index : Word) : portRead s (portAddr 8 index) = readBit s s.xbits index.toNat :=
  portRead_idle hb 8 index

theorem portRead_sbits (index : Word) : portRead s (portAddr 9 index) = readBit s s.sbits index.toNat :=
  portRead_idle hb 9 index

theorem portRead_pq_of_le {index : Word} (h : s.pq.length ≤ index.toNat) :
    portRead s (portAddr 10 index) = freeWord s 24 := by
  rw [portRead_idle hb]
  simp [readElement, h, freeElement_eq]

theorem portRead_pq_of_some {index : Word} {x : Nat} (h : s.pq[index.toNat]? = some x) :
    portRead s (portAddr 10 index) = BitVec.ofNat 32 x := by
  rw [portRead_idle hb]
  simp [readElement, h]

theorem portRead_space_of_le {space : BitVec 4} (h : 11 ≤ space.toNat) (index : Word) :
    portRead s (portAddr space index) = freeWord s 32 :=
  (portRead_idle hb space index).trans (readElement_of_le h _)

end

/-- A bit of a code that the table holds (R71). -/
theorem readCodeBit_of_some {s : State} {b : Byte} {p : Bits} {j : Nat} {d : Bool} (hv : s.status.vCodes = true)
    (hp : Code.entry s.code b = some p) (hj : p[j]? = some d) : readCodeBit s b j = bitWord d := by
  simp [readCodeBit, hv, hp, hj]

/-- A bit of a code that the table does not hold (R73). -/
theorem readCodeBit_of_none {s : State} {b : Byte} {j : Nat}
    (h : ((Code.entry s.code b).bind fun bits => bits[j]?) = none) : readCodeBit s b j = freeWord s 1 := by
  simp [readCodeBit, h, freeElement_eq]

/-- What the host has not written to IN since reset reads as the free byte of the index (R40). -/
theorem inByte_of_unwritten {s : State} {i : Nat} (h : Cells.read? s.inMem i = none) :
    s.inByte i = Config.freeInByte s.draws i := by simp [State.inByte, h]

/-- What the host has written to IN reads as written (R40). -/
theorem inByte_of_written {s : State} {i : Nat} {b : Byte} (h : Cells.read? s.inMem i = some b) : s.inByte i = b := by
  simp [State.inByte, h]

/-- Settles O60: each read that names no held element comes to the free value of its space. -/
theorem unspecifiedReadsAreFree : Obligations.UnspecifiedReadsAreFree := by
  refine ⟨fun s index hb => ⟨fun hlt hnone => ?_, fun hle => ?_, fun h => portRead_out_of_le hb h,
    fun h => portRead_freq_of_le hb h, fun h => portRead_codeBit_of_unspecified hb h,
    fun h => portRead_codeLen_of_unspecified hb h, fun h => portRead_node_of_unspecified hb h,
    fun h => (portRead_tbits hb index).trans (readBit_of_le h),
    fun h => (portRead_xbits hb index).trans (readBit_of_le h),
    fun h => (portRead_sbits hb index).trans (readBit_of_le h), fun h => portRead_pq_of_le hb h,
    fun _ h => portRead_space_of_le hb h index⟩, fun s b hb hv => ⟨fun hnone => ⟨?_, fun j hj => ?_⟩,
    fun p hp j hle hj => ?_⟩, fun s a hb => ?_⟩
  · rw [portRead_in hb, if_pos hlt, inByte_of_unwritten hnone]
  · rw [portRead_in hb, if_neg (Nat.not_lt.mpr hle)]
  · rw [portRead_codeLen hb, readCodeLen, hnone, hv]
    rfl
  · exact (portRead_codeBit hb b hj).trans (readCodeBit_of_none (by simp [hnone]))
  · exact (portRead_codeBit hb b hj).trans (readCodeBit_of_none (by simp [hp, hle]))
  · simp [portRead, hb, freeElement_eq]

/-- Every register reads 0 after reset (R60). -/
theorem regRead_resetWith (c : Config.Capacities) (n : Nat) : regRead (State.resetWith c) n = 0 := by
  unfold regRead
  split <;> simp [State.resetWith, Status.zero, statusWord, flagBit, errWord]

/-- Settles O51: after reset no memory holds an element, so that each read is one of the unspecified ones. -/
theorem resetClearsRegistersAndCounts : Obligations.ResetClearsRegistersAndCounts := by
  intro c d index s
  have hb : s.status.busy = false := rfl
  refine ⟨regRead_resetWith c, Freq.count_nil, rfl, ?_, portRead_out_of_le hb (Nat.zero_le _),
    portRead_codeBit_of_unspecified hb (.inl rfl), portRead_codeLen_of_unspecified hb (.inl rfl),
    portRead_node_of_unspecified hb (.inl (Nat.zero_le _)), (portRead_tbits hb index).trans (readBit_of_le (Nat.zero_le _)),
    (portRead_xbits hb index).trans (readBit_of_le (Nat.zero_le _)),
    (portRead_sbits hb index).trans (readBit_of_le (Nat.zero_le _)), portRead_pq_of_le hb (Nat.zero_le _),
    fun _ h => portRead_space_of_le hb h index⟩
  rw [portRead_in hb, inByte_of_unwritten rfl]
  rfl

end Sys2Proof.Machine
end

section
/-! What the host reads of a state with the invariant (R71, R72): every length and handle fits its register or field. -/

namespace Sys2Proof.Machine

/-- A number below 2^32 reads as it is. -/
theorem toNat_ofNat_of_lt {n : Nat} (h : n < 2 ^ 32) : (BitVec.ofNat 32 n).toNat = n :=
  (BitVec.toNat_ofNat n 32).trans (Nat.mod_eq_of_lt h)

/-- An element of a list that is not too long for the port is named by its position. -/
theorem getElem?_toNat_ofNat {α : Type} {l : List α} {i : Nat} {a : α} (hlen : l.length ≤ 2 ^ 32)
    (h : l[i]? = some a) : l[(BitVec.ofNat 32 i).toNat]? = some a := by
  rw [toNat_ofNat_of_lt ((List.getElem?_eq_some_iff.mp h).1.trans_le hlen), h]

/-- The children of a record of a well-formed arena are allocated (R44). -/
theorem children_lt_length {nodes : List Node} (hwf : arenaWf nodes) {h c : Nat} {n : Node} (hn : nodes[h]? = some n)
    (hc : c ∈ n.children) : c < nodes.length := by
  obtain ⟨rank, hrank⟩ := exists_ranks hwf
  exact (hrank c h ⟨n, hn, hc⟩).1

section
variable {s : State} (hs : s.Inv)
include hs

/-- The capacities of R7 bound what the block holds. -/
theorem State.Inv.lengths_lt : s.out.length < 2 ^ 32 ∧ s.nodes.length < 2 ^ 24 ∧ s.pq.length < 2 ^ 32 ∧
    s.tbits.length < 2 ^ 32 ∧ s.xbits.length < 2 ^ 32 ∧ s.sbits.length < 2 ^ 32 := by
  obtain ⟨-, ⟨-, hout⟩, ⟨-, -, hnode⟩, ⟨-, hx⟩, -, -, hsb⟩ := hs.cap
  have houtLen := hs.outLen
  have hnodeCnt := hs.nodeCnt
  have hpqCnt := hs.pqCnt
  have htbits := hs.tbitsLen
  have hxbits := hs.xbitsLen
  have hsbits := hs.sbitsLen
  rw [Config.Capacities.tbitsMax] at htbits
  refine ⟨?_, ?_, ?_, ?_, ?_, ?_⟩ <;> omega

/-- The two parts of a weight make it up (R43, R71). -/
theorem State.Inv.portRead_weight {h : Nat} {n : Node} (hn : s.nodes[h]? = some n) :
    (portRead s (portAddr 6 (BitVec.ofNat 32 (4 * 2 ^ 24 + h)))).toNat +
      2 ^ 32 * (portRead s (portAddr 6 (BitVec.ofNat 32 (5 * 2 ^ 24 + h)))).toNat = n.weight.toNat := by
  obtain ⟨-, hnodes, -⟩ := hs.lengths_lt
  have hh : h < 2 ^ 24 := (List.getElem?_eq_some_iff.mp hn).1.trans hnodes
  have hlow : nodeField n 4 = some (n.weight.setWidth 32) := by cases n <;> rfl
  have hhigh : nodeField n 5 = some ((n.weight >>> 32).setWidth 32) := by cases n <;> rfl
  rw [portRead_node_of_some hs.idle (by decide) hh hn hlow, portRead_node_of_some hs.idle (by decide) hh hn hhigh,
    BitVec.toNat_setWidth, BitVec.toNat_setWidth, BitVec.toNat_ushiftRight, Nat.shiftRight_eq_div_pow]
  have := n.weight.isLt
  omega

/-- A field below the weight of a record (R43, R71). -/
theorem State.Inv.portRead_field {f h : Nat} {n : Node} {v : Word} (hf : f < 6) (hn : s.nodes[h]? = some n)
    (hv : nodeField n f = some v) : portRead s (portAddr 6 (BitVec.ofNat 32 (f * 2 ^ 24 + h))) = v := by
  obtain ⟨-, hnodes, -⟩ := hs.lengths_lt
  exact portRead_node_of_some hs.idle hf ((List.getElem?_eq_some_iff.mp hn).1.trans hnodes) hn hv

/-- What an internal record reads as (R43). -/
theorem State.Inv.portRead_internal {h l r : Nat} {w : Weight} (hn : s.nodes[h]? = some (.internal l r w)) :
    portRead s (portAddr 6 (BitVec.ofNat 32 h)) = 0 ∧
    portRead s (portAddr 6 (BitVec.ofNat 32 (2 ^ 24 + h))) = 0 ∧
    (portRead s (portAddr 6 (BitVec.ofNat 32 (2 * 2 ^ 24 + h)))).toNat = l ∧
    (portRead s (portAddr 6 (BitVec.ofNat 32 (3 * 2 ^ 24 + h)))).toNat = r := by
  obtain ⟨-, hnodes, -⟩ := hs.lengths_lt
  have hl : l < s.nodes.length := children_lt_length hs.arena hn (by simp [Node.children])
  have hr : r < s.nodes.length := children_lt_length hs.arena hn (by simp [Node.children])
  have hkind := hs.portRead_field (f := 0) (by decide) hn rfl
  have hsym := hs.portRead_field (f := 1) (by decide) hn rfl
  have hleft := hs.portRead_field (f := 2) (by decide) hn rfl
  have hright := hs.portRead_field (f := 3) (by decide) hn rfl
  rw [Nat.zero_mul, Nat.zero_add] at hkind
  rw [Nat.one_mul] at hsym
  rw [hleft, hright]
  exact ⟨hkind, hsym, toNat_ofNat_of_lt (by omega), toNat_ofNat_of_lt (by omega)⟩

/-- What a leaf record reads as (R43). -/
theorem State.Inv.portRead_leaf {h : Nat} {b : Byte} {w : Weight} (hn : s.nodes[h]? = some (.leaf b w)) :
    portRead s (portAddr 6 (BitVec.ofNat 32 h)) = 1 ∧
    portRead s (portAddr 6 (BitVec.ofNat 32 (2 ^ 24 + h))) = b.setWidth 32 ∧
    portRead s (portAddr 6 (BitVec.ofNat 32 (2 * 2 ^ 24 + h))) = 0 ∧
    portRead s (portAddr 6 (BitVec.ofNat 32 (3 * 2 ^ 24 + h))) = 0 := by
  have hkind := hs.portRead_field (f := 0) (by decide) hn rfl
  have hsym := hs.portRead_field (f := 1) (by decide) hn rfl
  rw [Nat.zero_mul, Nat.zero_add] at hkind
  rw [Nat.one_mul] at hsym
  exact ⟨hkind, hsym, hs.portRead_field (f := 2) (by decide) hn rfl, hs.portRead_field (f := 3) (by decide) hn rfl⟩

/-- What a valid entry of the code table reads as: its length, and its bits in order (R46). -/
theorem State.Inv.portRead_code (hv : s.status.vCodes = true) {b : Byte} {p : Bits}
    (hp : Code.entry s.code b = some p) :
    portRead s (portAddr 5 (b.setWidth 32)) = 0x100#32 ||| BitVec.ofNat 32 p.length ∧
    ∀ j d, p[j]? = some d →
      portRead s (portAddr 4 (BitVec.ofNat 32 (256 * b.toNat + j))) = if d then 1 else 0 := by
  obtain ⟨-, hlength⟩ := hs.codes hv
  have hlen : p.length ≤ 255 := hlength (b.toNat, p) ((Cells.read?_eq_some_iff hs.codeCells.1 _ _).mp hp)
  refine ⟨?_, fun j d hj => ?_⟩
  · rw [portRead_codeLen hs.idle, readCodeLen, hv, if_pos rfl, hp]
    dsimp only
    rw [Nat.mod_eq_of_lt (Nat.lt_succ_of_le hlen)]
    rfl
  · have hj255 : j < 256 := (List.getElem?_eq_some_iff.mp hj).1.trans_le (hlen.trans (by decide))
    exact (portRead_codeBit hs.idle b hj255).trans (readCodeBit_of_some hv hp hj)

/-- A byte the host has written reads as written (R40): IN holds none past IN_MAX. -/
theorem State.Inv.portRead_in_of_written {i : Nat} {b : Byte} (h : Cells.read? s.inMem i = some b) :
    portRead s (portAddr 1 (BitVec.ofNat 32 i)) = b.setWidth 32 := by
  obtain ⟨⟨-, hinMax⟩, -⟩ := hs.cap
  have hlt : i < s.cap.inMax := hs.inCells.2 (i, b) ((Cells.read?_eq_some_iff hs.inCells.1 _ _).mp h)
  rw [portRead_in hs.idle, toNat_ofNat_of_lt (by omega), if_pos hlt, inByte_of_written h]

end

/-- Settles O59: the invariant bounds every index and every value by what the port can show. -/
theorem hostReadsShowTheState : Obligations.HostReadsShowTheState := by
  intro s hs
  have hb := hs.idle
  obtain ⟨hout, hnodes, hpq, ht, hx, hsb⟩ := hs.lengths_lt
  refine ⟨portRead_reg hb, ⟨rfl, rfl, rfl, toNat_ofNat_of_lt hout, rfl, rfl, toNat_ofNat_of_lt (by omega),
      toNat_ofNat_of_lt hpq, rfl, toNat_ofNat_of_lt ht, toNat_ofNat_of_lt hx, toNat_ofNat_of_lt hsb, fun n hn => ?_⟩,
    fun _ _ h => hs.portRead_in_of_written h, fun _ _ h => portRead_out_of_some hb (getElem?_toNat_ofNat hout.le h),
    portRead_freq hb, fun _ _ h => hs.portRead_weight h, fun _ _ _ _ h => hs.portRead_internal h,
    fun _ _ _ h => hs.portRead_leaf h,
    fun _ _ h => (portRead_tbits hb _).trans (readBit_of_some (getElem?_toNat_ofNat ht.le h)),
    fun _ _ h => (portRead_xbits hb _).trans (readBit_of_some (getElem?_toNat_ofNat hx.le h)),
    fun _ _ h => (portRead_sbits hb _).trans (readBit_of_some (getElem?_toNat_ofNat hsb.le h)), fun i h hh => ?_,
    fun hv _ _ hp => hs.portRead_code hv hp⟩
  · obtain ⟨k, rfl⟩ := Nat.exists_eq_add_of_le' hn
    rfl
  · obtain ⟨hlt, -⟩ := hs.queue.2.1 h (List.mem_of_getElem? hh)
    rw [portRead_pq_of_some hb (getElem?_toNat_ofNat hpq.le hh)]
    exact toNat_ofNat_of_lt (by omega)

end Sys2Proof.Machine
end

section
/-! What a host write changes while the block is idle (R74): the element written, where the host may write it. -/

namespace Sys2Proof.Machine

/-- Everything a plain write can do: one of the four writable elements takes it, or it is ignored (R21, R73, R74). -/
theorem plainWrite_cases (s : State) (space : BitVec 4) (index v : Word) :
    (space = 0 ∧ index = 4 ∧ v.toNat ≤ s.cap.inMax ∧ plainWrite s (portAddr space index) v = { s with inLen := v }) ∨
    (space = 0 ∧ index = 6 ∧ plainWrite s (portAddr space index) v = { s with cur := v }) ∨
    (space = 1 ∧ index.toNat < s.cap.inMax ∧ plainWrite s (portAddr space index) v =
      { s with inMem := Cells.write s.inMem index.toNat (v.setWidth 8) }) ∨
    (space = 3 ∧ index.toNat < 256 ∧ plainWrite s (portAddr space index) v =
      { s with freq := Freq.set s.freq (BitVec.ofNat 8 index.toNat) v }) ∨
    (¬ (space = 0 ∧ index = 4 ∧ v.toNat ≤ s.cap.inMax) ∧ ¬ (space = 0 ∧ index = 6) ∧
      ¬ (space = 1 ∧ index.toNat < s.cap.inMax) ∧ ¬ (space = 3 ∧ index.toNat < 256) ∧
      plainWrite s (portAddr space index) v = s) := by
  have hspace (n : BitVec 4) : space.toNat = n.toNat ↔ space = n := BitVec.toNat_inj
  have hindex (n : Word) : index.toNat = n.toNat ↔ index = n := BitVec.toNat_inj
  unfold plainWrite
  rw [portSpace_portAddr, portIndex_portAddr]
  split
  next h0 =>
    obtain rfl := (hspace 0).mp h0
    split
    next h4 =>
      obtain rfl := (hindex 4).mp h4
      split
      next hle => exact .inl ⟨rfl, rfl, hle, rfl⟩
      next hle => exact .inr (.inr (.inr (.inr (by simp [hle]))))
    next h6 =>
      obtain rfl := (hindex 6).mp h6
      exact .inr (.inl ⟨rfl, rfl, rfl⟩)
    next h4 h6 =>
      have h4 : index ≠ 4 := mt (hindex 4).mpr h4
      have h6 : index ≠ 6 := mt (hindex 6).mpr h6
      exact .inr (.inr (.inr (.inr ⟨fun h => h4 h.2.1, fun h => h6 h.2, by simp, by simp, rfl⟩)))
  next h1 =>
    obtain rfl := (hspace 1).mp h1
    split
    next hlt => exact .inr (.inr (.inl ⟨rfl, hlt, rfl⟩))
    next hlt => exact .inr (.inr (.inr (.inr (by simp [hlt]))))
  next h3 =>
    obtain rfl := (hspace 3).mp h3
    split
    next hlt => exact .inr (.inr (.inr (.inl ⟨rfl, hlt, rfl⟩)))
    next hlt => exact .inr (.inr (.inr (.inr (by simp [hlt]))))
  next h0 h1 h3 =>
    have h0 : space ≠ 0 := mt (hspace 0).mpr h0
    have h1 : space ≠ 1 := mt (hspace 1).mpr h1
    have h3 : space ≠ 3 := mt (hspace 3).mpr h3
    exact .inr (.inr (.inr (.inr ⟨fun h => h0 h.1, fun h => h0 h.1, fun h => h1 h.1, fun h => h3 h.1, rfl⟩)))

section
variable (s : State) (space : BitVec 4) (index v : Word)

/-- IN after a plain write (R40). -/
theorem read?_plainWrite_inMem (i : Nat) :
    Cells.read? (plainWrite s (portAddr space index) v).inMem i =
      if space = 1 ∧ i = index.toNat ∧ i < s.cap.inMax then some (v.setWidth 8) else Cells.read? s.inMem i := by
  rcases plainWrite_cases s space index v with ⟨rfl, -, -, h⟩ | ⟨rfl, -, h⟩ | ⟨rfl, hlt, h⟩ | ⟨rfl, -, h⟩ |
    ⟨-, -, h1, -, h⟩ <;> rw [h]
  · simp
  · simp
  · rw [Cells.read?_write]
    by_cases hi : i = index.toNat
    · simp [hi, hlt]
    · simp [hi, Ne.symm hi]
  · simp
  · rw [if_neg]
    rintro ⟨hspace, rfl, hlt⟩
    exact h1 ⟨hspace, hlt⟩

/-- IN_LEN after a plain write (R26). -/
theorem plainWrite_inLen :
    (plainWrite s (portAddr space index) v).inLen =
      if space = 0 ∧ index = 4 ∧ v.toNat ≤ s.cap.inMax then v else s.inLen := by
  rcases plainWrite_cases s space index v with ⟨rfl, rfl, hle, h⟩ | ⟨rfl, rfl, h⟩ | ⟨rfl, -, h⟩ | ⟨rfl, -, h⟩ |
    ⟨h4, -, -, -, h⟩ <;> rw [h]
  · simp [hle]
  · simp
  · simp
  · simp
  · rw [if_neg h4]

/-- CUR after a plain write (R29). -/
theorem plainWrite_cur :
    (plainWrite s (portAddr space index) v).cur = if space = 0 ∧ index = 6 then v else s.cur := by
  rcases plainWrite_cases s space index v with ⟨rfl, rfl, -, h⟩ | ⟨rfl, rfl, h⟩ | ⟨rfl, -, h⟩ | ⟨rfl, -, h⟩ |
    ⟨-, h6, -, -, h⟩ <;> rw [h]
  · simp
  · simp
  · simp
  · simp
  · rw [if_neg h6]

/-- FREQ after a plain write (R76). -/
theorem count_plainWrite_freq (hw : Cells.wf s.freq) (b : Byte) :
    Freq.count (plainWrite s (portAddr space index) v).freq b =
      if space = 3 ∧ index.toNat = b.toNat then v else Freq.count s.freq b := by
  rcases plainWrite_cases s space index v with ⟨rfl, -, -, h⟩ | ⟨rfl, -, h⟩ | ⟨rfl, -, h⟩ | ⟨rfl, hlt, h⟩ |
    ⟨-, -, -, h3, h⟩ <;> rw [h]
  · simp
  · simp
  · simp
  · have hsym : BitVec.ofNat 8 index.toNat = b ↔ index.toNat = b.toNat := by
      rw [← BitVec.toNat_inj, BitVec.toNat_ofNat, Nat.mod_eq_of_lt hlt]
    simp only [Freq.count_set hw, hsym, true_and]
  · rw [if_neg]
    rintro ⟨hspace, hidx⟩
    exact h3 ⟨hspace, hidx ▸ b.isLt⟩

end

/-- Settles O57: a write to no command register is a plain write, which changes the one element it names. -/
theorem hostWritesChangeOneElement : Obligations.HostWritesChangeOneElement := by
  intro s space index v rest hh hb ha
  have hstep : step s = .next (plainWrite (taken s rest) (portAddr space index) v) := by
    simp [step_cons hh, transact, hb, ha]
  exact ⟨_, hstep, plainWrite_fields _ _ _, read?_plainWrite_inMem _ space index v, plainWrite_inLen _ space index v,
    plainWrite_cur _ space index v, fun hs => count_plainWrite_freq _ space index v hs.freqCells.1⟩

end Sys2Proof.Machine
end

section
/-! PACK after UNPACK (R182, R186), the text bits of ENCTEXT (R190, R193), and RDPAD on a pad-count field and its padding
(R210). -/

namespace Sys2Proof.Machine

/-- Unpacking bytes and packing the bits gives the bytes back (R186). -/
theorem packBits_unpackBytes (bytes : List Byte) : packBits (unpackBytes bytes) = bytes := by
  induction bytes with
  | nil => rfl
  | cons b rest ih => rw [unpackBytes_cons, packBits_append (bits8_length b), val8_bits8, ih]

/-- A command that ends without error is followed by the rest of its list. -/
theorem runCommands_cons_of_no_err {i : Instr} {rest : List Instr} {s t : State} (h : exec i s = .next t)
    (he : t.err = none) : runCommands (i :: rest) s = runCommands rest t := by
  simp only [runCommands, h, he, if_true]

/-- UNPACK and then PACK, where OUT has room for the input, copies the input to OUT (R186). -/
theorem runCommands_unpack_pack {s : State} (h : s.inLen.toNat ≤ s.cap.outMax) :
    ∃ t, runCommands [.unpack, .pack] s = .next t ∧ t.err = none ∧ t.out = inputBytes s := by
  have hroom : (unpackBytes (inputBytes s)).length / 8 ≤ s.cap.outMax := by
    rw [unpackBytes_length, inputBytes_length]
    omega
  have hpack := (runCommands_cons_of_no_err (exec_unpack s) rfl).trans
    (runCommands_cons_of_no_err (rest := []) (exec_pack_of_room rfl hroom) rfl)
  exact ⟨_, hpack, rfl, packBits_unpackBytes (inputBytes s)⟩

/-- Settles O30: packing takes the eight bits of each byte, and `val8` and `bits8` are inverse on them. -/
theorem packAndUnpackAreInverse : Obligations.PackAndUnpackAreInverse :=
  ⟨fun _ h => runCommands_unpack_pack h, fun _ h => unpackBytes_packBits h⟩

/-- The text bits of a byte sequence, by whether a byte's code is empty (R190, R191). -/
theorem textOf_eq_flatMap (codes : Byte → Option Bits) (bytes : List Byte) :
    textOf codes bytes = bytes.flatMap fun b =>
      match codes b with
      | some (x :: code) => x :: code
      | _ => [false] := by
  refine List.flatMap_congr fun b _ => ?_
  rcases codes b with _ | _ | ⟨x, code⟩ <;> rfl

/-- The loop of ENCTEXT runs through where every byte has a code and the text bits fit (R190). -/
theorem encodeText_of_room_all {table : List (Nat × Bits)} {room : Nat} {bytes : List Byte}
    (hcoded : ∀ b ∈ bytes, (Code.entry table b).isSome = true) (hroom : textLength table bytes ≤ room) :
    encodeText table room 0 bytes = .ok (textOf (Code.entry table) bytes) := by
  have h := encodeText_append (used := 0) [] hcoded ((Nat.zero_add _).trans_le hroom)
  rw [List.append_nil] at h
  simpa [encodeText, Except.map] using h

/-- Settles O31: the loop runs through, and what it makes is the pieces of the bytes' codes. -/
theorem enctextConcatenatesCodes : Obligations.EnctextConcatenatesCodes := by
  refine ⟨rfl, fun s hv hcoded hroom => ?_⟩
  have hstage := enctextStage_of_ok (s := startCommand s) hv
    ((inputBytes_startCommand s).symm ▸ encodeText_of_room_all hcoded hroom)
  exact ⟨_, runCommand_of_done hstage, textOf_eq_flatMap _ _, textOf_entry_length hcoded, rfl⟩

/-- Settles O34: the field and the padding lie within the stream, whose end the cursor can reach. -/
theorem rdpadSkipsFieldAndPadding : Obligations.RdpadSkipsFieldAndPadding := by
  refine ⟨rfl, fun s p padding rest hs hv hstream hp hpadding => ?_⟩
  have hfront : (bits8 (BitVec.ofNat 8 p) ++ padding).length = 8 + p := by
    rw [List.length_append, bits8_length, hpadding]
  have hend := sbits_length_sub_of_streamFromCur hstream (by omega)
  have hlt : s.cur.toNat + 8 + p < 2 ^ 32 := by
    obtain ⟨-, -, -, -, -, -, hmax⟩ := hs.cap
    have hsbits := hs.sbitsLen
    omega
  have hcur : (BitVec.ofNat 32 (s.cur.toNat + 8 + p)).toNat = s.cur.toNat + 8 + p := toNat_ofNat_of_lt hlt
  have hstage := rdpadStage_of_field (s := startCommand s) hv rfl (hstream.trans (List.append_assoc ..)) hp hpadding
  refine ⟨_, runCommand_of_done hstage, toNat_ofNat_of_lt (by omega), hcur, ?_, rfl⟩
  have hdrop := congrArg (List.drop (8 + p)) hstream
  rw [List.drop_left' hfront, State.streamFromCur, List.drop_drop, ← Nat.add_assoc] at hdrop
  rw [← hdrop, State.streamFromCur]
  simp only [completeCommand_fields, startCommand_fields, hcur]

end Sys2Proof.Machine
end

section
/-! The tree walk of DECTEXT along the paths of a tree of two leaves or more (R214, R217). -/

namespace Sys2Proof.Machine

section
variable {root pos : CodeTree × CodeTree} {mid d : Bool} {child : CodeTree}
  (hchild : (if d then pos.2 else pos.1) = child)
include hchild

/-- The walk along an edge and then a path of the child there ends at the path's leaf (R214): CapacityError where OUT is
full, else one more symbol, and the walk starts again at the root. -/
theorem decodeWalk_edge_path {p : Bits × Byte} (hp : p ∈ child.paths) (room : Nat) (rest : Bits) :
    decodeWalk root pos mid room (d :: (p.1 ++ rest)) =
      match room with
      | 0 => .error .capacity
      | room' + 1 => (decodeWalk root root false room' rest).map (p.2 :: ·) := by
  induction child generalizing pos mid d p with
  | leaf s =>
    obtain rfl := mem_paths_leaf.mp hp
    rw [List.nil_append, decodeWalk]
    simp only [hchild]
    cases room with
    | zero => rfl
    | succ room =>
      dsimp only
      cases decodeWalk root root false room rest <;> rfl
  | node l r ihl ihr =>
    obtain ⟨d', q, rfl, hq⟩ := mem_paths_node.mp hp
    rw [decodeWalk]
    simp only [hchild]
    cases d' with
    | false => exact ihl (pos := (l, r)) rfl hq
    | true => exact ihr (pos := (l, r)) rfl hq

/-- The walk along an edge and then bits that no path of the child there begins ends inside the tree (R217). -/
theorem decodeWalk_dead_end {x : Bits} (hx : ∀ p ∈ child.paths, ¬ p.1 <+: x) (room : Nat) :
    decodeWalk root pos mid room (d :: x) = .error .corruptStream := by
  induction child generalizing pos mid d x with
  | leaf s => exact absurd List.nil_prefix (hx _ (mem_paths_leaf.mpr rfl))
  | node l r ihl ihr =>
    rw [decodeWalk]
    simp only [hchild]
    cases x with
    | nil => rfl
    | cons d' x =>
      have hx' : ∀ p ∈ (if d' then r else l).paths, ¬ p.1 <+: x := fun p hp hprefix =>
        hx _ (mem_paths_node.mpr ⟨d', p, rfl, hp⟩) (List.cons_prefix_cons.mpr ⟨rfl, hprefix⟩)
      cases d' with
      | false => exact ihl (pos := (l, r)) rfl hx'
      | true => exact ihr (pos := (l, r)) rfl hx'

end

section
variable {l r : CodeTree}

/-- The decoder takes a path off the text (R214), or finds OUT full (R217). -/
theorem decodeText_path_append {p : Bits × Byte} (hp : p ∈ (CodeTree.node l r).paths) (room : Nat) (rest : Bits) :
    decodeText (.node l r) room (p.1 ++ rest) =
      match room with
      | 0 => .error .capacity
      | room' + 1 => (decodeText (.node l r) room' rest).map (p.2 :: ·) := by
  obtain ⟨d, q, rfl, hq⟩ := mem_paths_node.mp hp
  exact decodeWalk_edge_path (pos := (l, r)) (mid := false) rfl hq room rest

/-- Bits that no path begins are no text (R217). -/
theorem decodeText_dead_end {x : Bits} (hx : x ≠ []) (hpaths : ∀ p ∈ (CodeTree.node l r).paths, ¬ p.1 <+: x)
    (room : Nat) : decodeText (.node l r) room x = .error .corruptStream := by
  obtain ⟨d, x, rfl⟩ := List.exists_cons_of_ne_nil hx
  refine decodeWalk_dead_end (pos := (l, r)) (mid := false) rfl (fun p hp h => ?_) room
  exact hpaths _ (mem_paths_node.mpr ⟨d, p, rfl, hp⟩) (List.cons_prefix_cons.mpr ⟨rfl, h⟩)

/-- The decoder takes a row of paths off the text (R214). -/
theorem decodeText_row_append {row : List (Bits × Byte)} (hrow : ∀ p ∈ row, p ∈ (CodeTree.node l r).paths) (room : Nat)
    (tail : Bits) :
    decodeText (.node l r) (row.length + room) (row.flatMap Prod.fst ++ tail) =
      (decodeText (.node l r) room tail).map (row.map Prod.snd ++ ·) := by
  induction row with
  | nil => cases h : decodeText (.node l r) room tail <;> simp [h, Except.map]
  | cons p row ih =>
    obtain ⟨hp, hrow⟩ := List.forall_mem_cons.mp hrow
    rw [List.length_cons, Nat.add_right_comm, List.flatMap_cons, List.append_assoc, decodeText_path_append hp]
    dsimp only
    rw [ih hrow]
    cases decodeText (.node l r) room tail <;> rfl

/-- A path of a tree of two leaves or more has an edge. -/
theorem path_ne_nil {p : Bits × Byte} (hp : p ∈ (CodeTree.node l r).paths) : p.1 ≠ [] := by
  obtain ⟨d, q, rfl, -⟩ := mem_paths_node.mp hp
  exact List.cons_ne_nil d q.1

end

/-- Settles O36: the row of paths is taken off the text, and nothing is left. -/
theorem dectextDecodesLeafPaths : Obligations.DectextDecodesLeafPaths := by
  refine ⟨rfl, fun s l r row hs hv hle htree hrow hstream hfits => exec_dectext_of_ok hs hv hle htree ?_⟩
  obtain ⟨room, hroom⟩ := Nat.exists_eq_add_of_le hfits
  have h := decodeText_row_append hrow room []
  rwa [List.append_nil, decodeText_nil, ← hroom, ← hstream, Except.map, List.append_nil] at h

/-- DECTEXT without a stream or without a tree (R217). -/
theorem exec_dectext_of_missing {s : State} (h : s.status.vSbits = false ∨ s.status.vTree = false) :
    exec .dectext s = .next (reportError .sequence s) :=
  exec_of_not_ready (Bool.and_eq_false_iff.mpr h)

/-- DECTEXT with the cursor past the end of the stream (R217). -/
theorem exec_dectext_of_past_end {s : State} (hs : s.status.vSbits = true) (hv : s.status.vTree = true)
    (hlt : s.sbits.length < s.cur.toNat) :
    exec .dectext s = .next (reportError .corruptStream { s with out := [] }) := by
  have hstage : dectextStage (startCommand s) = .raised .corruptStream { startCommand s with out := [] } := by
    simp [dectextStage, hs, hv, hlt]
  exact (runCommand_of_raised hstage).trans rfl

/-- A stream with a bit at the cursor reaches at least to the cursor (R29). -/
theorem cur_le_of_streamFromCur_ne_nil {s : State} (h : s.streamFromCur ≠ []) : s.cur.toNat ≤ s.sbits.length := by
  by_contra hlt
  exact h (List.drop_eq_nil_of_le (by omega))

/-- Settles O38: a row of paths is taken off the text, and then the next path finds OUT full or the tail ends inside the
tree. -/
theorem dectextErrors : Obligations.DectextErrors := by
  refine fun s => ⟨exec_dectext_of_missing, exec_dectext_of_past_end,
    fun l r row tail hs hv htree hrow hstream => ⟨fun ⟨p, hp, hprefix⟩ hfull => ?_, fun htail hpaths hfits => ?_⟩⟩
  · obtain ⟨rest, rfl⟩ := hprefix
    have hle : s.cur.toNat ≤ s.sbits.length :=
      cur_le_of_streamFromCur_ne_nil (by simp [hstream, path_ne_nil hp])
    refine exec_dectext_of_error hs hv hle htree ?_
    rw [hstream, ← hfull, ← Nat.add_zero row.length, decodeText_row_append hrow, decodeText_path_append hp]
    rfl
  · have hle : s.cur.toNat ≤ s.sbits.length := cur_le_of_streamFromCur_ne_nil (by simp [hstream, htail])
    refine exec_dectext_of_error hs hv hle htree ?_
    obtain ⟨room, hroom⟩ := Nat.exists_eq_add_of_le hfits
    rw [hstream, hroom, decodeText_row_append hrow, decodeText_dead_end htail hpaths]
    rfl

end Sys2Proof.Machine
end

section
/-! What DECOMPRESS (R220) can come to from any state (R221), and that one that succeeds is its stages one by one. -/

namespace Sys2Proof.Machine

/-- DECOMPRESS after UNPACK: the input's bits, no tree and no output (R220). -/
def unpacked (s : State) : State :=
  { decompressStart s with
    sbits := unpackBytes (inputBytes s)
    status := { (decompressStart s).status with vSbits := true }
    cur := 0 }

/-- DESTREE's stage where a tree is read (R165). -/
theorem destreeStage_of_read {s : State} {tree : CodeTree} {rest : Bits} {n : Nat} (hv : s.status.vSbits = true)
    (hread : readTree s.cap.nodeMax s.streamFromCur = .ok (tree, rest, n)) :
    destreeStage s = .done { dropTree s with
      nodes := tree.records 0
      root := 0
      status := { (dropTree s).status with vTree := true }
      cur := BitVec.ofNat 32 (s.sbits.length - rest.length) } := by
  simp only [destreeStage, hv, if_true, hread]

/-- DECOMPRESS after DESTREE has read `tree`, `rest` being the bits after it (R165, R220). -/
def treeRead (s : State) (tree : CodeTree) (rest : Bits) : State :=
  { unpacked s with
    nodes := tree.records 0
    status := { (unpacked s).status with vTree := true }
    cur := BitVec.ofNat 32 ((unpackBytes (inputBytes s)).length - rest.length) }

theorem tree?_treeRead (s : State) (tree : CodeTree) (rest : Bits) : (treeRead s tree rest).tree? = some tree :=
  tree?_of_records rfl rfl

/-- DESTREE in DECOMPRESS reads a tree from the front of the input's bits, or raises the reader's error (R220). -/
theorem destreeStage_unpacked_cases (s : State) :
    (∃ e, readTree s.cap.nodeMax (unpackBytes (inputBytes s)) = .error e ∧
      destreeStage (unpacked s) = .raised e (dropTree (unpacked s))) ∨
    (∃ tree rest n, readTree s.cap.nodeMax (unpackBytes (inputBytes s)) = .ok (tree, rest, n) ∧
      destreeStage (unpacked s) = .done (treeRead s tree rest)) := by
  rcases destreeStage_cases (unpacked s) with ⟨hv, -⟩ | ⟨e, -, he, hs⟩ | ⟨tree, rest, n, -, hread, hs⟩
  · cases hv
  · exact .inl ⟨e, he, hs⟩
  · exact .inr ⟨tree, rest, n, hread, hs⟩

/-- RDPAD and DECTEXT where there is a stream and a tree raise CorruptStreamError or CapacityError, and write PADCNT, CUR
and OUT alone, leaving OUT empty after an error (R211, R217). -/
theorem rdpad_dectext_cases {s : State} {tree : CodeTree} (hs : s.status.vSbits = true) (hv : s.status.vTree = true)
    (htree : s.tree? = some tree) (hout : s.out = []) :
    (∃ e cur pad, (e = .corruptStream ∨ e = .capacity) ∧
      (rdpadStage s).andThen dectextStage = .raised e { s with padCnt := pad, cur := cur }) ∨
    (∃ cur pad out, (rdpadStage s).andThen dectextStage = .done { s with padCnt := pad, cur := cur, out := out }) := by
  rcases rdpadStage_cases s with ⟨hv', -⟩ | ⟨-, hp⟩ | ⟨p, -, -, -, -, hp⟩
  · simp [hs] at hv'
  · exact .inl ⟨_, s.cur, s.padCnt, .inl rfl, andThen_of_raised hp⟩
  · rw [hp, andThen_done]
    rcases dectextStage_cases { s with padCnt := BitVec.ofNat 32 p, cur := BitVec.ofNat 32 (s.cur.toNat + 8 + p) } with
      ⟨hmissing, -⟩ | ⟨-, -, -, ht⟩ | ⟨-, htree', -⟩ | ⟨_, e, -, -, -, -, he, ht⟩ | ⟨_, out, -, -, -, -, -, ht⟩
    · simp [hs, hv] at hmissing
    · exact .inl ⟨_, _, _, .inl rfl, by rw [ht, ← hout]⟩
    · cases htree.symm.trans htree'
    · exact .inl ⟨e, _, _, decodeText_error_cases he, by rw [ht, ← hout]⟩
    · exact .inr ⟨_, _, out, ht⟩

/-- What DECOMPRESS's stage can come to (R221): the reader's error with no tree left, an error of RDPAD or DECTEXT with
the tree read, or the text decoded. -/
theorem decompressStage_cases (s : State) :
    (∃ e, readTree s.cap.nodeMax (unpackBytes (inputBytes s)) = .error e ∧
      decompressStage s = .raised e (dropTree (unpacked s))) ∨
    (∃ tree rest n e cur pad, readTree s.cap.nodeMax (unpackBytes (inputBytes s)) = .ok (tree, rest, n) ∧
      (e = .corruptStream ∨ e = .capacity) ∧
      decompressStage s = .raised e { treeRead s tree rest with padCnt := pad, cur := cur }) ∨
    (∃ tree rest n cur pad out, readTree s.cap.nodeMax (unpackBytes (inputBytes s)) = .ok (tree, rest, n) ∧
      decompressStage s = .done { treeRead s tree rest with padCnt := pad, cur := cur, out := out }) := by
  have hchain : decompressStage s = (destreeStage (unpacked s)).andThen fun t => (rdpadStage t).andThen dectextStage :=
    andThen_assoc _ _ _
  rcases destreeStage_unpacked_cases s with ⟨e, he, hs⟩ | ⟨tree, rest, n, hread, hs⟩ <;> rw [hchain, hs]
  · exact .inl ⟨e, he, rfl⟩
  · rw [andThen_done]
    rcases rdpad_dectext_cases (s := treeRead s tree rest) rfl rfl (tree?_treeRead s tree rest) rfl with
      ⟨e, cur, pad, he, ht⟩ | ⟨cur, pad, out, ht⟩
    · exact .inr (.inl ⟨tree, rest, n, e, cur, pad, hread, he, ht⟩)
    · exact .inr (.inr ⟨tree, rest, n, cur, pad, out, hread, ht⟩)

/-- No tree can be read from no bits (R167). -/
theorem readTree_nil (room : Nat) : readTree room [] = .error .malformedTree := rfl

/-- Settles O47: MalformedTreeError comes from the reader alone, before there is a tree, CorruptStreamError after. -/
theorem decompressErrors : Obligations.DecompressErrors := by
  intro s
  have hempty (h : s.inLen = 0) :
      readTree s.cap.nodeMax (unpackBytes (inputBytes s)) = .error .malformedTree := by
    rw [inputBytes_eq_nil h, unpackBytes_nil, readTree_nil]
  have hinput : inputBytes (startCommand s) = inputBytes s := inputBytes_startCommand s
  rcases decompressStage_cases (startCommand s) with ⟨e, he, hs⟩ | ⟨tree, rest, n, e, cur, pad, hread, he, hs⟩ |
    ⟨tree, rest, n, cur, pad, out, hread, hs⟩
  · refine ⟨_, runCommand_of_raised hs, ?_, fun h => ?_, fun _ => ⟨rfl, rfl, congrArg unpackBytes hinput⟩,
      fun _ => ⟨rfl, rfl⟩, fun h => ?_⟩
    · rcases parseTree_error_cases he with rfl | rfl <;> simp
    · rw [hinput] at he
      obtain rfl := Except.error.inj (he.symm.trans (hempty h))
      rfl
    · obtain rfl : e = .corruptStream := Option.some.inj h
      rcases parseTree_error_cases he with h | h <;> cases h
  · rw [hinput] at hread
    refine ⟨_, runCommand_of_raised hs, ?_, fun h => ?_, fun _ => ⟨rfl, rfl, congrArg unpackBytes hinput⟩,
      fun h => ?_, fun _ => rfl⟩
    · rcases he with rfl | rfl <;> simp
    · cases hread.symm.trans (hempty h)
    · obtain rfl : e = .malformedTree := Option.some.inj h
      rcases he with h | h <;> cases h
  · rw [hinput] at hread
    refine ⟨_, runCommand_of_done hs, .inl rfl, fun h => ?_, fun h => absurd rfl h, fun h => ?_, fun h => ?_⟩
    · cases hread.symm.trans (hempty h)
    · cases h
    · cases h

/-- RDPAD's stage where the stream holds a pad count at the cursor, and the padding after it (R210). -/
theorem rdpadStage_of_fits {s : State} {p : Nat} (hv : s.status.vSbits = true)
    (hfield : p = (val8 (s.streamFromCur.take 8)).toNat) (hp : p ≤ 7) (hfits : s.cur.toNat + 8 + p ≤ s.sbits.length) :
    rdpadStage s =
      .done { s with padCnt := BitVec.ofNat 32 p, cur := BitVec.ofNat 32 (s.cur.toNat + 8 + p) } := by
  rw [State.streamFromCur] at hfield
  simp only [rdpadStage, hv, if_true, ← hfield]
  rw [if_neg (by omega), if_neg (by omega), if_neg (by omega)]

/-- RDPAD neither reads nor writes OUT. -/
theorem rdpadStage_with_out {s t : State} (h : rdpadStage s = .done t) (out : List Byte) :
    rdpadStage { s with out := out } = .done { t with out := out } := by
  rcases rdpadStage_cases s with ⟨-, hs⟩ | ⟨-, hs⟩ | ⟨p, hv, hfield, hp, hfits, hs⟩ <;> cases hs.symm.trans h
  exact rdpadStage_of_fits (s := { s with out := out }) hv hfield hp hfits

/-- DECTEXT overwrites OUT, whatever it held. -/
theorem dectextStage_with_out {s t : State} (h : dectextStage s = .done t) (out : List Byte) :
    dectextStage { s with out := out } = .done t := by
  rcases dectextStage_cases s with ⟨-, hs⟩ | ⟨-, -, -, hs⟩ | ⟨-, -, hs⟩ | ⟨_, _, -, -, -, -, -, hs⟩ |
    ⟨tree, text, hv, hvt, hle, htree, htext, hs⟩ <;> cases hs.symm.trans h
  exact dectextStage_of_text (s := { s with out := out }) hv hvt rfl hle htree rfl htext

/-- Where DECOMPRESS's stage completes, the stages of its unit commands do, from the uncleared state, and in the same
state: what DECOMPRESS clears at its start, they overwrite (R220). -/
theorem decompressStage_eq_chainStages {s t : State} (h : decompressStage s = .done t) :
    chainStages [.unpack, .destree, .rdpad, .dectext] s = .done t := by
  simp only [decompressStage, unpackStage_eq, andThen_done, andThen_eq_done_iff] at h
  obtain ⟨c, ⟨b, hdestree, hrdpad⟩, hdectext⟩ := h
  rcases destreeStage_unpacked_cases s with ⟨e, -, hs⟩ | ⟨tree, rest, n, hread, hs⟩ <;>
    cases hs.symm.trans hdestree
  have hdestree' := destreeStage_of_read (s := { s with
    sbits := unpackBytes (inputBytes s), status := { s.status with vSbits := true }, cur := 0 }) rfl hread
  exact andThen_of_done (unpackStage_eq s) (andThen_of_done hdestree'
    (andThen_of_done (rdpadStage_with_out hrdpad s.out) (andThen_of_done (dectextStage_with_out hdectext s.out) rfl)))

/-- A command that ends without error ends the run of its stage. -/
theorem stage_done_of_no_err {i : Instr} {s t : State} (h : exec i s = .next t) (he : t.err = none) :
    ∃ u, commandStage i (startCommand s) = .done u ∧ t = completeCommand u := by
  rcases exec_eq_next_cases h with hdone | ⟨e, u, -, -, rfl⟩
  · exact hdone
  · cases he

/-- Settles O46: running the unit commands is running the chain of their stages, which comes to what DECOMPRESS's stage
comes to. -/
theorem decompressEqualsItsStages : Obligations.DecompressEqualsItsStages := by
  intro s t h he
  obtain ⟨u, hu, rfl⟩ := stage_done_of_no_err h he
  rw [runCommands_eq_runCommand]
  exact runCommand_of_done (decompressStage_eq_chainStages hu)

end Sys2Proof.Machine
end

section
/-! What BUILD and CODES make depends on FREQ alone (R143, R151): run from another state with the same counts, they make
the same arena, queue, ROOT and code table. -/

namespace Sys2Proof.Machine

/-- `b` with the arena, the queue, ROOT and V_TREE of `s`. -/
def withTreeOf (s b : State) : State :=
  { b with nodes := s.nodes, pq := s.pq, root := s.root, status := { b.status with vTree := s.status.vTree } }

theorem seedStage_withTreeOf {s t b : State} (hfreq : b.freq = s.freq) (h : seedStage s = .done t) :
    seedStage b = .done (withTreeOf t b) := by
  rcases seedStage_cases s with ⟨-, hs⟩ | ⟨hne, hs⟩ <;> cases hs.symm.trans h
  rcases seedStage_cases b with ⟨hnil, -⟩ | ⟨-, hb⟩
  · exact absurd (hfreq ▸ hnil) hne
  · rw [hb, hfreq]
    rfl

theorem mergeStage_withTreeOf {s t : State} (b : State) (h : mergeStage s = .done t) :
    mergeStage (withTreeOf s b) = .done (withTreeOf t b) := by
  rcases mergeStage_cases s with ⟨-, hs⟩ | ⟨x, y, rest, hpq, hall, hs⟩ | ⟨-, -, hs⟩ <;> cases hs.symm.trans h
  rw [mergeStage_of_cons (s := withTreeOf s b) hpq hall, mergeTop_eq, mergeTop_eq]
  by_cases hrest : rest = [] <;> simp [withTreeOf, hrest]

theorem mergeLoop_withTreeOf {fuel : Nat} {s t : State} (b : State) (h : mergeLoop fuel s = .done t) :
    mergeLoop fuel (withTreeOf s b) = .done (withTreeOf t b) := by
  induction fuel generalizing s with
  | zero =>
    cases h
    rfl
  | succ fuel ih =>
    have hpq : (withTreeOf s b).pq = s.pq := rfl
    rw [mergeLoop] at h ⊢
    rw [hpq]
    split at h
    next hlt =>
      obtain ⟨u, hu, ht⟩ := andThen_eq_done_iff.mp h
      rw [if_pos hlt]
      exact andThen_of_done (mergeStage_withTreeOf b hu) (ih ht)
    next hlt =>
      cases h
      rw [if_neg hlt]

theorem buildStage_withTreeOf {s t b : State} (hfreq : b.freq = s.freq) (h : buildStage s = .done t) :
    buildStage b = .done (withTreeOf t b) := by
  obtain ⟨u, hu, ht⟩ := andThen_eq_done_iff.mp h
  exact andThen_of_done (seedStage_withTreeOf hfreq hu) (mergeLoop_withTreeOf b ht)

/-- `b` with what BUILD and CODES have made in `s`. -/
def withCodesOf (s b : State) : State :=
  { withTreeOf s b with code := s.code, status := { (withTreeOf s b).status with vCodes := s.status.vCodes } }

theorem build_codes_withCodesOf {s t b : State} (hfreq : b.freq = s.freq)
    (h : (buildStage s).andThen codesStage = .done t) :
    (buildStage b).andThen codesStage = .done (withCodesOf t b) := by
  obtain ⟨u, hbuild, hcodes⟩ := andThen_eq_done_iff.mp h
  rcases codesStage_cases u with ⟨-, hs⟩ | ⟨-, -, hs⟩ | ⟨_, _, -, -, -, hs⟩ | ⟨tree, table, hv, htree, hw, hs⟩ <;>
    cases hs.symm.trans hcodes
  exact andThen_of_done (buildStage_withTreeOf hfreq hbuild)
    (codesStage_of_walk (s := withTreeOf u b) hv htree hw)

end Sys2Proof.Machine
end

section
/-! COMPRESS after CODES (R200): what ENCTEXT, SERTREE, ASSEMBLE and PACK come to, by whether the text, the stream and its
bytes fit. -/

namespace Sys2Proof.Machine

/-- CODES has tabulated the tree at ROOT, and every byte of the input is at one of its leaves. -/
structure Coded (v : State) (tree : CodeTree) : Prop where
  vTree : v.status.vTree = true
  vCodes : v.status.vCodes = true
  tree? : v.tree? = some tree
  code : Code.entry v.code = codesOf tree
  symbols : ∀ b ∈ inputBytes v, b ∈ tree.symbols

theorem CodesReady.coded {s v : State} {tree : CodeTree} (h : CodesReady s v tree) : Coded v tree where
  vTree := by rw [h.frame]
  vCodes := by rw [h.frame]
  tree? := h.tree?
  code := h.code
  symbols := fun _ hb => h.mem_symbols (h.inputBytes ▸ hb)

/-- After CODES only the arena, the queue, ROOT, CODE and two flags differ from what COUNT has left. -/
theorem CodesReady.exists_frame {s v : State} {tree : CodeTree} (h : CodesReady s v tree) :
    ∃ nodes pq root code, v = { counted s with
      nodes := nodes, pq := pq, root := root, code := code
      status := { s.status.clearValid with vTree := true, vCodes := true } } := ⟨_, _, _, _, h.frame⟩

/-- What the last four stages of COMPRESS come to after CODES: CapacityError where the text does not fit XBITS (R192), the
stream does not fit SBITS (R197) or its bytes do not fit OUT (R181), and else the whole stream. -/
def encoded (v : State) (tree : CodeTree) : StageResult :=
  if v.cap.xbitsMax < (inputText v tree).length then
    .raised .capacity { v with xbits := [], status := { v.status with vXbits := false } }
  else if v.cap.sbitsMax < (assembled v tree).sbits.length then
    .raised .capacity { serialised v tree with
      sbits := [], cur := 0, status := { (serialised v tree).status with vSbits := false } }
  else if v.cap.outMax < (assembled v tree).sbits.length / 8 then
    .raised .capacity { assembled v tree with out := [] }
  else .done (packed v tree)

/-- ASSEMBLE's stage by whether the stream fits (R195, R197). -/
theorem assembleStage_serialised (v : State) (tree : CodeTree) :
    assembleStage (serialised v tree) =
      if v.cap.sbitsMax < (assembled v tree).sbits.length then
        .raised .capacity { serialised v tree with
          sbits := [], cur := 0, status := { (serialised v tree).status with vSbits := false } }
      else .done (assembled v tree) := by
  rcases assembleStage_cases (serialised v tree) with ⟨hmissing, -⟩ | ⟨-, -, hfull, hs⟩ | ⟨-, -, hroom, hs⟩
  · rcases hmissing with h | h <;> cases h
  · exact hs.trans (if_pos hfull).symm
  · exact hs.trans (if_neg (Nat.not_lt.mpr hroom)).symm

/-- PACK's stage by whether the bytes fit (R180, R181). -/
theorem packStage_assembled (v : State) (tree : CodeTree) :
    packStage (assembled v tree) =
      if v.cap.outMax < (assembled v tree).sbits.length / 8 then .raised .capacity { assembled v tree with out := [] }
      else .done (packed v tree) := by
  rcases packStage_cases (assembled v tree) with ⟨hmissing, -⟩ | ⟨-, hfull, hs⟩ | ⟨-, hroom, hs⟩
  · cases hmissing
  · exact hs.trans (if_pos hfull).symm
  · exact hs.trans (if_neg (Nat.not_lt.mpr hroom)).symm

section
variable {v : State} {tree : CodeTree} (h : Coded v tree)
include h

/-- ENCTEXT's stage by whether the text fits (R190, R192). -/
theorem Coded.enctextStage_eq :
    enctextStage v =
      if v.cap.xbitsMax < (inputText v tree).length then
        .raised .capacity { v with xbits := [], status := { v.status with vXbits := false } }
      else .done { v with xbits := inputText v tree, status := { v.status with vXbits := true } } := by
  have hcoded : ∀ b ∈ inputBytes v, (Code.entry v.code b).isSome = true := fun b hb => by
    rw [h.code, codesOf_isSome_iff]
    exact h.symbols b hb
  have hlength := textOf_entry_length hcoded
  have htext : textOf (Code.entry v.code) (inputBytes v) = inputText v tree := by rw [h.code]
  rw [htext] at hlength
  split
  next hfull =>
    rcases encodeText_cases (room := v.cap.xbitsMax) (used := 0) hcoded with he | hx
    · exact enctextStage_of_error h.vCodes he
    · have hle := encodeText_length_le (Nat.zero_le _) hx
      rw [htext, Nat.zero_add] at hle
      exact absurd hle (Nat.not_le.mpr hfull)
  next hroom =>
    rw [← htext]
    exact enctextStage_of_ok h.vCodes (encodeText_of_room_all hcoded (hlength ▸ Nat.le_of_not_lt hroom))

/-- The last four stages of COMPRESS. -/
theorem Coded.stages_eq_encoded :
    (((enctextStage v).andThen sertreeStage).andThen assembleStage).andThen packStage = encoded v tree := by
  rw [h.enctextStage_eq, encoded]
  split
  next => rfl
  next =>
    have hsertree := sertreeStage_of_tree
      (s := { v with xbits := inputText v tree, status := { v.status with vXbits := true } }) h.vTree h.tree?
    rw [andThen_done, hsertree, andThen_done]
    change (assembleStage (serialised v tree)).andThen packStage = _
    rw [assembleStage_serialised]
    split
    next => rfl
    next => exact packStage_assembled v tree

end

/-- COMPRESS of a non-empty input, after its first four stages (R200). -/
theorem compressStage_eq_encoded {s v : State} {tree : CodeTree} (hv : Coded v tree)
    (hchain : (((countStage (compressStart s)).andThen requireInput).andThen buildStage).andThen codesStage = .done v) :
    compressStage s = encoded v tree := by
  rw [compressStage, hchain, andThen_done, hv.stages_eq_encoded]

/-- The only error after CODES is CapacityError, and OUT is as COMPRESS cleared it (R201). -/
theorem encoded_cases {v : State} {tree : CodeTree} (hout : v.out = []) :
    (∃ u, encoded v tree = .raised .capacity u ∧ u.out = []) ∨ encoded v tree = .done (packed v tree) := by
  unfold encoded
  split
  next => exact .inl ⟨_, rfl, hout⟩
  next =>
    split
    next => exact .inl ⟨_, rfl, hout⟩
    next =>
      split
      next => exact .inl ⟨_, rfl, rfl⟩
      next => exact .inr rfl

/-- Settles O41: with an input the first four stages complete, and the last four raise CapacityError alone. -/
theorem compressErrors : Obligations.CompressErrors := by
  intro s h
  obtain ⟨v, tree, hchain, hv⟩ := exists_codesReady (s := startCommand s) h
  have hstage := compressStage_eq_encoded hv.coded hchain
  rcases encoded_cases (tree := tree) hv.out with ⟨u, hu, hout⟩ | hu
  · exact ⟨_, runCommand_of_raised (hstage.trans hu), .inr ⟨rfl, hout⟩⟩
  · exact ⟨_, runCommand_of_done (hstage.trans hu), .inl hv.err⟩

/-- The code of every byte of the input is at most 255 bits long, so that its piece is (R154, R193). -/
theorem CodesReady.inputText_length_le {s v : State} {tree : CodeTree} (h : CodesReady s v tree) :
    (inputText v tree).length ≤ 255 * s.inLen.toNat := by
  have hdepth : tree.depth ≤ 255 := Nat.le_of_lt_succ ((depth_lt_leaves tree).trans_le h.leaves_le)
  have hpiece : ∀ b, (piece ((codesOf tree b).getD [])).length ≤ 255 := fun b => by
    rw [piece_length]
    cases hp : codesOf tree b with
    | none => simp
    | some p => simpa using (codesOf_length_le hp).trans hdepth
  have hsum := List.sum_le_card_nsmul ((Machine.inputBytes v).map fun b => (piece ((codesOf tree b).getD [])).length) 255
    fun n hn => by
      obtain ⟨b, -, rfl⟩ := List.mem_map.mp hn
      exact hpiece b
  rw [List.length_map, h.inputBytes, inputBytes_length, smul_eq_mul, Nat.mul_comm] at hsum
  rw [inputText, textOf, List.length_flatMap, h.inputBytes]
  exact hsum

/-- The stream takes at most 2574 bits more than the text: 2559 for the tree, 8 for the field, 7 for the padding. -/
theorem CodesReady.stream_length_le {s v : State} {tree : CodeTree} (h : CodesReady s v tree) :
    (assembled v tree).sbits.length ≤ (inputText v tree).length + 2574 := by
  have hleaves := h.leaves_le
  have hser := ser_length_succ tree
  have hpad := padCount_le tree.ser.length (inputText v tree).length
  have hlength : (assembled v tree).sbits.length =
      tree.ser.length + 8 + padCount tree.ser.length (inputText v tree).length + (inputText v tree).length :=
    assembleStream_length _ _
  omega

/-- The stream of COMPRESS is the bits of its bytes (R180). -/
theorem unpackBytes_packed_out (v : State) (tree : CodeTree) :
    unpackBytes (packed v tree).out = (assembled v tree).sbits :=
  unpackBytes_packBits ((assembleStream_length _ _).symm ▸ padCount_aligns _ _)

/-- Settles O42: the longest codes fit, so that nothing is refused, and unpacking OUT gives the stream back. -/
theorem compressMakesTheEncodedStream : Obligations.CompressMakesTheEncodedStream := by
  refine ⟨rfl, fun s h hxbits hsbits hout => ?_⟩
  obtain ⟨v, tree, hchain, hv⟩ := exists_codesReady (s := startCommand s) h
  have htext := hv.inputText_length_le
  have hstream := hv.stream_length_le
  have hcap : v.cap = s.cap := hv.cap
  simp only [startCommand_fields] at htext
  have hdone : encoded v tree = .done (packed v tree) := by
    rw [encoded, if_neg (by rw [hcap]; omega), if_neg (by rw [hcap]; omega), if_neg (by rw [hcap]; omega)]
  have hunpack := unpackBytes_packed_out v tree
  have hinput : inputBytes v = inputBytes s := hv.inputBytes.trans (inputBytes_startCommand s)
  refine ⟨_, tree, _, runCommand_of_done ((compressStage_eq_encoded hv.coded hchain).trans hdone), hv.tree?,
    padCount_le tree.ser.length (inputText v tree).length, ?_, ?_⟩
  · have htextOf := textOf_eq_flatMap (codesOf tree) (inputBytes s)
    rw [← hinput] at htextOf ⊢
    exact hunpack.trans (congrArg _ htextOf)
  · have heta : completeCommand (packed v tree) =
        { completeCommand (packed v tree) with sbits := unpackBytes (packed v tree).out } := by
      rw [hunpack]
      rfl
    obtain ⟨nodes, pq, root, code, hframe⟩ := hv.exists_frame
    refine heta.trans ?_
    rw [hframe]
    rfl

end Sys2Proof.Machine
end

section
/-! A COMPRESS that succeeds is its unit commands one by one (R200, R273). -/

namespace Sys2Proof.Machine

/-- A chain of stages, taken from the left. -/
theorem andThen_chainStages (is : List Instr) (r : StageResult) :
    r.andThen (chainStages is) = is.foldl (fun r i => r.andThen (commandStage i)) r := by
  induction is generalizing r with
  | nil => cases r <;> rfl
  | cons i is ih =>
    rw [List.foldl_cons, ← ih, andThen_assoc]
    rfl

/-- The last four stages of COMPRESS complete exactly where the text, the stream and its bytes fit. -/
theorem encoded_eq_done_iff {v u : State} {tree : CodeTree} :
    encoded v tree = .done u ↔
      (inputText v tree).length ≤ v.cap.xbitsMax ∧ (assembled v tree).sbits.length ≤ v.cap.sbitsMax ∧
        (assembled v tree).sbits.length / 8 ≤ v.cap.outMax ∧ u = packed v tree := by
  simp only [← Nat.not_lt]
  unfold encoded
  split
  next h => simp [h]
  next h =>
    split
    next h' => simp [h']
    next h' =>
      split
      next h'' => simp [h'']
      next h'' => simp [h, h', h'', eq_comm]

/-- COMPRESS after its first four stages, from a state it has cleared, is BUILD and CODES on the counts of its input. -/
theorem build_codes_counted {s v : State} (h : s.inLen ≠ 0)
    (hchain : (((countStage (compressStart s)).andThen requireInput).andThen buildStage).andThen codesStage = .done v) :
    (buildStage (counted s)).andThen codesStage = .done v := by
  rw [count_requireInput, if_neg h, andThen_done] at hchain
  exact hchain

/-- What COUNT leaves by itself, nothing being cleared (R120). -/
def countedOnly (s : State) : State := { s with freq := (inputBytes s).foldl bumpCount [] }

section
variable {s v u : State} {tree : CodeTree} (h : CodesReady s v tree)
include h

theorem CodesReady.inputBytes_withCodesOf :
    Machine.inputBytes (withCodesOf v (countedOnly s)) = Machine.inputBytes v := h.inputBytes.symm

theorem CodesReady.coded_withCodesOf : Coded (withCodesOf v (countedOnly s)) tree where
  vTree := h.coded.vTree
  vCodes := h.coded.vCodes
  tree? := h.tree?
  code := h.code
  symbols := fun b hb => h.coded.symbols b (h.inputBytes_withCodesOf ▸ hb)

/-- The tree bits, the text, the stream and OUT are all written after CODES, so that it does not matter what they held
before. -/
theorem CodesReady.packed_withCodesOf : packed (withCodesOf v (countedOnly s)) tree = packed v tree := by
  obtain ⟨nodes, pq, root, code, hframe⟩ := h.exists_frame
  rw [hframe]
  rfl

/-- The last four stages of COMPRESS complete from the uncleared state too, and in the same state. -/
theorem CodesReady.encoded_withCodesOf (hu : encoded v tree = .done u) :
    encoded (withCodesOf v (countedOnly s)) tree = .done u := by
  have hcap : (withCodesOf v (countedOnly s)).cap = v.cap := h.cap.symm
  have htext : inputText (withCodesOf v (countedOnly s)) tree = inputText v tree := by
    rw [inputText, h.inputBytes_withCodesOf]
  have hsbits : (assembled (withCodesOf v (countedOnly s)) tree).sbits = (assembled v tree).sbits :=
    congrArg (assembleStream tree.ser) htext
  rw [encoded_eq_done_iff] at hu ⊢
  rwa [hcap, htext, hsbits, h.packed_withCodesOf]

end

/-- Where COMPRESS's stage completes, the stages of its unit commands do, from the uncleared state, and in the same
state (R200). -/
theorem compressStage_eq_chainStages {s t : State} (h : compressStage s = .done t) :
    chainStages [.count, .build, .codes, .enctext, .sertree, .assemble, .pack] s = .done t := by
  by_cases hlen : s.inLen = 0
  · rw [compressStage, count_requireInput, if_pos hlen] at h
    cases h
  obtain ⟨v, tree, hchain, hv⟩ := exists_codesReady hlen
  rw [compressStage_eq_encoded hv.coded hchain] at h
  have hcodes := build_codes_withCodesOf (s := counted s) (b := countedOnly s) rfl (build_codes_counted hlen hchain)
  calc chainStages [.count, .build, .codes, .enctext, .sertree, .assemble, .pack] s
      = ((((((buildStage (countedOnly s)).andThen codesStage).andThen enctextStage).andThen sertreeStage).andThen
          assembleStage).andThen packStage) :=
        andThen_chainStages [.count, .build, .codes, .enctext, .sertree, .assemble, .pack] (.done s)
    _ = encoded (withCodesOf v (countedOnly s)) tree := by
        rw [hcodes, andThen_done, hv.coded_withCodesOf.stages_eq_encoded]
    _ = .done t := hv.encoded_withCodesOf h

/-- Settles O43: running the unit commands is running the chain of their stages, which comes to what COMPRESS's stage
comes to. -/
theorem compressEqualsItsStages : Obligations.CompressEqualsItsStages := by
  intro s t h he
  obtain ⟨u, hu, rfl⟩ := stage_done_of_no_err h he
  rw [runCommands_eq_runCommand]
  exact runCommand_of_done (compressStage_eq_chainStages hu)

end Sys2Proof.Machine
end

section
/-! COMPRESS depends on its input and the capacities alone (R202). -/

namespace Sys2Proof.Machine

/-- The states agree in the capacities, in the input, and in everything that COMPRESS clears, makes or reports but
PADCNT and ERRACC. -/
structure SameWork (s t : State) : Prop where
  cap : s.cap = t.cap
  input : inputBytes s = inputBytes t
  err : s.err = t.err
  out : s.out = t.out
  freq : s.freq = t.freq
  nodes : s.nodes = t.nodes
  pq : s.pq = t.pq
  root : s.root = t.root
  code : s.code = t.code
  tbits : s.tbits = t.tbits
  xbits : s.xbits = t.xbits
  sbits : s.sbits = t.sbits
  cur : s.cur = t.cur
  status : s.status = t.status

/-- Two stages come to the same end, in states that agree. -/
def StageResult.SameWork : StageResult → StageResult → Prop
  | .done s, .done t => Machine.SameWork s t
  | .raised e s, .raised f t => e = f ∧ Machine.SameWork s t
  | .stuck e, .stuck f => e = f
  | _, _ => False

/-- What COMPRESS has cleared and counted agrees where the input does (R120, R200). -/
theorem counted_sameWork {s t : State} (hcap : s.cap = t.cap) (hinput : inputBytes s = inputBytes t) :
    SameWork (counted (startCommand s)) (counted (startCommand t)) where
  cap := hcap
  input := hinput
  err := rfl
  out := rfl
  freq := congrArg (List.foldl bumpCount []) hinput
  nodes := rfl
  pq := rfl
  root := rfl
  code := rfl
  tbits := rfl
  xbits := rfl
  sbits := rfl
  cur := rfl
  status := rfl

/-- What BUILD and CODES have made agrees with what they make from another state on the same input. -/
theorem CodesReady.sameWork {s t v : State} {tree : CodeTree} (h : CodesReady s v tree)
    (hst : SameWork (counted s) (counted t)) : SameWork v (withCodesOf v (counted t)) := by
  obtain ⟨nodes, pq, root, code, hframe⟩ := h.exists_frame
  have hstatus : s.status.clearValid = t.status.clearValid := hst.status
  rw [hframe]
  exact { hst with
    nodes := rfl
    pq := rfl
    root := rfl
    code := rfl
    status := by rw [hstatus]; rfl }

/-- States that agree after CODES agree after the last four stages of COMPRESS. -/
theorem SameWork.encoded {v w : State} (h : SameWork v w) (tree : CodeTree) :
    (encoded v tree).SameWork (encoded w tree) := by
  have htext : inputText v tree = inputText w tree := by rw [inputText, inputText, h.input]
  have hsbits : (assembled v tree).sbits = (assembled w tree).sbits := congrArg (assembleStream tree.ser) htext
  have hserialised : SameWork (serialised v tree) (serialised w tree) :=
    { h with tbits := rfl, xbits := htext, status := by simp only [serialised, h.status] }
  have hassembled : SameWork (assembled v tree) (assembled w tree) :=
    { hserialised with sbits := hsbits, cur := rfl, status := by simp only [assembled, hserialised.status] }
  have hxbitsMax : v.cap.xbitsMax < (inputText v tree).length ↔ w.cap.xbitsMax < (inputText w tree).length := by
    rw [h.cap, htext]
  have hsbitsMax :
      v.cap.sbitsMax < (assembled v tree).sbits.length ↔ w.cap.sbitsMax < (assembled w tree).sbits.length := by
    rw [h.cap, hsbits]
  have houtMax :
      v.cap.outMax < (assembled v tree).sbits.length / 8 ↔ w.cap.outMax < (assembled w tree).sbits.length / 8 := by
    rw [h.cap, hsbits]
  simp only [Machine.encoded, hxbitsMax, hsbitsMax, houtMax]
  split
  next => exact ⟨rfl, { h with xbits := rfl, status := by simp only [h.status] }⟩
  next =>
    split
    next =>
      exact ⟨rfl, { hserialised with sbits := rfl, cur := rfl, status := by simp only [hserialised.status] }⟩
    next =>
      split
      next => exact ⟨rfl, { hassembled with out := rfl }⟩
      next => exact { hassembled with out := congrArg packBits hsbits }

/-- COMPRESS from states with the same capacities and the same input comes to the same end. -/
theorem compressStage_sameWork {s t : State} (hcap : s.cap = t.cap) (hinput : inputBytes s = inputBytes t) :
    (compressStage (startCommand s)).SameWork (compressStage (startCommand t)) := by
  have hlen : s.inLen = t.inLen :=
    BitVec.eq_of_toNat_eq (by rw [← inputBytes_length, ← inputBytes_length, hinput])
  have hcounted := counted_sameWork hcap hinput
  by_cases h : s.inLen = 0
  · have hempty {u : State} (hu : u.inLen = 0) : compressStage u = .raised .emptyInput (counted u) := by
      rw [compressStage, count_requireInput, if_pos hu]
      rfl
    rw [hempty (u := startCommand s) h, hempty (u := startCommand t) (hlen ▸ h)]
    exact ⟨rfl, hcounted⟩
  · obtain ⟨v, tree, hchain, hv⟩ := exists_codesReady (s := startCommand s) h
    have hwork := hv.sameWork hcounted
    have hcodes := build_codes_withCodesOf (b := counted (startCommand t)) hcounted.freq.symm
      (build_codes_counted h hchain)
    have hcoded : Coded (withCodesOf v (counted (startCommand t))) tree :=
      ⟨hv.coded.vTree, hv.coded.vCodes, hv.tree?, hv.code, fun b hb => hv.coded.symbols b (hwork.input ▸ hb)⟩
    have hcount := (count_requireInput (startCommand t)).trans (if_neg (hlen ▸ h))
    have hchain' : (((countStage (compressStart (startCommand t))).andThen requireInput).andThen
        buildStage).andThen codesStage = .done (withCodesOf v (counted (startCommand t))) := by
      rw [hcount, andThen_done, hcodes]
    rw [compressStage_eq_encoded hv.coded hchain, compressStage_eq_encoded hcoded hchain']
    exact hwork.encoded tree

/-- Commands whose stages come to the same end leave states that agree. -/
theorem SameWork.runCommand {body : State → StageResult} {s₁ s₂ t₁ t₂ : State}
    (h : (body (startCommand s₁)).SameWork (body (startCommand s₂))) (h₁ : runCommand body s₁ = .next t₁)
    (h₂ : runCommand body s₂ = .next t₂) : SameWork t₁ t₂ := by
  rcases runCommand_eq_next_iff.mp h₁ with ⟨u₁, hu₁, rfl⟩ | ⟨e₁, u₁, hu₁, rfl⟩ <;>
    rcases runCommand_eq_next_iff.mp h₂ with ⟨u₂, hu₂, rfl⟩ | ⟨e₂, u₂, hu₂, rfl⟩ <;> rw [hu₁, hu₂] at h
  · exact { h with status := by simp only [completeCommand_fields, h.status] }
  · exact h.elim
  · exact h.elim
  · obtain ⟨rfl, h⟩ := h
    exact { h with err := rfl, status := by simp only [takeError_fields, h.status] }

/-- Settles O45: the counts agree, hence what BUILD and CODES make of them, hence the text and the stream. -/
theorem compressDependsOnInputAlone : Obligations.CompressDependsOnInputAlone := by
  intro s₁ s₂ t₁ t₂ hcap hinput h₁ h₂
  have h : SameWork t₁ t₂ := SameWork.runCommand (compressStage_sameWork hcap hinput) h₁ h₂
  exact ⟨h.err, h.out, h.freq, h.nodes, h.pq, h.root, h.code, h.tbits, h.xbits, h.sbits, h.cur, h.status⟩

end Sys2Proof.Machine
end

section
/-! What BUILD comes to (R132, R134, R141): EmptyInputError on the empty table, and else a tree of the symbols present. -/

namespace Sys2Proof.Machine

/-- BUILD on the empty table (R132). -/
theorem exec_build_of_empty {s : State} (h : presentSymbols s.freq = []) :
    exec .build s = .next (reportError .emptyInput (dropTree s)) := by
  have hstage : buildStage (startCommand s) = .raised .emptyInput (dropTree (startCommand s)) :=
    andThen_of_raised (seedStage_of_empty h)
  exact (runCommand_of_raised hstage).trans rfl

/-- BUILD on one symbol is SEED alone (R134). -/
theorem exec_build_of_single {s : State} {b : Byte} (h : presentSymbols s.freq = [b]) :
    exec .build s = .next { reportDone s with
      nodes := [.leaf b ((Freq.count s.freq b).setWidth 40)]
      pq := [0]
      root := 0
      status := { (reportDone s).status with vTree := true } } := by
  have hne : presentSymbols s.freq ≠ [] := by simp [h]
  have hleaves : seedLeaves s.freq = [.leaf b ((Freq.count s.freq b).setWidth 40)] := by
    rw [seedLeaves_eq, h, List.map_singleton]
  have hseed := runCommands_cons_of_no_err (rest := []) (exec_seed_of_present hne) rfl
  rw [← runCommands_seed_merges, h]
  refine hseed.trans ?_
  rw [hleaves]
  rfl

/-- BUILD where some symbol is present completes with a tree of the symbols present (R141). -/
theorem exec_build_of_present {s : State} (h : presentSymbols s.freq ≠ []) :
    ∃ t, exec .build s = .next t ∧
      (∃ tree, t.tree? = some tree ∧ tree.symbols.Perm (presentSymbols s.freq)) ∧
      t = { reportDone s with
        nodes := t.nodes
        pq := t.pq
        root := t.root
        status := { (reportDone s).status with vTree := true } } := by
  obtain ⟨u, hbuild, hbuilding, hlen⟩ := buildStage_building (s := startCommand s) h
  obtain ⟨_, tree, -, -, -, -, hvalid, htree, hsymbols, -⟩ := hbuilding.tree hlen
  have hframe := buildStage_sameButTree (startCommand s)
  rw [hbuild] at hframe
  obtain ⟨nodes, pq, root, vTree, rfl⟩ := hframe
  obtain rfl : vTree = true := hvalid
  exact ⟨_, runCommand_of_done hbuild, ⟨tree, htree, hsymbols⟩, rfl⟩

/-- Settles O18: SEED alone decides the first two cases, and in the third the merges end in one tree. -/
theorem buildLeavesValidTree : Obligations.BuildLeavesValidTree :=
  ⟨fun _ h => exec_build_of_empty (presentSymbols_eq_nil_iff.mpr h), fun _ _ h => exec_build_of_single h,
    fun _ h => exec_build_of_present h⟩

end Sys2Proof.Machine
end

section
/-! BUILD refines the repeated merging of the two least items (R143): the queue in key order holds the abstract queue's
items in their order, so that MERGE joins the items that the abstract queue gives up first. -/

namespace Sys2Proof.Machine

theorem QueueItem.below_iff {x y : QueueItem} :
    x.below y = true ↔ x.weight < y.weight ∨ x.weight = y.weight ∧ x.seq < y.seq := by
  simp [QueueItem.below]

/-- Taking the least item off a queue leaves the others. -/
theorem takeLeast_perm (x : QueueItem) (rest : List QueueItem) :
    ((takeLeast x rest).1 :: (takeLeast x rest).2).Perm (x :: rest) := by
  induction rest generalizing x with
  | nil => exact .refl _
  | cons y rest ih =>
    rw [takeLeast]
    split
    · exact (List.Perm.swap _ _ _).trans ((ih y).cons x)
    · exact (List.Perm.swap _ _ _).trans (((ih x).cons y).trans (.swap _ _ _))

/-- No item left is below the item taken. -/
theorem takeLeast_least (x : QueueItem) (rest : List QueueItem) :
    ∀ z ∈ (takeLeast x rest).2, ¬ z.below (takeLeast x rest).1 = true := by
  induction rest generalizing x with
  | nil => simp [takeLeast]
  | cons y rest ih =>
    have hmem (w : QueueItem) : w = (takeLeast w rest).1 ∨ w ∈ (takeLeast w rest).2 :=
      List.mem_cons.mp ((takeLeast_perm w rest).mem_iff.mpr List.mem_cons_self)
    rw [takeLeast]
    split
    next hyx =>
      refine List.forall_mem_cons.mpr ⟨fun hx => ?_, ih y⟩
      rw [QueueItem.below_iff] at hyx hx
      dsimp only at hx
      rcases hmem y with hy | hy
      · rw [← hy] at hx
        omega
      · have hleast := ih y y hy
        rw [QueueItem.below_iff] at hleast
        omega
    next hyx =>
      refine List.forall_mem_cons.mpr ⟨fun hy => ?_, ih x⟩
      rcases hmem x with hx | hx
      · exact hyx (hx ▸ hy)
      · have hleast := ih x x hx
        rw [QueueItem.below_iff] at hleast hyx hy
        dsimp only at hy
        omega

/-- The item taken off a queue is the first of the items in order. -/
theorem takeLeast_of_sorted {x a : QueueItem} {rest others : List QueueItem} (hperm : (a :: others).Perm (x :: rest))
    (hsorted : (a :: others).Pairwise fun u v => u.below v = true) :
    (takeLeast x rest).1 = a ∧ others.Perm (takeLeast x rest).2 := by
  have htaken := hperm.trans (takeLeast_perm x rest).symm
  have hfirst : a = (takeLeast x rest).1 := by
    rcases List.mem_cons.mp (htaken.mem_iff.mp List.mem_cons_self) with ha | ha
    · exact ha
    · rcases List.mem_cons.mp (htaken.mem_iff.mpr List.mem_cons_self) with hl | hl
      · exact hl.symm
      · exact absurd ((List.pairwise_cons.mp hsorted).1 _ hl) (takeLeast_least x rest a ha)
  exact ⟨hfirst.symm, (hfirst ▸ htaken).cons_inv⟩

/-- Every item that a queue of handles holds is held at one of the handles. -/
theorem QueueHolds.exists_handle {nodes : List Node} {pq : List Nat} {items : List QueueItem}
    (hq : QueueHolds nodes pq items) {x : QueueItem} (hx : x ∈ items) : ∃ h ∈ pq, itemAt nodes h = some x := by
  induction hq with
  | nil => cases hx
  | cons hy _ ih =>
    rcases List.mem_cons.mp hx with rfl | hx
    · exact ⟨_, List.mem_cons_self, hy⟩
    · obtain ⟨h, hh, hitem⟩ := ih hx
      exact ⟨h, List.mem_cons_of_mem _ hh, hitem⟩

/-- The key order of handles is the order of the items they hold (R130, R143). -/
theorem below_of_keyBelow {nodes : List Node} {a b : Nat} {x y : QueueItem} (hx : itemAt nodes a = some x)
    (hy : itemAt nodes b = some y) (h : keyBelow nodes a b) : x.below y = true := by
  obtain ⟨-, hxw, hxs⟩ := itemAt_eq_some_iff.mp hx
  obtain ⟨-, hyw, hys⟩ := itemAt_eq_some_iff.mp hy
  rwa [QueueItem.below_iff, ← hxw, ← hyw, ← hxs, ← hys]

/-- A queue in key order holds its items in order. -/
theorem QueueHolds.sorted {nodes : List Node} {pq : List Nat} {items : List QueueItem} (hq : QueueHolds nodes pq items)
    (hord : pq.Pairwise (keyBelow nodes)) : items.Pairwise fun x y => x.below y = true := by
  induction hq with
  | nil => exact .nil
  | cons hx hrest ih =>
    obtain ⟨hfirst, hord⟩ := List.pairwise_cons.mp hord
    refine List.pairwise_cons.mpr ⟨fun y hy => ?_, ih hord⟩
    obtain ⟨h, hh, hitem⟩ := QueueHolds.exists_handle hrest hy
    exact below_of_keyBelow hx hitem (hfirst h hh)

/-- The builder's queue holds the abstract queue (R143), in key order, and the weights do not wrap. -/
structure Refines (s : State) (queue : List QueueItem) : Prop where
  holds : ∃ items, QueueHolds s.nodes s.pq items ∧ items.Perm queue
  sorted : s.pq.Pairwise (keyBelow s.nodes)
  weights : (queue.map QueueItem.weight).sum < 2 ^ 40

/-- SEED starts from the items the abstract builder starts from (R131, R143). -/
theorem refines_of_seeded {s : State} (freq : List (Nat × Word)) (hnodes : s.nodes = seedLeaves freq)
    (hpq : s.pq = seedQueue (seedLeaves freq)) : Refines s (startItems freq) where
  holds := hnodes ▸ hpq ▸ (seedLeaves_queueHolds freq).of_perm (seedQueue_perm _)
  sorted := hnodes ▸ hpq ▸ foldr_enqueue_pairwise _ List.nodup_range
  weights := (startItems_weights freq).trans_lt (freqTotal_lt freq)

theorem Refines.length_eq {s : State} {queue : List QueueItem} (h : Refines s queue) :
    s.pq.length = queue.length := by
  obtain ⟨items, hq, hperm⟩ := h.holds
  exact hq.length_eq.trans hperm.length_eq

/-- The merge of the two least items (R143). -/
theorem mergeItems_step {fuel n : Nat} {x y a b : QueueItem} {rest others : List QueueItem} {z : QueueItem}
    {left : List QueueItem} (hfirst : takeLeast x (y :: rest) = (a, z :: left))
    (hsecond : takeLeast z left = (b, others)) :
    mergeItems (fuel + 1) n (x :: y :: rest) = mergeItems fuel (n + 1) (joinItems n a b :: others) := by
  simp only [mergeItems, hfirst, hsecond, joinItems]

/-- A queue of one item at most is merged. -/
theorem mergeItems_of_length_le {fuel n : Nat} {queue : List QueueItem} (h : queue.length ≤ 1) :
    mergeItems fuel n queue = queue := by
  match fuel, queue with
  | 0, _ => simp [mergeItems]
  | _ + 1, [] => rfl
  | _ + 1, [_] => rfl
  | _ + 1, _ :: _ :: _ => simp at h

/-- MERGE joins the two items the abstract queue gives up first (R135, R143). -/
theorem Refines.mergeStage {s : State} {queue : List QueueItem} (h : Refines s queue) (hlen : 1 < s.pq.length) :
    ∃ t queue', mergeStage s = .done t ∧ Refines t queue' ∧ t.nodes.length = s.nodes.length + 1 ∧
      ∀ fuel, mergeItems (fuel + 1) s.nodes.length queue = mergeItems fuel (s.nodes.length + 1) queue' := by
  obtain ⟨x, y, rest, rfl⟩ : ∃ x y rest, queue = x :: y :: rest := by
    rw [h.length_eq] at hlen
    match queue with
    | x :: y :: rest => exact ⟨x, y, rest, rfl⟩
    | [_] => simp at hlen
    | [] => simp at hlen
  obtain ⟨⟨items, hq, hperm⟩, hord, hweights⟩ := h
  obtain ⟨a, b, pq, hpq⟩ : ∃ a b pq, s.pq = a :: b :: pq := by
    match hpq : s.pq with
    | a :: b :: pq => exact ⟨a, b, pq, rfl⟩
    | [_] => simp [hpq] at hlen
    | [] => simp [hpq] at hlen
  have hstage := mergeStage_of_cons hpq hq.lt_length
  have hsorted := hq.sorted hord
  rw [hpq] at hq hord
  obtain ⟨u, _, -, hq', rfl⟩ := List.forall₂_cons_left_iff.mp hq
  obtain ⟨v, others, -, -, rfl⟩ := List.forall₂_cons_left_iff.mp hq'
  obtain ⟨hu, hleft⟩ := takeLeast_of_sorted hperm hsorted
  obtain ⟨z, left, hz⟩ : ∃ z left, (takeLeast x (y :: rest)).2 = z :: left :=
    List.exists_cons_of_ne_nil fun hnil => by simp [hnil] at hleft
  obtain ⟨hv, hothers⟩ := takeLeast_of_sorted (hz ▸ hleft) hsorted.tail
  have hsum := (hperm.map QueueItem.weight).sum_eq
  simp only [List.map_cons, List.sum_cons] at hsum hweights
  obtain ⟨items', hmerged, hperm'⟩ := mergeTop_queueHolds (s := s) hq (by omega)
  refine ⟨_, joinItems s.nodes.length u v :: (takeLeast z left).2, hstage,
    ⟨⟨items', hmerged, hperm'.trans (hothers.cons _)⟩, ?_, ?_⟩, mergeTop_nodes_length .., fun fuel => ?_⟩
  · rw [mergeTop_eq]
    exact enqueue_new_pairwise _ (fun h hh => hq.lt_length h (by simp [hh])) hord.tail.tail
  · rw [List.map_cons, List.sum_cons, ← (hothers.map QueueItem.weight).sum_eq]
    simp only [joinItems]
    omega
  · exact mergeItems_step (Prod.ext hu hz) (Prod.ext hv rfl)

/-- The loop of BUILD and the abstract builder go on in lockstep (R140, R143). -/
theorem Refines.mergeLoop {s : State} {queue : List QueueItem} (h : Refines s queue) (fuel : Nat) :
    ∃ t, mergeLoop fuel s = .done t ∧ Refines t (mergeItems fuel s.nodes.length queue) := by
  induction fuel generalizing s queue with
  | zero => exact ⟨s, rfl, by simpa [mergeItems] using h⟩
  | succ fuel ih =>
    rw [Machine.mergeLoop]
    split
    next hlt =>
      obtain ⟨t, queue', ht, hrefines, hnodes, hitems⟩ := h.mergeStage hlt
      rw [ht, andThen_done, hitems, ← hnodes]
      exact ih hrefines
    next hlt =>
      rw [mergeItems_of_length_le (h.length_eq ▸ Nat.le_of_not_lt hlt)]
      exact ⟨s, rfl, h⟩

/-- The last item of the abstract queue is the one that the one handle left in the queue holds. -/
theorem Refines.single {s : State} {queue : List QueueItem} {r : Nat} (h : Refines s queue) (hpq : s.pq = [r]) :
    ∃ item, queue = [item] ∧ itemAt s.nodes r = some item := by
  obtain ⟨⟨items, hq, hperm⟩, -, -⟩ := h
  rw [hpq] at hq
  obtain ⟨item, _, hitem, hnil, rfl⟩ := List.forall₂_cons_left_iff.mp hq
  obtain rfl := List.forall₂_nil_left_iff.mp hnil
  exact ⟨item, hperm.symm.eq_singleton, hitem⟩

/-- BUILD's stage ends with the queue that the abstract builder ends with (R143). -/
theorem buildStage_refines {s : State} (h : presentSymbols s.freq ≠ []) :
    ∃ t, buildStage s = .done t ∧
      Refines t (mergeItems (presentSymbols s.freq).length (presentSymbols s.freq).length (startItems s.freq)) := by
  rw [buildStage, seedStage_of_present h, andThen_done]
  simpa using Refines.mergeLoop (s := { dropTree s with
      nodes := seedLeaves s.freq
      pq := seedQueue (seedLeaves s.freq)
      status := { s.status with vTree := decide ((seedLeaves s.freq).length = 1) } })
    (refines_of_seeded s.freq rfl rfl) (presentSymbols s.freq).length

/-- Settles O19: the loops go on in lockstep until one handle is queued, which holds the abstract queue's last item. -/
theorem buildRefinesAbstractMerging : Obligations.BuildRefinesAbstractMerging := by
  intro s h
  obtain ⟨t, hstage, hrefines⟩ := buildStage_refines (s := startCommand s) h
  obtain ⟨t', hstage', hbuilding, hlen⟩ := buildStage_building (s := startCommand s) h
  obtain rfl : t = t' := StageResult.done.inj (hstage.symm.trans hstage')
  obtain ⟨r, tree, hpq, hr, hnodes, hroot, -, htree, -, -⟩ := hbuilding.tree hlen
  obtain ⟨item, hitems, hitem⟩ := hrefines.single hpq
  obtain ⟨hitemTree, hweight, rfl⟩ := itemAt_eq_some_iff.mp hitem
  have hsize := presentSymbols_length_le (startCommand s).freq
  have hrootNat : t.root.toNat = item.seq := by
    rw [hroot]
    exact toNat_ofNat_of_lt (by omega)
  refine ⟨_, item, runCommand_of_done hstage, hitems, ?_, hrootNat, hweight⟩
  rw [← hrootNat] at hitemTree
  exact hitemTree

end Sys2Proof.Machine
end

section
/-! A compressed stream without its last byte (R224): what DECOMPRESS reads of it is the front of the stream, and text bits
cut short decode to fewer bytes, or not at all. -/

namespace Sys2Proof.Machine

theorem piece_of_ne_nil {code : Bits} (h : code ≠ []) : piece code = code := if_neg h

/-- The decoder finds OUT full at the piece of a symbol's code (R217). -/
theorem decodeText_piece_full {t : CodeTree} {b : Byte} {code : Bits} (rest : Bits) (h : codesOf t b = some code) :
    decodeText t 0 (piece code ++ rest) = .error .capacity := by
  cases t with
  | leaf s =>
    rw [codesOf_leaf, Option.ite_none_right_eq_some, Option.some.injEq] at h
    obtain ⟨rfl, rfl⟩ := h
    rfl
  | node l r =>
    have hp := mem_paths_of_codesOf h
    rw [piece_of_ne_nil (path_ne_nil hp)]
    exact decodeText_path_append hp 0 rest

/-- The front of a symbol's piece, if it is neither empty nor all of it, is no text (R217). -/
theorem decodeText_piece_cut {t : CodeTree} {b : Byte} {code x z : Bits} (room : Nat) (h : codesOf t b = some code)
    (hpiece : piece code = x ++ z) (hx : x ≠ []) (hz : z ≠ []) : decodeText t room x = .error .corruptStream := by
  cases t with
  | leaf s =>
    rw [codesOf_leaf, Option.ite_none_right_eq_some, Option.some.injEq] at h
    obtain ⟨rfl, rfl⟩ := h
    have hlen := congrArg List.length hpiece
    have hxlen := List.length_pos_iff.mpr hx
    have hzlen := List.length_pos_iff.mpr hz
    simp only [piece, if_true, List.length_singleton, List.length_append] at hlen
    omega
  | node l r =>
    have hcode := mem_paths_of_codesOf h
    rw [piece_of_ne_nil (path_ne_nil hcode)] at hpiece
    refine decodeText_dead_end hx (fun p hp hprefix => hz ?_) room
    obtain rfl := eq_of_paths_prefix hp hcode (hprefix.trans (hpiece ▸ List.prefix_append x z))
    have hlen := hprefix.length_le
    rw [hpiece, List.length_append] at hlen
    exact List.length_eq_zero_iff.mp (by omega)

/-- Text bits cut short decode to a proper front part of the bytes they encode, if they decode at all (R224). -/
theorem decodeText_cut {t : CodeTree} {bytes out : List Byte} {room : Nat} {x y : Bits}
    (hsymbols : ∀ b ∈ bytes, b ∈ t.symbols) (htext : x ++ y = textOf (codesOf t) bytes) (hy : y ≠ [])
    (hout : decodeText t room x = .ok out) : out <+: bytes ∧ out.length < bytes.length := by
  induction bytes generalizing x room out with
  | nil =>
    obtain ⟨-, rfl⟩ := List.append_eq_nil_iff.mp htext
    exact absurd rfl hy
  | cons b rest ih =>
    obtain ⟨hb, hrest⟩ := List.forall_mem_cons.mp hsymbols
    obtain ⟨code, hcode⟩ := Option.isSome_iff_exists.mp (codesOf_isSome_iff.mpr hb)
    have hwhole {x' : Bits} (hx : x = piece code ++ x') (htext' : x' ++ y = textOf (codesOf t) rest) :
        out <+: b :: rest ∧ out.length < (b :: rest).length := by
      rw [hx] at hout
      cases room with
      | zero => cases (decodeText_piece_full x' hcode).symm.trans hout
      | succ room =>
        rw [decodeText_piece_append room x' hcode] at hout
        cases hdecode : decodeText t room x' with
        | error e => simp [hdecode, Except.map] at hout
        | ok out' =>
          obtain rfl : b :: out' = out := by simpa [hdecode, Except.map] using hout
          obtain ⟨hprefix, hlen⟩ := ih hrest htext' hdecode
          exact ⟨List.cons_prefix_cons.mpr ⟨rfl, hprefix⟩, Nat.succ_lt_succ hlen⟩
    rw [textOf_cons, hcode, Option.getD_some] at htext
    rcases List.append_eq_append_iff.mp htext with ⟨z, hpiece, hyz⟩ | ⟨x', hx, htext'⟩
    · by_cases hz : z = []
      · subst hz
        exact hwhole (x' := []) (by simpa using hpiece.symm) (by simpa using hyz)
      · by_cases hx : x = []
        · rw [hx, decodeText_nil] at hout
          obtain rfl := Except.ok.inj hout
          exact ⟨List.nil_prefix, Nat.succ_pos _⟩
        · cases (decodeText_piece_cut room hcode hpiece hx hz).symm.trans hout
    · exact hwhole hx htext'.symm

/-- What a DECOMPRESS that succeeds has read, where the cursor can reach the end of the input's bits: a tree, a pad count,
its padding, and text that decodes to OUT. -/
theorem decompressStage_eq_done {s t : State} (hlength : (unpackBytes (inputBytes s)).length < 2 ^ 32)
    (h : decompressStage s = .done t) :
    ∃ tree rest p, unpackBytes (inputBytes s) = tree.ser ++ rest ∧ p = (val8 (rest.take 8)).toNat ∧
      8 + p ≤ rest.length ∧ decodeText tree s.cap.outMax (rest.drop (8 + p)) = .ok t.out := by
  simp only [decompressStage, unpackStage_eq, andThen_done, andThen_eq_done_iff] at h
  obtain ⟨c, ⟨b, hdestree, hrdpad⟩, hdectext⟩ := h
  rcases destreeStage_unpacked_cases s with ⟨e, -, hs⟩ | ⟨tree, rest, n, hread, hs⟩ <;>
    cases hs.symm.trans hdestree
  obtain ⟨hstream, -, -⟩ := readTree_eq_ok hread
  have hlen : (unpackBytes (inputBytes s)).length = tree.ser.length + rest.length := by
    rw [hstream, List.length_append]
  have hcur : (treeRead s tree rest).cur.toNat = tree.ser.length :=
    (toNat_ofNat_of_lt (by omega)).trans (by omega)
  have hsbits : (treeRead s tree rest).sbits = tree.ser ++ rest := hstream
  have hfromCur : (treeRead s tree rest).streamFromCur = rest := by
    rw [State.streamFromCur, hcur, hsbits, List.drop_left]
  rcases rdpadStage_cases (treeRead s tree rest) with ⟨-, hs⟩ | ⟨-, hs⟩ | ⟨p, -, hfield, -, hfits, hs⟩ <;>
    cases hs.symm.trans hrdpad
  rw [hcur, hsbits, List.length_append] at hfits
  rw [hfromCur] at hfield
  rcases dectextStage_cases { treeRead s tree rest with
      padCnt := BitVec.ofNat 32 p, cur := BitVec.ofNat 32 ((treeRead s tree rest).cur.toNat + 8 + p) } with
    ⟨-, hs⟩ | ⟨-, -, -, hs⟩ | ⟨-, -, hs⟩ | ⟨_, _, -, -, -, -, -, hs⟩ | ⟨tree', out, -, -, -, htree, htext, hs⟩ <;>
    cases hs.symm.trans hdectext
  obtain rfl : tree = tree' := Option.some.inj ((tree?_treeRead s tree rest).symm.trans htree)
  refine ⟨tree, rest, p, hstream, hfield, by omega, ?_⟩
  rw [State.streamFromCur, hcur, toNat_ofNat_of_lt (by omega)] at htext
  have hdrop : (treeRead s tree rest).sbits.drop (tree.ser.length + 8 + p) = rest.drop (8 + p) := by
    rw [hsbits, Nat.add_assoc, ← List.drop_drop, List.drop_left]
  rw [← hdrop]
  exact htext

/-- DECOMPRESS of the front of a stream of COMPRESS that lacks some bits at its end, if it succeeds, gives a proper front
part of the input (R224). -/
theorem decompressStage_cut {s v s' t : State} {tree : CodeTree} {cut : Bits} (hv : CodesReady s v tree)
    (hcut : cut ≠ []) (hstream : unpackBytes (inputBytes s') ++ cut = (assembled v tree).sbits)
    (hlength : (unpackBytes (inputBytes s')).length < 2 ^ 32) (h : decompressStage s' = .done t) :
    t.out <+: inputBytes s ∧ t.out.length < (inputBytes s).length := by
  obtain ⟨tree', rest, p, hparts, hfield, hfits, htext⟩ := decompressStage_eq_done hlength h
  have hassembled : (assembled v tree).sbits = _ := assembleStream_eq tree.ser (inputText v tree)
  rw [hparts, List.append_assoc, hassembled] at hstream
  obtain ⟨rfl, hrest⟩ := ser_append_inj hstream
  have htake := congrArg (List.take 8) hrest
  rw [List.take_append_of_le_length (by omega), List.take_left' (bits8_length _)] at htake
  have hpad : p = padCount tree'.ser.length (inputText v tree').length := by
    have hle := padCount_le tree'.ser.length (inputText v tree').length
    rw [hfield, htake, val8_bits8, BitVec.toNat_ofNat]
    omega
  have hfront : (bits8 (BitVec.ofNat 8 p) ++ List.replicate p false).length = 8 + p := by simp
  have hdrop := congrArg (List.drop (8 + p)) hrest
  rw [List.drop_append_of_le_length hfits, ← hpad, ← List.append_assoc, List.drop_left' hfront] at hdrop
  rw [inputText, hv.inputBytes] at hdrop
  exact decodeText_cut (fun _ => hv.mem_symbols) hdrop hcut htext

/-- Settles O50: what is left of the stream starts with the same tree and field, and its text is cut short. -/
theorem truncatedStreamGivesErrorOrProperPrefix : Obligations.TruncatedStreamGivesErrorOrProperPrefix := by
  intro s t s' hcap h he hcap' hfits hlen hread
  obtain ⟨v, tree, hv, -, rfl⟩ := exec_compress_of_no_err h he
  have hne : (packed v tree).out ≠ [] := by
    intro hnil
    have hlen := congrArg List.length ((unpackBytes_packed_out v tree).symm.trans (congrArg unpackBytes hnil))
    have hassembled : (assembled v tree).sbits.length = _ := assembleStream_length tree.ser (inputText v tree)
    rw [hassembled, unpackBytes_nil, List.length_nil] at hlen
    omega
  have hinput : inputBytes s' = (packed v tree).out.dropLast := by
    refine inputBytes_eq_of_read (by rw [hlen, List.length_dropLast]; rfl) fun i hi => ?_
    rw [List.length_dropLast] at hi
    rw [List.getElem?_dropLast, if_pos hi]
    exact hread i hi
  have hstream : unpackBytes (inputBytes s') ++ bits8 ((packed v tree).out.getLast hne) =
      (assembled v tree).sbits := by
    rw [← unpackBytes_packed_out, hinput]
    conv_rhs => rw [← List.dropLast_append_getLast hne]
    simp
  have hlength : (unpackBytes (inputBytes s')).length < 2 ^ 32 :=
    unpackBytes_inputBytes_length_lt (hcap' ▸ hcap) (by rw [hcap', hlen]; omega)
  rcases decompressStage_cases (startCommand s') with ⟨e, -, hs⟩ | ⟨_, _, _, e, _, _, -, -, hs⟩ |
    ⟨_, _, _, _, _, out, -, hs⟩
  · exact ⟨_, runCommand_of_raised hs, .inl (by simp)⟩
  · exact ⟨_, runCommand_of_raised hs, .inl (by simp)⟩
  · refine ⟨_, runCommand_of_done hs, .inr ?_⟩
    rw [← inputBytes_startCommand s]
    have hfront := decompressStage_cut (s' := startCommand s') (cut := bits8 _) hv (by simp [bits8]) hstream hlength hs
    exact hfront

end Sys2Proof.Machine
end
